-- ==== Sys2Proof/Word.lean ====
section
/-! DEFINITION. Word.lean: the values the block moves (spec 00_scope.md R7). Every value is unsigned; there is no signed quantity. -/

namespace Sys2Proof

/-- An 8-bit unsigned value (R7). -/
abbrev Byte := BitVec 8

/-- A 4-bit unsigned value (R7). -/
abbrev Nibble := BitVec 4

/-- A text operand: a finite sequence of bytes of any length, each the code of one character (R56, R59). -/
abbrev Text := List Byte

/-- A pin level: LOW is 0, HIGH is 1 (R7, R55). -/
inductive Level where
  | low
  | high
  deriving DecidableEq, Repr

end Sys2Proof
end

