-- ==== Sys2Proof/Config.lean ====
section
/-! DEFINITION. Config.lean: the implementation parameters of 00_scope.md R5 and the one free value.
A parameter whose value the spec gives is a constant here; an OPEN parameter is a field of `Params`, which the state carries so
that every statement holds for every value of it (notes/assumptions/1.md). No operation writes a parameter (R6). -/

namespace Sys2Proof

namespace Config

/-- `LCD_COLS`: characters per line (R5). -/
def lcdCols : Nat := 16

/-- `LCD_LINES`: addressable lines (R5). -/
def lcdLines : Nat := 2

/-- `LINE_1_ADDR` (R5, R33). -/
def line1Addr : Byte := 0x80#8

/-- `LINE_2_ADDR` (R5, R33). -/
def line2Addr : Byte := 0xC0#8

/-- `HS_NIBBLE_8BIT`: the handshake nibble sent `hsRepeat` times (R5, R98). -/
def hsNibble8Bit : Nibble := 0x3#4

/-- `HS_NIBBLE_4BIT`: the handshake nibble sent once (R5, R98). -/
def hsNibble4Bit : Nibble := 0x2#4

/-- `HS_REPEAT` (R5, R98). -/
def hsRepeat : Nat := 3

/-- `PAD_CHAR`, the byte of the space. PRESUMED: the number is general knowledge in the spec itself (R5, G2; notes/assumptions/4.md). -/
def padChar : Byte := 0x20#8

/-- `T_PWR` = 100 ms, in microseconds, a lower bound (R5, R97). -/
def tPwr : Nat := 100000

/-- `T_STROBE` = 0.5 ms, in microseconds, a lower bound (R5, R75). -/
def tStrobe : Nat := 500

/-- `T_GAP` = 0.5 ms, in microseconds, a lower bound (R5, R99). -/
def tGap : Nat := 500

/-- `T_SETTLE` = 0.5 ms, in microseconds, a lower bound (R5, R117). -/
def tSettle : Nat := 500

end Config

/-- `IRQ_GRANULARITY` (R5, D17): whether the interrupt is served only between commands or between any two pin events. -/
inductive IrqGranularity where
  | command
  | event
  deriving DecidableEq, Repr

/-- The answer of the digital I/O abstraction to one call (R11, R161). -/
inductive IoOutcome where
  | ok
  | fail
  deriving DecidableEq, Repr, Inhabited

/-- The OPEN parameters of R5. The seven pin identifiers are the PinMap. -/
structure Params where
  /-- `PIN_D[0]` -/
  pinD0 : Int
  /-- `PIN_D[1]` -/
  pinD1 : Int
  /-- `PIN_D[2]` -/
  pinD2 : Int
  /-- `PIN_D[3]` -/
  pinD3 : Int
  /-- `PIN_E` -/
  pinE : Int
  /-- `PIN_RS` -/
  pinRs : Int
  /-- `PIN_BTN`, used by the host only -/
  pinBtn : Int
  /-- `I_FUNCTION_SET` -/
  iFunctionSet : Byte
  /-- `I_DISPLAY_OFF` -/
  iDisplayOff : Byte
  /-- `I_CLEAR` -/
  iClear : Byte
  /-- `I_ENTRY_MODE` -/
  iEntryMode : Byte
  /-- `I_DISPLAY_ON` -/
  iDisplayOn : Byte
  /-- `IO_CAN_FAIL` -/
  ioCanFail : Bool
  /-- `IRQ_GRANULARITY` -/
  irqGranularity : IrqGranularity
  /-- `F_CLK` in Hz; no rule depends on it (D25) -/
  fClk : Nat
  deriving DecidableEq, Repr

namespace Config

/-- The parameter values the reset state carries: the defaults of R5 for the instruction bytes, `IO_CAN_FAIL` and
`IRQ_GRANULARITY`; for the pin identifiers and `F_CLK`, which the spec leaves without a default, seven distinct numbers and 1 MHz
(DESIGN CHOICE, notes/assumptions/2.md; the instruction bytes are PRESUMED, notes/assumptions/3.md). -/
def defaultParams : Params where
  pinD0 := 0
  pinD1 := 1
  pinD2 := 2
  pinD3 := 3
  pinE := 4
  pinRs := 5
  pinBtn := 6
  iFunctionSet := 0x28#8
  iDisplayOff := 0x08#8
  iClear := 0x01#8
  iEntryMode := 0x06#8
  iDisplayOn := 0x0C#8
  ioCanFail := false
  irqGranularity := .command
  fClk := 1000000

/-- FREE VALUE: the answer to the n-th call of the digital I/O abstraction that the state's own list of answers does not give, when
`IO_CAN_FAIL` holds: "the choice being free (a draw, under no law)" (R81, R161; notes/assumptions/5.md). -/
opaque freeIoOutcome : Nat → IoOutcome

end Config

end Sys2Proof
end

