-- ==== Sys2Proof/Syntax.lean ====
section
/-! DEFINITION. Syntax.lean: the instructions: one constructor per row of spec/opcode_table.json (30_encoding.md R58 and R54),
and the word the host puts on the command port (R56, R57). -/

namespace Sys2Proof

/-- LineAddress: exactly two values (R33). -/
inductive Line where
  | line1
  | line2
  deriving DecidableEq, Repr

/-- The rows of the opcode table. The first seven are host commands (format HOSTCMD, R58), the other eleven the words the block
puts on the bus (formats BUS5 and BUS9, R54), which run as operations of the sequencer and never as commands of the host. -/
inductive Instr where
  /-- `INIT`, source name `initialize()` (R95) -/
  | init
  /-- `WRI b`, `writeInstruction(byte)` (R86) -/
  | wri (b : Byte)
  /-- `WRC b`, `writeCharacter(byte)` (R87) -/
  | wrc (b : Byte)
  /-- `STROBE`, `strobeEnable()` (R75, R129) -/
  | strobe
  /-- `SHOWLINE line, text`, `showLine(text, line)` (R112) -/
  | showline (line : Line) (text : Text)
  /-- `CLEAR`, `clear()` (R117) -/
  | clear
  /-- `SHUTDOWN`, the cleanup on interrupt (R126) -/
  | shutdown
  /-- BUS5 `HS3`: handshake nibble 0x3 (R98) -/
  | hs3
  /-- BUS5 `HS2`: handshake nibble 0x2 (R98) -/
  | hs2
  /-- BUS9 `FUNCTION_SET` (R100) -/
  | functionSet
  /-- BUS9 `DISPLAY_OFF` (R100) -/
  | displayOff
  /-- BUS9 `CLEAR_DISPLAY` (R117) -/
  | clearDisplay
  /-- BUS9 `ENTRY_MODE` (R100) -/
  | entryMode
  /-- BUS9 `DISPLAY_ON` (R100) -/
  | displayOn
  /-- BUS9 `SET_LINE_1` (R33) -/
  | setLine1
  /-- BUS9 `SET_LINE_2` (R33) -/
  | setLine2
  /-- BUS9 `CHAR c`: any character byte (R87) -/
  | char (c : Byte)
  /-- BUS9 `INSTR b`: any instruction byte, the general case of the seven rows above `CHAR` (R86) -/
  | instr (b : Byte)
  deriving DecidableEq, Repr

/-- What the host delivers at the command port: the 12-bit word of R57 and, for `SHOWLINE` only, the text out of band (R56). -/
structure HostCommand where
  word : BitVec 12
  text : Text
  deriving DecidableEq, Repr

/-- The LcdCommand of R50: a byte with a mode flag, LOW for an instruction, HIGH for character data. -/
structure LcdCommand where
  mode : Level
  value : Byte
  deriving DecidableEq, Repr

/-- A word of the opcode table in its format (R50, R52, R53, R57). -/
inductive TableWord where
  /-- format HOSTCMD, with the out-of-band text -/
  | host (c : HostCommand)
  /-- format BUS5: bit 4 is `rs`, bits 3:0 the nibble -/
  | bus5 (w : BitVec 5)
  /-- format BUS9: bit 8 is `rs`, bits 7:0 the byte -/
  | bus9 (w : BitVec 9)
  deriving DecidableEq, Repr

/-- Why a word has no instruction (R60, R56, R54). -/
inductive Reject where
  /-- `op` in 0x7..0xF -/
  | reservedOp (op : BitVec 4)
  /-- an operation without operand whose `arg` is not 0 -/
  | nonzeroArg (arg : Byte)
  /-- `SHOWLINE` with `arg[7:1]` not 0 -/
  | reservedLineField (arg : Byte)
  /-- a text delivered with a command other than `SHOWLINE` -/
  | strayText
  /-- a BUS5 word that is no row by itself: half of a BUS9 word -/
  | halfOfByte (w : BitVec 5)
  deriving DecidableEq, Repr

end Sys2Proof
end

