-- ==== Sys2Proof/WellFormed.lean ====
section
/-! DEFINITION. WellFormed.lean: what makes parameters and instructions well formed (00_scope.md R5, 70_reset_and_hazards.md R189,
30_encoding.md R54). -/

namespace Sys2Proof

/-- The PinMap: "seven fixed integer pin identifiers" (R5). -/
def Params.pinIds (P : Params) : List Int :=
  [P.pinD0, P.pinD1, P.pinD2, P.pinD3, P.pinE, P.pinRs, P.pinBtn]

/-- "The model must require the seven identifiers to be pairwise distinct" (R5). -/
def Params.pinsDistinct (P : Params) : Bool :=
  decide P.pinIds.Nodup

/-- The parameter conditions among the launch premises: `ParamsOk` (R189, R99). -/
def Params.ok (P : Params) : Bool :=
  P.pinsDistinct && decide (Config.tGap ≤ 2 * Config.tStrobe) && decide (Config.lcdCols = 16)

/-- The instruction bytes that have a row of their own in R54, in the table's order. -/
def Params.namedBytes (P : Params) : List Byte :=
  [P.iFunctionSet, P.iDisplayOff, P.iClear, P.iEntryMode, P.iDisplayOn, Config.line1Addr, Config.line2Addr]

/-- A bus word is named by the most special row that matches it (R54): the seven named bytes have to differ for their rows to be told
apart, and `INSTR b` is the name of the bytes that have no row of their own. -/
def Instr.wellFormed (P : Params) : Instr → Bool
  | .init => true
  | .wri _ => true
  | .wrc _ => true
  | .strobe => true
  | .showline _ _ => true
  | .clear => true
  | .shutdown => true
  | .hs3 => true
  | .hs2 => true
  | .functionSet => decide P.namedBytes.Nodup
  | .displayOff => decide P.namedBytes.Nodup
  | .clearDisplay => decide P.namedBytes.Nodup
  | .entryMode => decide P.namedBytes.Nodup
  | .displayOn => decide P.namedBytes.Nodup
  | .setLine1 => decide P.namedBytes.Nodup
  | .setLine2 => decide P.namedBytes.Nodup
  | .char _ => true
  | .instr b => !P.namedBytes.contains b

end Sys2Proof
end

