-- ==== Sys2Proof/Decode.lean ====
section
/-! DEFINITION. Decode.lean: the decoder of the three word formats, total and rejecting by name, and the encoder written from the same
tables (30_encoding.md R50 to R62). -/

namespace Sys2Proof

/-- `op` = bits 11:8 of a host command word (R57). -/
def opField (w : BitVec 12) : BitVec 4 := w.extractLsb' 8 4

/-- `arg` = bits 7:0 of a host command word (R57). -/
def argField (w : BitVec 12) : Byte := w.extractLsb' 0 8

/-- An operation whose `arg` must be 0 (R57, R60). -/
def noArg (arg : Byte) (i : Instr) : Except Reject Instr :=
  if arg = 0#8 then .ok i else .error (.nonzeroArg arg)

/-- The operations without a text (R58); every other `op` is reserved (R60). -/
def decodePlain (op : BitVec 4) (arg : Byte) : Except Reject Instr :=
  if op = 0x0#4 then noArg arg .init
  else if op = 0x1#4 then .ok (.wri arg)
  else if op = 0x2#4 then .ok (.wrc arg)
  else if op = 0x3#4 then noArg arg .strobe
  else if op = 0x5#4 then noArg arg .clear
  else if op = 0x6#4 then noArg arg .shutdown
  else .error (.reservedOp op)

/-- `SHOWLINE`: bit 0 of `arg` selects the line, bits 7:1 must be 0 (R57, R59). -/
def decodeShowline (arg : Byte) (text : Text) : Except Reject Instr :=
  if arg = 0#8 then .ok (.showline .line1 text)
  else if arg = 1#8 then .ok (.showline .line2 text)
  else .error (.reservedLineField arg)

/-- Decoding at the host port (R56 to R60). A text belongs to `SHOWLINE` only; a text with another command is rejected
(DESIGN CHOICE, notes/assumptions/6.md). -/
def decodeHost (c : HostCommand) : Except Reject Instr :=
  if opField c.word = 0x4#4 then decodeShowline (argField c.word) c.text
  else if c.text = [] then decodePlain (opField c.word) (argField c.word)
  else .error .strayText

/-- A single transfer: only the two handshake rows stand alone (R52, R54). -/
def decodeBus5 (w : BitVec 5) : Except Reject Instr :=
  if w = 0x03#5 then .ok .hs3
  else if w = 0x02#5 then .ok .hs2
  else .error (.halfOfByte w)

/-- The instruction byte of a BUS9 word with `rs` = 0: the named rows first, `INSTR` as the general case (R54). The five `I_*` bytes are
OPEN, and R5 does not make them differ from one another or from the line addresses: a byte that several named rows share is read as the
first of them in the order of R54's table (DESIGN CHOICE, notes/assumptions/30.md). -/
def decodeInstrByte (P : Params) (b : Byte) : Instr :=
  if b = P.iFunctionSet then .functionSet
  else if b = P.iDisplayOff then .displayOff
  else if b = P.iClear then .clearDisplay
  else if b = P.iEntryMode then .entryMode
  else if b = P.iDisplayOn then .displayOn
  else if b = Config.line1Addr then .setLine1
  else if b = Config.line2Addr then .setLine2
  else .instr b

/-- A byte as the controller sees it: bit 8 is `rs` (R53, R54). -/
def decodeBus9 (P : Params) (w : BitVec 9) : Instr :=
  if w.getLsbD 8 then .char (w.extractLsb' 0 8) else decodeInstrByte P (w.extractLsb' 0 8)

/-- The decoder of all three formats. The byte values of five BUS9 rows are parameters (R54). -/
def decode (P : Params) : TableWord → Except Reject Instr
  | .host c => decodeHost c
  | .bus5 w => decodeBus5 w
  | .bus9 w => .ok (decodeBus9 P w)

/-- A host command word from its fields (R57). -/
def hostWord (op : BitVec 4) (arg : Byte) : BitVec 12 := op ++ arg

/-- The `sel` bit of a `SHOWLINE` word, as its whole `arg` (R57). -/
def lineArg : Line → Byte
  | .line1 => 0#8
  | .line2 => 1#8

/-- A BUS9 word from its fields: bit 8 the mode, bits 7:0 the byte (R50, R53). -/
def bus9Word (rs : BitVec 1) (b : Byte) : BitVec 9 := rs ++ b

/-- The encoder: the word of each row (R54, R58). -/
def encode (P : Params) : Instr → TableWord
  | .init => .host ⟨hostWord 0x0#4 0#8, []⟩
  | .wri b => .host ⟨hostWord 0x1#4 b, []⟩
  | .wrc b => .host ⟨hostWord 0x2#4 b, []⟩
  | .strobe => .host ⟨hostWord 0x3#4 0#8, []⟩
  | .showline line text => .host ⟨hostWord 0x4#4 (lineArg line), text⟩
  | .clear => .host ⟨hostWord 0x5#4 0#8, []⟩
  | .shutdown => .host ⟨hostWord 0x6#4 0#8, []⟩
  | .hs3 => .bus5 0x03#5
  | .hs2 => .bus5 0x02#5
  | .functionSet => .bus9 (bus9Word 0#1 P.iFunctionSet)
  | .displayOff => .bus9 (bus9Word 0#1 P.iDisplayOff)
  | .clearDisplay => .bus9 (bus9Word 0#1 P.iClear)
  | .entryMode => .bus9 (bus9Word 0#1 P.iEntryMode)
  | .displayOn => .bus9 (bus9Word 0#1 P.iDisplayOn)
  | .setLine1 => .bus9 (bus9Word 0#1 Config.line1Addr)
  | .setLine2 => .bus9 (bus9Word 0#1 Config.line2Addr)
  | .char c => .bus9 (bus9Word 1#1 c)
  | .instr b => .bus9 (bus9Word 0#1 b)

/-- The bits of a table word as one number, bit 0 the least significant. -/
def TableWord.bits : TableWord → Nat
  | .host c => c.word.toNat
  | .bus5 w => w.toNat
  | .bus9 w => w.toNat

/-- `match` of the instruction's row (R54, R58, with the default instruction bytes). -/
def Instr.rowMatch : Instr → Nat
  | .init => 0x000
  | .wri _ => 0x100
  | .wrc _ => 0x200
  | .strobe => 0x300
  | .showline _ _ => 0x400
  | .clear => 0x500
  | .shutdown => 0x600
  | .hs3 => 0x03
  | .hs2 => 0x02
  | .functionSet => 0x028
  | .displayOff => 0x008
  | .clearDisplay => 0x001
  | .entryMode => 0x006
  | .displayOn => 0x00C
  | .setLine1 => 0x080
  | .setLine2 => 0x0C0
  | .char _ => 0x100
  | .instr _ => 0x000

/-- `mask` of the instruction's row (R54, R58). -/
def Instr.rowMask : Instr → Nat
  | .init => 0xFFF
  | .wri _ => 0xF00
  | .wrc _ => 0xF00
  | .strobe => 0xFFF
  | .showline _ _ => 0xFFE
  | .clear => 0xFFF
  | .shutdown => 0xFFF
  | .hs3 => 0x1F
  | .hs2 => 0x1F
  | .functionSet => 0x1FF
  | .displayOff => 0x1FF
  | .clearDisplay => 0x1FF
  | .entryMode => 0x1FF
  | .displayOn => 0x1FF
  | .setLine1 => 0x1FF
  | .setLine2 => 0x1FF
  | .char _ => 0x100
  | .instr _ => 0x100

/-- A word numbered as the opcode table numbers it, in its format. The table's widths are 12 (HOSTCMD), 9 (BUS9) and 5 (BUS5); rounded
to whole bytes a HOSTCMD and a BUS9 row both have 16 bits, and some words then belong to both formats. Such a word is read as the host
command, if it is one that is not reserved, else as a BUS9 word (DESIGN CHOICE, notes/assumptions/7.md). The text of `SHOWLINE` has no
bits in the table: it is empty here. -/
def tableWord (nbits w : Nat) : Option TableWord :=
  if nbits = 12 ∧ w < 4096 then some (.host ⟨BitVec.ofNat 12 w, []⟩)
  else if nbits = 9 ∧ w < 512 then some (.bus9 (BitVec.ofNat 9 w))
  else if (nbits = 5 ∨ nbits = 8) ∧ w < 32 then some (.bus5 (BitVec.ofNat 5 w))
  else if nbits = 16 ∧ w < 4096 then
    match decodeHost ⟨BitVec.ofNat 12 w, []⟩ with
    | .ok _ => some (.host ⟨BitVec.ofNat 12 w, []⟩)
    | .error _ =>
      if w < 512 then some (.bus9 (BitVec.ofNat 9 w)) else some (.host ⟨BitVec.ofNat 12 w, []⟩)
  else none

/-- The instruction the decoder reads from a word numbered as the opcode table numbers it. -/
def decodeTableWord (nbits w : Nat) : Option Instr :=
  match tableWord nbits w with
  | none => none
  | some t =>
    match decode Config.defaultParams t with
    | .ok i => some i
    | .error _ => none

end Sys2Proof
end

