-- ==== Sys2Proof/Machine/State.lean ====
section
/-! DEFINITION. Machine/State.lean: everything the spec gives the block (10_state.md R10 to R25), the pin events it acts with (R70), the
record of what it did (R7), and what the environment will do (R11): all plain data. -/

namespace Sys2Proof.Machine

/-- The six output pins, by role (R12); the numbers are the PinMap's (R5). -/
inductive Pin where
  | d0
  | d1
  | d2
  | d3
  | e
  | rs
  deriving DecidableEq, Repr

/-- `dir[p]` (R13). -/
inductive Dir where
  /-- the block holds no claim on the pin and does not drive it -/
  | unconfigured
  /-- configured as a digital output, with no bias -/
  | output
  deriving DecidableEq, Repr

/-- One cell for each of the six output pins. -/
structure PinFile (α : Type) where
  d0 : α
  d1 : α
  d2 : α
  d3 : α
  e : α
  rs : α
  deriving DecidableEq, Repr

/-- `phase`, the lifecycle phase (R16). -/
inductive Phase where
  | uninit
  | ready
  | down
  | faulted
  deriving DecidableEq, Repr

/-- `seq`, the sequencer position (R17): idle, or the operation in progress with its operands and the index of its next pin event. -/
inductive Seq where
  | idle
  | busy (op : Instr) (k : Nat)
  deriving DecidableEq, Repr

/-- `fault`, the record of the one synchronous exception (R18). -/
inductive FaultRecord where
  | none
  | ioFault (p : Pin)
  deriving DecidableEq, Repr

/-- The parameters a `Dly` event names (R72). -/
inductive Delay where
  | pwr
  | strobe
  | settle
  deriving DecidableEq, Repr

/-- A pin event (R70); `data n` is the one event of the four writes of `PRESENT(n)` (R74). -/
inductive Event where
  | cfg (p : Pin)
  | wr (p : Pin) (v : Level)
  | data (n : Nibble)
  | rel (p : Pin)
  | dly (d : Delay)
  deriving DecidableEq, Repr

/-- One entry of the trace: an event that was performed, and the pin whose call failed in it, if one did (R7, R131). -/
structure Entry where
  event : Event
  failed : Option Pin
  deriving DecidableEq, Repr

/-- Why the machine stops with a fault. The spec's one fault, `IoFault`, does not stop the machine: it is taken, as a next state in
phase FAULTED (R160). -/
inductive Fault where
  /-- Raised by the sequencer when `seq` names an event past the last one of its operation, where R17 gives no next event. No run from
  reset reaches such a state. Safe: the machine stops. -/
  | noSuchEvent
  deriving DecidableEq, Repr

/-- Situations the spec gives no meaning to: "the model must not step" (R7). Every one is safe: it errs toward unprovable. -/
inductive Refusal where
  /-- Raised by an arm of `exec` that has no meaning yet (none is left in this model). Safe. -/
  | notModelled (mnemonic : String)
  /-- Raised by the host port for a word that is no command (R60, R56). Safe. -/
  | undecodable (r : Reject)
  /-- Raised by `WRI`, `WRC`, `SHOWLINE` and `CLEAR` in phase UNINIT (R103, D15). Safe. -/
  | notInitialised
  /-- Raised by `INIT` in phase READY (R103, D15). Safe. -/
  | secondInit
  /-- Raised by every host command in phase DOWN (R127, R128, D15). Safe. -/
  | afterShutdown
  /-- Raised by every host command in phase FAULTED (R127, D15). Safe. -/
  | afterFault
  /-- Raised by `INIT` when two of the seven pin identifiers are equal (R5, D6). Safe. -/
  | pinMapNotDistinct
  /-- Raised by `STROBE` at the host port, in every phase (R129, D16). Safe. -/
  | bareStrobe
  /-- Raised by a bus word issued outside the sequencer: it is no host command, and a transfer outside a byte write misaligns the
  controller, which "a model must refuse" (R36, R54). Safe. -/
  | busWordAtPort
  /-- Raised by a command issued while another operation is in progress, which the one host cannot do (R17, R155). Safe. -/
  | portBusy
  /-- Raised by `Wr` to a pin whose direction is not OUTPUT (R71, D31). Safe. -/
  | writeUnconfiguredPin
  /-- Raised by `Cfg` of a pin that is already OUTPUT, against its precondition (R73). Safe. -/
  | configureClaimedPin
  /-- Raised by `Rel` of a pin that is not OUTPUT, against its precondition (R73). Safe. -/
  | releaseUnclaimedPin
  deriving DecidableEq, Repr

/-- The state. The first six fields are the whole state the spec gives the block (R10); `params` is its configuration, constant (R6);
the last five are the model's own: the trace, and what the environment will do. -/
structure State where
  /-- `dir[p]`, six cells (R13) -/
  dir : PinFile Dir
  /-- `out[p]`, six latches; `none` is the spec's "no value": the pin is not driven, or its last write failed (R12, R14, R71) -/
  out : PinFile (Option Level)
  /-- `phase` (R16) -/
  phase : Phase
  /-- `seq` (R17) -/
  seq : Seq
  /-- `fault` (R18) -/
  fault : FaultRecord
  /-- `irq_pending` (R19) -/
  irqPending : Bool
  /-- the parameters of R5; no operation writes them (R6) -/
  params : Params
  /-- the trace (R7), newest event first -/
  trace : List Entry
  /-- the commands the host has still to issue, in order (R56, R43) -/
  host : List HostCommand
  /-- the interrupt line: one sample for each step to come, `true` where the signal arrives; quiet when the list is used up (R165) -/
  irqLine : List Bool
  /-- the answers of the digital I/O abstraction to the calls to come (R11, R161) -/
  ioAnswers : List IoOutcome
  /-- how many answers were taken from the free value because `ioAnswers` was used up -/
  ioDraws : Nat
  deriving DecidableEq, Repr

/-- The block right after reset (R185): no pin claimed or driven, phase UNINIT, sequencer idle, no fault, no interrupt pending. The
parameters are those of `Config.defaultParams`; nothing has happened and the environment's lists are empty (notes/assumptions/8.md). -/
def State.reset : State where
  dir := ⟨.unconfigured, .unconfigured, .unconfigured, .unconfigured, .unconfigured, .unconfigured⟩
  out := ⟨none, none, none, none, none, none⟩
  phase := .uninit
  seq := .idle
  fault := .none
  irqPending := false
  params := Config.defaultParams
  trace := []
  host := []
  irqLine := []
  ioAnswers := []
  ioDraws := 0

end Sys2Proof.Machine
end

