-- ==== Sys2Proof/Machine/Operands.lean ====
section
/-! DEFINITION. Machine/Operands.lean: the operand forms and all the arithmetic of the block (43_render.md R110, R111, R120;
30_encoding.md R50, R51, R59). Everything is unsigned and nothing overflows. -/

namespace Sys2Proof.Machine

/-- `trunc8(v) = v mod 256`: "only the low 8 bits are meaningful" (R51, R88). -/
def trunc8 (v : Nat) : Byte := BitVec.ofNat 8 v

/-- `hi(b) = b[7:4]` (R7, R120). -/
def hiNibble (b : Byte) : Nibble := b.extractLsb' 4 4

/-- `lo(b) = b[3:0]` (R7, R120). -/
def loNibble (b : Byte) : Nibble := b.extractLsb' 0 4

/-- LOW = 0, HIGH = 1 (R7). -/
def levelOfBit (b : Bool) : Level := if b then .high else .low

/-- The bit of a level (R7). -/
def levelBit : Level → Bool
  | .low => false
  | .high => true

/-- The level nibble bit `i` puts on `PIN_D[i]` (R51, D6). -/
def nibbleLevel (n : Nibble) (i : Nat) : Level := levelOfBit (n.getLsbD i)

/-- An LcdCommand from a value of any width (R50, R51, R88). -/
def lcdCommand (mode : Level) (v : Nat) : LcdCommand := ⟨mode, trunc8 v⟩

/-- `base(line)` (R33, R111). -/
def lineBase : Line → Byte
  | .line1 => Config.line1Addr
  | .line2 => Config.line2Addr

/-- `fit16(text)`: exactly `LCD_COLS` bytes, the tail truncated or padded on the right with spaces (R110, D13). -/
def fit16 (text : Text) : Text :=
  if Config.lcdCols ≤ text.length then text.take Config.lcdCols
  else text ++ List.replicate (Config.lcdCols - text.length) Config.padChar

/-- The identifier of a pin in the PinMap (R5, R31). -/
def pinId (P : Params) : Pin → Int
  | .d0 => P.pinD0
  | .d1 => P.pinD1
  | .d2 => P.pinD2
  | .d3 => P.pinD3
  | .e => P.pinE
  | .rs => P.pinRs

/-- The order in which the six pins are configured and released (R96, R126, D10). -/
def pinOrder : List Pin := [.d0, .d1, .d2, .d3, .e, .rs]

/-- The lower bound of a delay in microseconds (R5, R72). -/
def delayMicros : Delay → Nat
  | .pwr => Config.tPwr
  | .strobe => Config.tStrobe
  | .settle => Config.tSettle

/-- The cycles a clocked realisation counts for a delay, at least: `ceil(T * F_CLK)` (R72, D25). No rule depends on it. -/
def delayCycles (P : Params) (d : Delay) : Nat := (delayMicros d * P.fClk + 999999) / 1000000

end Sys2Proof.Machine
end

