-- ==== Sys2Proof/Machine/Flags.lean ====
section
/-! DEFINITION. Machine/Flags.lean: the block has no condition codes (R20); its flag-like state is read through the optional status word
of R21, and the lifecycle phase decides which commands are admitted (R16). -/

namespace Sys2Proof.Machine

/-- The `phase` field of the status word (R21). -/
def phaseCode : Phase → BitVec 2
  | .uninit => 0#2
  | .ready => 1#2
  | .down => 2#2
  | .faulted => 3#2

/-- The code of a fault record (R18, R164). -/
def faultCode : FaultRecord → BitVec 1
  | .none => 0#1
  | .ioFault _ => 1#1

/-- `busy`: 1 when an operation is in progress (R21). -/
def busyBit : Seq → BitVec 1
  | .idle => 0#1
  | .busy _ _ => 1#1

/-- The read-only status word: bit 3 `fault`, bits 2:1 `phase`, bit 0 `busy` (R21). No rule of the spec depends on it. -/
def statusWord (s : State) : BitVec 4 := faultCode s.fault ++ phaseCode s.phase ++ busyBit s.seq

/-- Admission of the commands that need an initialised block: `WRI`, `WRC`, `SHOWLINE`, `CLEAR` in READY only (R16, D15). `none` admits. -/
def admitInReady : Phase → Option Refusal
  | .uninit => some .notInitialised
  | .ready => none
  | .down => some .afterShutdown
  | .faulted => some .afterFault

/-- Admission of `INIT`: in UNINIT only (R16, R103), with a PinMap of distinct identifiers (R5). -/
def admitInit (P : Params) : Phase → Option Refusal
  | .uninit => if P.pinsDistinct then none else some .pinMapNotDistinct
  | .ready => some .secondInit
  | .down => some .afterShutdown
  | .faulted => some .afterFault

/-- Admission of `SHUTDOWN`: in UNINIT and READY (R16, R127). -/
def admitShutdown : Phase → Option Refusal
  | .uninit => none
  | .ready => none
  | .down => some .afterShutdown
  | .faulted => some .afterFault

/-- Whether a pending interrupt finds a phase in which `SHUTDOWN` is not refused (R167, R168). -/
def servesIrq (ph : Phase) : Bool := (admitShutdown ph).isNone

end Sys2Proof.Machine
end

