-- ==== Sys2Proof/Machine/Ops.lean ====
section
/-! DEFINITION. Machine/Ops.lean: the named operations on the pins (40_primitives.md R70 to R74, R81), the draw of the digital I/O
abstraction's answer (60_exceptions.md R161), the trace, and taking the one exception (R160). There is no return from it (R170). -/

namespace Sys2Proof.Machine

/-- The cell of a pin. -/
def PinFile.get {α : Type} (f : PinFile α) : Pin → α
  | .d0 => f.d0
  | .d1 => f.d1
  | .d2 => f.d2
  | .d3 => f.d3
  | .e => f.e
  | .rs => f.rs

/-- The file with one cell written. -/
def PinFile.set {α : Type} (f : PinFile α) (p : Pin) (v : α) : PinFile α :=
  match p with
  | .d0 => { f with d0 := v }
  | .d1 => { f with d1 := v }
  | .d2 => { f with d2 := v }
  | .d3 => { f with d3 := v }
  | .e => { f with e := v }
  | .rs => { f with rs := v }

/-- The same value in every cell. -/
def PinFile.all {α : Type} (v : α) : PinFile α := ⟨v, v, v, v, v, v⟩

/-- `out[p] <- v` (R7). -/
def State.setOut (s : State) (p : Pin) (v : Option Level) : State := { s with out := s.out.set p v }

/-- `dir[p] <- d` (R7). -/
def State.setDir (s : State) (p : Pin) (d : Dir) : State := { s with dir := s.dir.set p d }

/-- `phase <- ph` (R7). -/
def State.setPhase (s : State) (ph : Phase) : State := { s with phase := ph }

/-- `seq <- q` (R7). -/
def State.setSeq (s : State) (q : Seq) : State := { s with seq := q }

/-- Performing an event appends it to the trace (R70). -/
def State.record (s : State) (e : Event) (failed : Option Pin) : State := { s with trace := ⟨e, failed⟩ :: s.trace }

/-- `io_outcome()`: ok when `IO_CAN_FAIL` does not hold; else the environment's next answer, a free value once its list is used up
(R71, R81, R161). -/
def State.drawIo (s : State) : IoOutcome × State :=
  if s.params.ioCanFail then
    match s.ioAnswers with
    | a :: rest => (a, { s with ioAnswers := rest })
    | [] => (Config.freeIoOutcome s.ioDraws, { s with ioDraws := s.ioDraws + 1 })
  else (.ok, s)

/-- What performing one pin event comes to. -/
inductive Performed where
  /-- it succeeded -/
  | done (s : State)
  /-- the call for pin `p` failed -/
  | failed (p : Pin) (s : State)
  /-- the spec gives it no meaning -/
  | refused (r : Refusal)

/-- `Wr(p, v)` (R71): a failing write leaves the latch without a value. -/
def writePin (p : Pin) (v : Level) (s : State) : Performed :=
  if s.dir.get p = .output then
    match s.drawIo with
    | (.ok, s1) => .done (s1.setOut p (some v))
    | (.fail, s1) => .failed p (s1.setOut p none)
  else .refused .writeUnconfiguredPin

/-- `A ; B`: B is performed only if A succeeded (R7, R81). -/
def Performed.andThen (r : Performed) (f : State → Performed) : Performed :=
  match r with
  | .done s => f s
  | .failed p s => .failed p s
  | .refused r => .refused r

/-- `PRESENT(n)`: the four writes in index order, each with an outcome of its own; the lines after a failing one are not written (R74, D7). -/
def present (n : Nibble) (s : State) : Performed :=
  (((writePin .d0 (nibbleLevel n 0) s).andThen (writePin .d1 (nibbleLevel n 1))).andThen
    (writePin .d2 (nibbleLevel n 2))).andThen (writePin .d3 (nibbleLevel n 3))

/-- `Cfg(p)` (R73): on success the pin is an output at LOW (R14, D9). -/
def configurePin (p : Pin) (s : State) : Performed :=
  if s.dir.get p = .unconfigured then
    match s.drawIo with
    | (.ok, s1) => .done ((s1.setDir p .output).setOut p (some .low))
    | (.fail, s1) => .failed p s1
  else .refused .configureClaimedPin

/-- `Rel(p)` (R73): on success the pin is no longer driven; a failing release changes nothing (R126). -/
def releasePin (p : Pin) (s : State) : Performed :=
  if s.dir.get p = .output then
    match s.drawIo with
    | (.ok, s1) => .done ((s1.setDir p .unconfigured).setOut p none)
    | (.fail, s1) => .failed p s1
  else .refused .releaseUnclaimedPin

/-- One pin event (R70). A delay changes no state and cannot fail (R72). -/
def performEvent (e : Event) (s : State) : Performed :=
  match e with
  | .cfg p => configurePin p s
  | .wr p v => writePin p v s
  | .data n => present n s
  | .rel p => releasePin p s
  | .dly _ => .done s

/-- TAKING THE EXCEPTION: `raise IoFault(p)` (R160). The pin is recorded, the phase is FAULTED, the rest of the operation is not
performed; no pin is written, released or cleared. -/
def raiseIoFault (p : Pin) (s : State) : State :=
  { s with fault := .ioFault p, phase := .faulted, seq := .idle }

end Sys2Proof.Machine
end

