-- ==== Sys2Proof/Machine/Sequences.lean ====
section
/-! DEFINITION. Machine/Sequences.lean: the event sequence of every operation, "performed strictly in the order written" (R7): the
primitives of 40_primitives.md, the byte writes of 41, `INIT` of 42, rendering of 43, the cleanup of 44, built from one another as R64 says. -/

namespace Sys2Proof.Machine

/-- `STROBE`, five events: "delay, drive enable high, delay, drive enable low, delay" (R75). -/
def strobeEvents : List Event := [.dly .strobe, .wr .e .high, .dly .strobe, .wr .e .low, .dly .strobe]

/-- `NIB(n)`, six events: `PRESENT(n)` and exactly one strobe (R76). -/
def nibEvents (n : Nibble) : List Event := .data n :: strobeEvents

/-- `SEND(mode, b)`, 13 events: register-select first, then the high nibble, then the low nibble (R85, R91). -/
def sendEvents (c : LcdCommand) : List Event :=
  .wr .rs c.mode :: (nibEvents (hiNibble c.value) ++ nibEvents (loNibble c.value))

/-- `WRI b` = `SEND(0, b)` (R86). -/
def wriEvents (b : Byte) : List Event := sendEvents ⟨.low, b⟩

/-- `WRC b` = `SEND(1, b)` (R87). -/
def wrcEvents (b : Byte) : List Event := sendEvents ⟨.high, b⟩

/-- `HS3`: the handshake nibble 0x3 (R98). -/
def hs3Events : List Event := nibEvents Config.hsNibble8Bit

/-- `HS2`: the handshake nibble 0x2 (R98). -/
def hs2Events : List Event := nibEvents Config.hsNibble4Bit

/-- `FUNCTION_SET` (R100). -/
def functionSetEvents (P : Params) : List Event := wriEvents P.iFunctionSet

/-- `DISPLAY_OFF` (R100). -/
def displayOffEvents (P : Params) : List Event := wriEvents P.iDisplayOff

/-- `CLEAR_DISPLAY` with the settle delay that always follows it when the block originates it (R100, R117). -/
def clearDisplayEvents (P : Params) : List Event := wriEvents P.iClear ++ [.dly .settle]

/-- `ENTRY_MODE` (R100). -/
def entryModeEvents (P : Params) : List Event := wriEvents P.iEntryMode

/-- `DISPLAY_ON` (R100). -/
def displayOnEvents (P : Params) : List Event := wriEvents P.iDisplayOn

/-- The line address, sent as an instruction (R33, R112). -/
def setLineEvents (line : Line) : List Event := wriEvents (lineBase line)

/-- `CLEAR`, 14 events (R117). -/
def clearEvents (P : Params) : List Event := clearDisplayEvents P

/-- `SHOWLINE`, 221 events: the line's base, then exactly 16 characters in ascending index (R112, R121). -/
def showlineEvents (line : Line) (text : Text) : List Event :=
  setLineEvents line ++ (fit16 text).flatMap wrcEvents

/-- Step 1 of `INIT`: the six pins (R96). -/
def configureEvents : List Event := pinOrder.map .cfg

/-- Step 3 of `INIT`: the reset handshake, with `RS` written LOW once (R98, D8). The gaps are the strobe delays (R99, D11). -/
def handshakeEvents : List Event :=
  .wr .rs .low :: ((List.replicate Config.hsRepeat hs3Events).flatten ++ hs2Events)

/-- Step 4 of `INIT`: five instruction writes and one settle delay (R100). -/
def configurationEvents (P : Params) : List Event :=
  functionSetEvents P ++ (displayOffEvents P ++ (clearDisplayEvents P ++ (entryModeEvents P ++ displayOnEvents P)))

/-- `INIT`, 98 events (R95, R106). -/
def initEvents (P : Params) : List Event :=
  configureEvents ++ (.dly .pwr :: (handshakeEvents ++ configurationEvents P))

/-- The six releases (R126). -/
def releaseEvents : List Event := pinOrder.map .rel

/-- The clear of the cleanup is attempted in READY only (R126, R127). -/
def cleanupClearEvents (P : Params) : Phase → List Event
  | .ready => clearEvents P
  | .uninit => []
  | .down => []
  | .faulted => []

/-- `SHUTDOWN` (R126): the clear, then the releases. Releases of pins that are not claimed are left out when their turn comes. -/
def shutdownEvents (P : Params) (ph : Phase) : List Event := cleanupClearEvents P ph ++ releaseEvents

/-- The event sequence of an operation, which `seq` indexes (R17). -/
def eventsOf (P : Params) (ph : Phase) : Instr → List Event
  | .init => initEvents P
  | .wri b => wriEvents b
  | .wrc b => wrcEvents b
  | .strobe => strobeEvents
  | .showline line text => showlineEvents line text
  | .clear => clearEvents P
  | .shutdown => shutdownEvents P ph
  | .hs3 => hs3Events
  | .hs2 => hs2Events
  | .functionSet => functionSetEvents P
  | .displayOff => displayOffEvents P
  | .clearDisplay => clearDisplayEvents P
  | .entryMode => entryModeEvents P
  | .displayOn => displayOnEvents P
  | .setLine1 => setLineEvents .line1
  | .setLine2 => setLineEvents .line2
  | .char c => wrcEvents c
  | .instr b => wriEvents b

end Sys2Proof.Machine
end

