-- ==== Sys2Proof/Machine/Sequencer.lean ====
section
/-! DEFINITION. Machine/Sequencer.lean: one step of the sequencer (10_state.md R17): "performing one pin event advances k by one;
performing the last event sets seq <- IDLE". -/

namespace Sys2Proof.Machine

/-- The outcome of one step of this machine. -/
abbrev Result := Host.Outcome State Fault Refusal

/-- After event `k` of an operation of `n` events: the next position, or idle with the phase the operation ends in (R17, R102). -/
def State.advance (s : State) (op : Instr) (n k : Nat) (ends : Phase → Phase) : State :=
  if k + 1 < n then s.setSeq (.busy op (k + 1)) else (s.setSeq .idle).setPhase (ends s.phase)

/-- Event `k` of operation `op`, whose events are `es`: a failing call raises `IoFault` and drops the rest (R17, R81, R160). -/
def performAt (op : Instr) (es : List Event) (ends : Phase → Phase) (k : Nat) (s : State) : Result :=
  match es[k]? with
  | none => .fault .noSuchEvent
  | some e =>
    match performEvent e s with
    | .done s1 => .next ((s1.record e none).advance op es.length k ends)
    | .failed p s1 => .next (raiseIoFault p (s1.record e (some p)))
    | .refused r => .refused r

/-- An operation: admitted when the sequencer is idle, continued where it stands when it is the one in progress; a command is accepted
only when `seq = IDLE` (R17, R56). Accepting a command performs its first event. -/
def runOperation (op : Instr) (stop : Option Refusal) (es : List Event) (ends : Phase → Phase) (s : State) : Result :=
  match s.seq with
  | .idle =>
    match stop with
    | none => performAt op es ends 0 s
    | some r => .refused r
  | .busy cur k => if cur = op then performAt op es ends k s else .refused .portBusy

/-- How many of the next events are releases of pins the block does not claim: "only pins with dir[p] = OUTPUT are released" (R126). -/
def unclaimedReleases (dir : PinFile Dir) : List Event → Nat
  | .rel p :: es => if dir.get p = .output then 0 else unclaimedReleases dir es + 1
  | .cfg _ :: _ => 0
  | .wr _ _ :: _ => 0
  | .data _ :: _ => 0
  | .dly _ :: _ => 0
  | [] => 0

/-- The cleanup at position `k`: on to the next event that is to be performed, or to the end, where the phase is DOWN (R126). -/
def State.cleanupTo (s : State) (es : List Event) (k : Nat) : State :=
  let k' := k + unclaimedReleases s.dir (es.drop k)
  if k' < es.length then s.setSeq (.busy .shutdown k') else (s.setSeq .idle).setPhase .down

/-- Where the cleanup goes on after a failure at `k`: a failure in the clear abandons the rest of the clear, a failing release is skipped
(R126). `n` is the number of events of the clear. -/
def cleanupResume (n k : Nat) : Nat := if k < n then n else k + 1

/-- The cleanup at position `k`: failures are swallowed (R126, R170). -/
def cleanupAt (k : Nat) (s : State) : Result :=
  let es := shutdownEvents s.params s.phase
  let k' := k + unclaimedReleases s.dir (es.drop k)
  match es[k']? with
  | none => .next (s.cleanupTo es k')
  | some e =>
    match performEvent e s with
    | .done s1 => .next ((s1.record e none).cleanupTo es (k' + 1))
    | .failed p s1 =>
      .next ((s1.record e (some p)).cleanupTo es (cleanupResume (cleanupClearEvents s.params s.phase).length k'))
    | .refused r => .refused r

/-- `SHUTDOWN`, whether the host or the interrupt starts it (R126, R127, R130). -/
def runCleanup (s : State) : Result :=
  match s.seq with
  | .idle =>
    match admitShutdown s.phase with
    | none => cleanupAt 0 s
    | some r => .refused r
  | .busy cur k => if cur = .shutdown then cleanupAt k s else .refused .portBusy

/-- An operation that leaves the phase as it is. -/
def samePhase (ph : Phase) : Phase := ph

/-- `INIT` ends in READY (R102). -/
def becomesReady (_ : Phase) : Phase := .ready

end Sys2Proof.Machine
end

