-- ==== Sys2Proof/Machine/BusWords.lean ====
section
/-! DEFINITION. Machine/BusWords.lean: the words of formats BUS5 and BUS9 (30_encoding.md R52 to R54). Each is the event sequence by which
the block puts that word on the bus; it runs as the sequencer's operation and is no command of the host (notes/assumptions/9.md). -/

namespace Sys2Proof.Machine

/-- `HS3`: `NIB(0x3)`, with `RS` as the handshake left it (R98). -/
def execHs3 (s : State) : Result := runOperation .hs3 (some .busWordAtPort) hs3Events samePhase s

/-- `HS2`: `NIB(0x2)`, with `RS` as the handshake left it (R98). -/
def execHs2 (s : State) : Result := runOperation .hs2 (some .busWordAtPort) hs2Events samePhase s

/-- `FUNCTION_SET`: `WRI I_FUNCTION_SET` (R100). -/
def execFunctionSet (s : State) : Result :=
  runOperation .functionSet (some .busWordAtPort) (functionSetEvents s.params) samePhase s

/-- `DISPLAY_OFF`: `WRI I_DISPLAY_OFF` (R100). -/
def execDisplayOff (s : State) : Result :=
  runOperation .displayOff (some .busWordAtPort) (displayOffEvents s.params) samePhase s

/-- `CLEAR_DISPLAY`: `WRI I_CLEAR`, then the settle delay (R100, R117). -/
def execClearDisplay (s : State) : Result :=
  runOperation .clearDisplay (some .busWordAtPort) (clearDisplayEvents s.params) samePhase s

/-- `ENTRY_MODE`: `WRI I_ENTRY_MODE` (R100). -/
def execEntryMode (s : State) : Result :=
  runOperation .entryMode (some .busWordAtPort) (entryModeEvents s.params) samePhase s

/-- `DISPLAY_ON`: `WRI I_DISPLAY_ON` (R100). -/
def execDisplayOn (s : State) : Result :=
  runOperation .displayOn (some .busWordAtPort) (displayOnEvents s.params) samePhase s

/-- `SET_LINE_1`: `WRI 0x80` (R33). -/
def execSetLine1 (s : State) : Result := runOperation .setLine1 (some .busWordAtPort) (setLineEvents .line1) samePhase s

/-- `SET_LINE_2`: `WRI 0xC0` (R33). -/
def execSetLine2 (s : State) : Result := runOperation .setLine2 (some .busWordAtPort) (setLineEvents .line2) samePhase s

/-- `CHAR c`: `SEND(1, c)` (R87). -/
def execChar (c : Byte) (s : State) : Result := runOperation (.char c) (some .busWordAtPort) (wrcEvents c) samePhase s

/-- `INSTR b`: `SEND(0, b)` (R86). -/
def execInstr (b : Byte) (s : State) : Result := runOperation (.instr b) (some .busWordAtPort) (wriEvents b) samePhase s

end Sys2Proof.Machine
end

