-- ==== Sys2Proof/Machine/ByteWrites.lean ====
section
/-! DEFINITION. Machine/ByteWrites.lean: `WRI` and `WRC` (41_byte_writes.md). -/

namespace Sys2Proof.Machine

/-- `WRI b`: `SEND(0, b)`, admitted in READY only. The block does not interpret the byte, and adds no settle delay (R86, R198). -/
def execWri (b : Byte) (s : State) : Result :=
  runOperation (.wri b) (admitInReady s.phase) (wriEvents b) samePhase s

/-- `WRC b`: `SEND(1, b)`, admitted in READY only (R87). -/
def execWrc (b : Byte) (s : State) : Result :=
  runOperation (.wrc b) (admitInReady s.phase) (wrcEvents b) samePhase s

end Sys2Proof.Machine
end

