-- ==== Sys2Proof/Machine/Init.lean ====
section
/-! DEFINITION. Machine/Init.lean: `INIT` (42_initialize.md). -/

namespace Sys2Proof.Machine

/-- `INIT`: admitted in UNINIT only; after its last event the phase is READY (R95, R102, R103). -/
def execInit (s : State) : Result :=
  runOperation .init (admitInit s.params s.phase) (initEvents s.params) becomesReady s

end Sys2Proof.Machine
end

