-- ==== Sys2Proof/Machine/Render.lean ====
section
/-! DEFINITION. Machine/Render.lean: `SHOWLINE` and `CLEAR` (43_render.md). -/

namespace Sys2Proof.Machine

/-- `SHOWLINE line, text`: the line's base as an instruction, then exactly 16 characters (R112). -/
def execShowline (line : Line) (text : Text) (s : State) : Result :=
  runOperation (.showline line text) (admitInReady s.phase) (showlineEvents line text) samePhase s

/-- `CLEAR`: the clear-display instruction and the settle delay (R117). -/
def execClear (s : State) : Result :=
  runOperation .clear (admitInReady s.phase) (clearEvents s.params) samePhase s

end Sys2Proof.Machine
end

