-- ==== Sys2Proof/Machine/System.lean ====
section
/-! DEFINITION. Machine/System.lean: `SHUTDOWN` and `STROBE` (44_system.md, 40_primitives.md R75). -/

namespace Sys2Proof.Machine

/-- `SHUTDOWN`: the best-effort clear, then the releases; ends in DOWN (R126, R127). -/
def execShutdown (s : State) : Result := runCleanup s

/-- `STROBE`: at the host port it is refused in every phase (R129, D16). As an operation of its own in the sequencer, which no run from the
host port reaches, it is the five events of R75: the model's choice (DESIGN CHOICE, notes/assumptions/31.md). -/
def execStrobe (s : State) : Result :=
  runOperation .strobe (some .bareStrobe) strobeEvents samePhase s

end Sys2Proof.Machine
end

