-- ==== Sys2Proof/Machine/Dispatch.lean ====
section
/-! DEFINITION. Machine/Dispatch.lean: one arm for each row of spec/opcode_table.json. -/

namespace Sys2Proof.Machine

open Host

def exec (i : Instr) (s : State) : Host.Outcome State Fault Refusal :=
  match i with
  -- the host commands (R58)
  | .init => Sys2Proof.Machine.execInit s
  | .wri b => Sys2Proof.Machine.execWri b s
  | .wrc b => Sys2Proof.Machine.execWrc b s
  | .strobe => Sys2Proof.Machine.execStrobe s
  | .showline line text => Sys2Proof.Machine.execShowline line text s
  | .clear => Sys2Proof.Machine.execClear s
  | .shutdown => Sys2Proof.Machine.execShutdown s
  -- the words on the bus (R54)
  | .hs3 => Sys2Proof.Machine.execHs3 s
  | .hs2 => Sys2Proof.Machine.execHs2 s
  | .functionSet => Sys2Proof.Machine.execFunctionSet s
  | .displayOff => Sys2Proof.Machine.execDisplayOff s
  | .clearDisplay => Sys2Proof.Machine.execClearDisplay s
  | .entryMode => Sys2Proof.Machine.execEntryMode s
  | .displayOn => Sys2Proof.Machine.execDisplayOn s
  | .setLine1 => Sys2Proof.Machine.execSetLine1 s
  | .setLine2 => Sys2Proof.Machine.execSetLine2 s
  | .char c => Sys2Proof.Machine.execChar c s
  | .instr b => Sys2Proof.Machine.execInstr b s

end Sys2Proof.Machine
end

