-- ==== Sys2Proof/Machine/Port.lean ====
section
/-! DEFINITION. Machine/Port.lean: what the block does next: the interrupt (60_exceptions.md R165 to R168), the command port
(30_encoding.md R56), and how a word of the opcode table is placed where the next step takes it. -/

namespace Sys2Proof.Machine

/-- The interrupt signal sets `irq_pending` at whatever moment it arrives, in any phase; nothing clears it (R19, R165). -/
def State.sampleIrq (s : State) : State :=
  match s.irqLine with
  | [] => s
  | b :: rest => { s with irqLine := rest, irqPending := s.irqPending || b }

/-- Whether the pending interrupt is taken now: at a command boundary (R167), or, with `IRQ_GRANULARITY = event`, between any two pin
events of an operation other than the cleanup itself (R170, D17, D18); only in a phase that admits `SHUTDOWN` (R168). -/
def takesIrq (s : State) : Bool :=
  s.irqPending && servesIrq s.phase &&
    match s.seq with
    | .idle => true
    | .busy op _ => decide (s.params.irqGranularity = .event) && decide (op ≠ .shutdown)

/-- What the next step is. -/
inductive Action where
  /-- nothing to do: "the block waits, idle" (R187) -/
  | wait (s : State)
  /-- one event of an operation -/
  | run (i : Instr) (s : State)
  /-- the word at the port is no command -/
  | refuse (r : Refusal)

/-- With the sequencer idle and no interrupt to serve: the host's next command (R56, R60). -/
def nextCommand (s : State) : Action :=
  match s.host with
  | [] => .wait s
  | c :: rest =>
    match decodeHost c with
    | .ok i => .run i { s with host := rest }
    | .error r => .refuse (.undecodable r)

/-- The interrupt, else the operation in progress, else the host's next command (R17, R167). -/
def nextAction (s0 : State) : Action :=
  let s := s0.sampleIrq
  if takesIrq s then .run .shutdown (s.setSeq .idle)
  else
    match s.seq with
    | .busy op _ => .run op s
    | .idle => nextCommand s

/-- The pins and the phase as `INIT` leaves them (R102), the launch premise `Ready` (R189). -/
def State.asInitialised (s : State) (ph : Phase) : State :=
  { s with
    dir := PinFile.all .output
    out :=
      { d0 := some (nibbleLevel (loNibble s.params.iDisplayOn) 0)
        d1 := some (nibbleLevel (loNibble s.params.iDisplayOn) 1)
        d2 := some (nibbleLevel (loNibble s.params.iDisplayOn) 2)
        d3 := some (nibbleLevel (loNibble s.params.iDisplayOn) 3)
        e := some .low
        rs := some .low }
    phase := ph
    fault := .none }

/-- The pins and the phase as reset leaves them (R185). -/
def State.asUninitialised (s : State) : State :=
  { s with dir := PinFile.all .unconfigured, out := PinFile.all none, phase := .uninit, fault := .none }

/-- Whether `s` already meets the launch premise `Ready` of R189, apart from `seq`. -/
def State.pinsReady (s : State) : Bool :=
  decide (s.dir = PinFile.all .output) && decide (s.out.e = some .low)

/-- The state in which the block takes `i` next: as it is where it admits `i`, else with the pins and the phase that `i` needs
(R16, R103; notes/assumptions/10.md). -/
def State.preparedFor (i : Instr) (s : State) : State :=
  match i with
  | .init => if s.phase = .uninit ∧ s.dir = PinFile.all .unconfigured then s else s.asUninitialised
  | .shutdown => if servesIrq s.phase then s else s.asInitialised .ready
  | .wri _ | .wrc _ | .showline _ _ | .clear | .strobe | .clearDisplay | .setLine1 | .setLine2 | .char _ | .instr _ =>
    if s.phase = .ready ∧ s.pinsReady then s else s.asInitialised .ready
  | .hs3 | .hs2 | .functionSet | .displayOff | .entryMode | .displayOn =>
    if s.phase = .uninit ∧ s.pinsReady then s else s.asInitialised .uninit

/-- No interrupt before the next step, and no operation in progress. -/
def State.atBoundary (s : State) : State := { s with seq := .idle, irqPending := false, irqLine := [] }

/-- A word of the opcode table, placed where the next step takes it: a host command at the head of the port, a bus word at the first
event of its transmission in the sequencer. -/
def State.placeWord (s : State) (t : TableWord) : State :=
  match t with
  | .host c =>
    match decodeHost c with
    | .ok i => { s.atBoundary.preparedFor i with host := c :: s.host }
    | .error _ => { s.atBoundary with host := c :: s.host }
  | .bus5 w =>
    match decodeBus5 w with
    | .ok i => (s.atBoundary.preparedFor i).setSeq (.busy i 0)
    | .error _ => s
  | .bus9 w =>
    (s.atBoundary.preparedFor (decodeBus9 s.params w)).setSeq (.busy (decodeBus9 s.params w) 0)

end Sys2Proof.Machine
end

