-- ==== Sys2Proof/Machine/Step.lean ====
section
/-! DEFINITION. Machine/Step.lean: one step of the block: one pin event, or a wait (10_state.md R17, 92_eei_decisions.md D1). -/

namespace Sys2Proof.Machine

/-- One step: the instruction that is next, run by `exec`, which performs one pin event of it (R17). -/
def step (s : State) : Host.Outcome State Fault Refusal :=
  match nextAction s with
  | .wait s1 => .next s1
  | .run i s1 => exec i s1
  | .refuse r => .refused r

/-- `s` with a word of the opcode table placed where the next step takes it (notes/assumptions/10.md). A number that is no word of the
table changes nothing. -/
def State.withFetchWord (s : State) (nbits w : Nat) : State :=
  match tableWord nbits w with
  | none => s
  | some t => s.placeWord t

end Sys2Proof.Machine
end

