-- ==== Sys2Proof/Machine/HostContext.lean ====
section
/-! DEFINITION. Machine/HostContext.lean: CONTEXT, NOT PART OF THE BLOCK (R135): the display state machine of 49_host_context.md that issues the block's
commands (R141 to R152). It reads no state of the block and the block holds none of its state (R143). -/

namespace Sys2Proof.Machine

/-- DisplayState (R142). -/
inductive DisplayState where
  | waiting
  | showingIp
  | showingMac
  deriving DecidableEq, Repr

/-- The host's own memory: what is shown, and the last IP address that was rendered (R142, R143). -/
structure HostState where
  shown : DisplayState
  lastIp : Text
  deriving DecidableEq, Repr

/-- One sample: the button and the AddressSnapshot (R141, R146). -/
structure Sample where
  pressed : Bool
  ip : Option Text
  mac : Option Text
  deriving DecidableEq, Repr

/-- The host's initial state (R143). -/
def HostState.start : HostState := ⟨.waiting, []⟩

/-- "My MAC Address" (R148). -/
def macTitle : Text :=
  [0x4D#8, 0x79#8, 0x20#8, 0x4D#8, 0x41#8, 0x43#8, 0x20#8, 0x41#8, 0x64#8, 0x64#8, 0x72#8, 0x65#8, 0x73#8, 0x73#8]

/-- "N/A" (R148). -/
def notAvailable : Text := [0x4E#8, 0x2F#8, 0x41#8]

/-- "My IP Address:" (R148). -/
def ipTitle : Text :=
  [0x4D#8, 0x79#8, 0x20#8, 0x49#8, 0x50#8, 0x20#8, 0x41#8, 0x64#8, 0x64#8, 0x72#8, 0x65#8, 0x73#8, 0x73#8, 0x3A#8]

/-- "Waiting for IP" (R148). -/
def waitingTitle : Text :=
  [0x57#8, 0x61#8, 0x69#8, 0x74#8, 0x69#8, 0x6E#8, 0x67#8, 0x20#8, 0x66#8, 0x6F#8, 0x72#8, 0x20#8, 0x49#8, 0x50#8]

/-- "Assignment..." (R148). -/
def waitingDetail : Text :=
  [0x41#8, 0x73#8, 0x73#8, 0x69#8, 0x67#8, 0x6E#8, 0x6D#8, 0x65#8, 0x6E#8, 0x74#8, 0x2E#8, 0x2E#8, 0x2E#8]

/-- "render a / b": `SHOWLINE 1, a`, then `SHOWLINE 2, b` (R147). -/
def renderPair (a b : Text) : List Instr := [.showline .line1 a, .showline .line2 b]

/-- Start-up: `INIT`, then the waiting screen (R144). -/
def hostStartup : List Instr := .init :: renderPair waitingTitle waitingDetail

/-- One poll tick (R146): the host's next state and the commands it issues. -/
def hostTick (h : HostState) (x : Sample) : HostState × List Instr :=
  if x.pressed then
    if h.shown = .showingMac then (h, [])
    else (⟨.showingMac, h.lastIp⟩, renderPair macTitle (x.mac.getD notAvailable))
  else
    match x.ip with
    | some ip =>
      if h.shown = .showingIp ∧ ip = h.lastIp then (h, [])
      else (⟨.showingIp, ip⟩, renderPair ipTitle ip)
    | none =>
      if h.shown = .waiting then (h, [])
      else (⟨.waiting, h.lastIp⟩, renderPair waitingTitle waitingDetail)

/-- The host after a sequence of samples. -/
def hostAfter (h : HostState) (xs : List Sample) : HostState := xs.foldl (fun h x => (hostTick h x).1) h

end Sys2Proof.Machine
end

