-- ==== Sys2Proof/Machine/Effects.lean ====
section
/-! DEFINITION. Machine/Effects.lean: the table of R70 as functions on the pins alone: what each pin event needs, what it does when it
succeeds and what it leaves when one of its calls fails (40_primitives.md R70 to R74). Statements about whole operations are written with these. -/

namespace Sys2Proof.Machine

/-- The pins an event's calls name (R70). -/
def Event.pins : Event → List Pin
  | .cfg p => [p]
  | .wr p _ => [p]
  | .data _ => [.d0, .d1, .d2, .d3]
  | .rel p => [p]
  | .dly _ => []

/-- The precondition of an event (R71, R73). -/
def Event.allowed (d : PinFile Dir) : Event → Bool
  | .cfg p => decide (d.get p = .unconfigured)
  | .wr p _ => decide (d.get p = .output)
  | .data _ =>
    decide (d.get .d0 = .output) && decide (d.get .d1 = .output) && decide (d.get .d2 = .output) && decide (d.get .d3 = .output)
  | .rel p => decide (d.get p = .output)
  | .dly _ => true

/-- The directions after an event that succeeded (R70). -/
def Event.dirAfter (d : PinFile Dir) : Event → PinFile Dir
  | .cfg p => d.set p .output
  | .wr _ _ => d
  | .data _ => d
  | .rel p => d.set p .unconfigured
  | .dly _ => d

/-- The latches after a whole `PRESENT(n)` (R74). -/
def presentOut (n : Nibble) (o : PinFile (Option Level)) : PinFile (Option Level) :=
  (((o.set .d0 (some (nibbleLevel n 0))).set .d1 (some (nibbleLevel n 1))).set .d2 (some (nibbleLevel n 2))).set .d3
    (some (nibbleLevel n 3))

/-- The latches after a `PRESENT(n)` that failed at one of the four lines: the lines before it are written, it has no value, the lines
after it keep theirs (R74). -/
def presentFailedOut (n : Nibble) (p : Pin) (o : PinFile (Option Level)) : PinFile (Option Level) :=
  match p with
  | .d0 => o.set .d0 none
  | .d1 => (o.set .d0 (some (nibbleLevel n 0))).set .d1 none
  | .d2 => ((o.set .d0 (some (nibbleLevel n 0))).set .d1 (some (nibbleLevel n 1))).set .d2 none
  | .d3 =>
    (((o.set .d0 (some (nibbleLevel n 0))).set .d1 (some (nibbleLevel n 1))).set .d2 (some (nibbleLevel n 2))).set .d3 none
  | .e => o
  | .rs => o

/-- The latches after an event that succeeded (R70). -/
def Event.outAfter (o : PinFile (Option Level)) : Event → PinFile (Option Level)
  | .cfg p => o.set p (some .low)
  | .wr p v => o.set p (some v)
  | .data n => presentOut n o
  | .rel p => o.set p none
  | .dly _ => o

/-- The latches after an event in which the call for pin `p` failed (R71, R73, R74). -/
def Event.outFailed (p : Pin) (o : PinFile (Option Level)) : Event → PinFile (Option Level)
  | .cfg _ => o
  | .wr q _ => o.set q none
  | .data n => presentFailedOut n p o
  | .rel _ => o
  | .dly _ => o

/-- The directions after a sequence of events that succeeded. -/
def dirAfterAll (es : List Event) (d : PinFile Dir) : PinFile Dir := es.foldl (fun d e => e.dirAfter d) d

/-- The latches after a sequence of events that succeeded. -/
def outAfterAll (es : List Event) (o : PinFile (Option Level)) : PinFile (Option Level) := es.foldl (fun o e => e.outAfter o) o

/-- Every event of a sequence finds its precondition met when the ones before it succeeded. -/
def allAllowed (d : PinFile Dir) : List Event → Bool
  | [] => true
  | e :: es => e.allowed d && allAllowed (e.dirAfter d) es

/-- The phase an operation other than the cleanup ends in: `INIT` ends in READY (R102), every other keeps the phase. -/
def endsIn : Instr → Phase → Phase
  | .init => becomesReady
  | .wri _ => samePhase
  | .wrc _ => samePhase
  | .strobe => samePhase
  | .showline _ _ => samePhase
  | .clear => samePhase
  | .shutdown => fun _ => .down
  | .hs3 => samePhase
  | .hs2 => samePhase
  | .functionSet => samePhase
  | .displayOff => samePhase
  | .clearDisplay => samePhase
  | .entryMode => samePhase
  | .displayOn => samePhase
  | .setLine1 => samePhase
  | .setLine2 => samePhase
  | .char _ => samePhase
  | .instr _ => samePhase

/-- The operations a host may have in progress: every host command but the bare strobe (R56, R58, R129). -/
def isHostOperation : Instr → Bool
  | .init => true
  | .wri _ => true
  | .wrc _ => true
  | .strobe => false
  | .showline _ _ => true
  | .clear => true
  | .shutdown => true
  | .hs3 => false
  | .hs2 => false
  | .functionSet => false
  | .displayOff => false
  | .clearDisplay => false
  | .entryMode => false
  | .displayOn => false
  | .setLine1 => false
  | .setLine2 => false
  | .char _ => false
  | .instr _ => false

/-- What the host port answers to an instruction in a phase: `none` where it is admitted (R16, R127, R129). -/
def admission (P : Params) (ph : Phase) : Instr → Option Refusal
  | .init => admitInit P ph
  | .wri _ => admitInReady ph
  | .wrc _ => admitInReady ph
  | .strobe => some .bareStrobe
  | .showline _ _ => admitInReady ph
  | .clear => admitInReady ph
  | .shutdown => admitShutdown ph
  | .hs3 => some .busWordAtPort
  | .hs2 => some .busWordAtPort
  | .functionSet => some .busWordAtPort
  | .displayOff => some .busWordAtPort
  | .clearDisplay => some .busWordAtPort
  | .entryMode => some .busWordAtPort
  | .displayOn => some .busWordAtPort
  | .setLine1 => some .busWordAtPort
  | .setLine2 => some .busWordAtPort
  | .char _ => some .busWordAtPort
  | .instr _ => some .busWordAtPort

end Sys2Proof.Machine
end

