-- ==== Sys2Proof/Machine/Observe.lean ====
section
/-! DEFINITION. Machine/Observe.lean: what is read off a trace: the latched sequence (40_primitives.md R79), its decoding into bytes
(30_encoding.md R53, R65), the event counts (R78, R90, R104, R115) and the least duration (70_reset_and_hazards.md R204). -/

namespace Sys2Proof.Machine

/-- The trace in the order in which the events happened. -/
def State.history (s : State) : List Entry := s.trace.reverse

/-- The lines as the controller sees them before any event: `E` LOW, `RS` and `DATA` not known (R79). -/
def linesAtStart : PinFile (Option Level) := { PinFile.all none with e := some .low }

/-- The four data lines after `PRESENT(n)` in which the call for `failed` failed: the lines before it are written, it has no value,
the lines after it keep theirs (R74). -/
def presentLines (n : Nibble) (failed : Option Pin) (l : PinFile (Option Level)) : PinFile (Option Level) :=
  match failed with
  | some .d0 => { l with d0 := none }
  | some .d1 => { l with d0 := some (nibbleLevel n 0), d1 := none }
  | some .d2 => { l with d0 := some (nibbleLevel n 0), d1 := some (nibbleLevel n 1), d2 := none }
  | some .d3 =>
    { l with d0 := some (nibbleLevel n 0), d1 := some (nibbleLevel n 1), d2 := some (nibbleLevel n 2), d3 := none }
  | _ =>
    { l with d0 := some (nibbleLevel n 0), d1 := some (nibbleLevel n 1), d2 := some (nibbleLevel n 2), d3 := some (nibbleLevel n 3) }

/-- The lines after an entry of the trace. A delay and a release change nothing the controller sees (R79). -/
def linesAfter (t : Entry) (l : PinFile (Option Level)) : PinFile (Option Level) :=
  match t.event, t.failed with
  | .cfg p, none => l.set p (some .low)
  | .cfg _, some _ => l
  | .wr p v, none => l.set p (some v)
  | .wr p _, some _ => l.set p none
  | .data n, f => presentLines n f l
  | .rel _, _ => l
  | .dly _, _ => l

/-- The lines as the controller sees them after a trace in order (R79). -/
def linesThrough (l : PinFile (Option Level)) (tr : List Entry) : PinFile (Option Level) := tr.foldl (fun l t => linesAfter t l) l

/-- The lines as the controller sees them now (R79). -/
def State.linesSeen (s : State) : PinFile (Option Level) := linesThrough linesAtStart s.history

/-- A falling edge of `E`: a successful `Wr(PIN_E, LOW)` performed while `E` is HIGH (R79). -/
def isFallingEdge (t : Entry) (l : PinFile (Option Level)) : Bool :=
  decide (t = ⟨.wr .e .low, none⟩) && decide (l.e = some .high)

/-- The BUS5 word on the lines: bit 4 `RS`, bits 3:0 `DATA`; `none` when a line has no value (R52). -/
def busWord (l : PinFile (Option Level)) : Option (BitVec 5) :=
  match l.rs, l.d3, l.d2, l.d1, l.d0 with
  | some r, some b3, some b2, some b1, some b0 =>
    some (BitVec.ofBool (levelBit r) ++ BitVec.ofBool (levelBit b3) ++ BitVec.ofBool (levelBit b2) ++
      BitVec.ofBool (levelBit b1) ++ BitVec.ofBool (levelBit b0))
  | _, _, _, _, _ => none

/-- The walk of R79 over a trace in order, from the given lines. -/
def latchedFrom (l : PinFile (Option Level)) : List Entry → List (Option (BitVec 5))
  | [] => []
  | t :: rest =>
    if isFallingEdge t l then busWord l :: latchedFrom (linesAfter t l) rest else latchedFrom (linesAfter t l) rest

/-- The latched sequence of the run so far: the only thing a test of the block should compare (R79). -/
def State.latched (s : State) : List (Option (BitVec 5)) := latchedFrom linesAtStart s.history

/-- A latched sequence read as bytes (R53, R65). -/
structure Reading where
  /-- the BUS9 words, in order -/
  bytes : List (BitVec 9)
  /-- the unpaired word at the end, of a trace cut short by a fault -/
  rest : Option (BitVec 5)
  deriving DecidableEq, Repr

/-- Pairs of BUS5 words with the same `rs` form BUS9 words, high nibble first (R53, R65). Two halves whose `rs` differ, which R65 rules out for
whole `SEND`s, give no reading (DESIGN CHOICE, notes/assumptions/32.md). -/
def pairTransfers : List (BitVec 5) → Option Reading
  | [] => some ⟨[], none⟩
  | [w] => some ⟨[], some w⟩
  | a :: b :: rest =>
    if a.getLsbD 4 = b.getLsbD 4 then
      match pairTransfers rest with
      | some r => some ⟨(BitVec.ofBool (a.getLsbD 4) ++ a.extractLsb' 0 4 ++ b.extractLsb' 0 4) :: r.bytes, r.rest⟩
      | none => none
    else none

/-- Decoding a latched sequence that starts at reset: the handshake 03 03 03 02, then bytes (R65). R65 gives no reading of a sequence shorter
than the handshake, empty before `INIT` or cut by a fault inside the handshake: it has none here, not a partial one (DESIGN CHOICE,
notes/assumptions/32.md). -/
def readLatched : List (BitVec 5) → Option Reading
  | 0x03#5 :: 0x03#5 :: 0x03#5 :: 0x02#5 :: rest => pairTransfers rest
  | _ => none

/-- Events that succeeded. -/
def countDone (e : Event) (tr : List Entry) : Nat := tr.countP fun t => decide (t = ⟨e, none⟩)

/-- `Data` events that succeeded (R78). -/
def countData (tr : List Entry) : Nat :=
  tr.countP fun t =>
    match t.event, t.failed with
    | .data _, none => true
    | _, _ => false

/-- The least time the events of a trace take, in microseconds: the sum of the lower bounds of its delays (R204). -/
def leastMicros : List Entry → Nat
  | [] => 0
  | t :: rest =>
    (match t.event with
      | .dly d => delayMicros d
      | _ => 0) + leastMicros rest

end Sys2Proof.Machine
end

