-- ==== Sys2Proof/Safety.lean ====
section
/-! DEFINITION. Safety.lean: the launch premises of 70_reset_and_hazards.md R189, the invariant of the block, and what a safe run is (R190). -/

namespace Sys2Proof.Safety

open Sys2Proof.Machine

/-- `NoFault` (R189). -/
abbrev NoFault (s : State) : Prop := s.fault = .none

/-- `Idle` (R189). -/
abbrev Idle (s : State) : Prop := s.seq = .idle

/-- `Fresh` (R189). -/
abbrev Fresh (s : State) : Prop := s.phase = .uninit ∧ s.dir = PinFile.all .unconfigured ∧ s.irqPending = false

/-- `ParamsOk` (R189). -/
abbrev ParamsOk (s : State) : Prop := s.params.ok = true

/-- `Ready` (R189). -/
abbrev Ready (s : State) : Prop := s.phase = .ready ∧ s.dir = PinFile.all .output ∧ s.out.e = some .low

/-- Every call of the digital I/O abstraction succeeds: the document's contract, the default (R81, R161). -/
abbrev IoReliable (s : State) : Prop := s.params.ioCanFail = false

/-- The interrupt is taken at command boundaries only, the default (R167). -/
abbrev IrqAtBoundary (s : State) : Prop := s.params.irqGranularity = .command

/-- Where an instruction other than the cleanup stands before event `k` of its sequence: it is in progress there (R17), or it is a host command
at its acceptance, in the phase that admits it, which performs event 0 (R16, R56, R103; log entry 11). -/
def AtEvent (i : Instr) (k : Nat) (s : State) : Prop :=
  s.seq = .busy i k ∨
    s.seq = .idle ∧ k = 0 ∧
      (i = .init ∧ s.phase = .uninit ∧ s.params.pinsDistinct = true ∨
        s.phase = .ready ∧ ((∃ b, i = .wri b) ∨ (∃ b, i = .wrc b) ∨ (∃ l x, i = .showline l x) ∨ i = .clear))

/-- Where the cleanup stands before event `k` of its sequence: it is in progress, or at its acceptance in UNINIT or READY (log entry 11), and
what lies between its position and `k` are releases of pins that are not claimed, which are left out (R126). -/
def CleanupAtEvent (k : Nat) (s : State) : Prop :=
  ∃ k0, (s.seq = .busy .shutdown k0 ∨ s.seq = .idle ∧ k0 = 0 ∧ (s.phase = .uninit ∨ s.phase = .ready)) ∧ k0 ≤ k ∧
    ∀ j, k0 ≤ j → j < k → ∃ q, (shutdownEvents s.params s.phase)[j]? = some (.rel q) ∧ s.dir.get q = .unconfigured

/-- How many calls of the digital I/O abstraction the events make: one for each pin they name (R70, R74). -/
def callsOf (es : List Event) : Nat := (es.map fun e => e.pins.length).sum

/-- The calls of these events succeed: calls cannot fail, or the environment's next answers are that many times ok (R161). -/
def CallsSucceed (es : List Event) (s : State) : Prop :=
  s.params.ioCanFail = false ∨ ∃ rest, s.ioAnswers = List.replicate (callsOf es) .ok ++ rest

/-- No interrupt is taken between events over `m` steps: it is taken at boundaries only, or none is pending and none arrives (R167, D17). -/
def NotInterrupted (m : Nat) (s : State) : Prop :=
  s.params.irqGranularity = .command ∨ s.irqPending = false ∧ ∀ b ∈ s.irqLine.take m, b = false

/-- `n` steps of the machine, stopping at the first fault or refusal. -/
def run (n : Nat) (s : State) : Result := Sys2Proof.core.run n s

/-- `exec i s`, and `n` steps of the machine after it. -/
def execThenRun (i : Instr) (n : Nat) (s : State) : Result :=
  match exec i s with
  | .next t => run n t
  | .fault r => .fault r
  | .refused r => .refused r

/-- A run of `n` steps that neither stops nor takes the fault. -/
def RunsSafely (n : Nat) (s : State) : Prop := ∃ t, run n s = .next t ∧ t.fault = .none

/-- The six pins after a byte was sent: its low nibble on the data lines, `E` LOW, `RS` at its mode (R85). -/
def pinsAfterByte (c : LcdCommand) : PinFile (Option Level) :=
  { d0 := some (nibbleLevel (loNibble c.value) 0)
    d1 := some (nibbleLevel (loNibble c.value) 1)
    d2 := some (nibbleLevel (loNibble c.value) 2)
    d3 := some (nibbleLevel (loNibble c.value) 3)
    e := some .low
    rs := some c.mode }

/-- The state after the events `es` all succeeded over `m` samples of the interrupt line, with the pins and the phase given: the sequencer
is idle, the events are in the trace, and nothing else has changed. -/
def ended (s : State) (es : List Event) (m : Nat) (dir : PinFile Dir) (out : PinFile (Option Level)) (phase : Phase) : State :=
  { s with
    dir := dir
    out := out
    phase := phase
    seq := .idle
    irqPending := s.irqPending || (s.irqLine.take m).any id
    trace := (es.map fun e => ⟨e, none⟩).reverse ++ s.trace
    irqLine := s.irqLine.drop m }

/-- The state after the events `es` all succeeded: the pins are as the events leave them (R70). -/
def finished (s : State) (es : List Event) (m : Nat) (ends : Phase → Phase) : State :=
  ended s es m (dirAfterAll es s.dir) (outAfterAll es s.out) (ends s.phase)

/-- The events of one nibble write, `S(n)` of R106. -/
def nibbleTrace (n : Nibble) : List Event :=
  [.data n, .dly .strobe, .wr .e .high, .dly .strobe, .wr .e .low, .dly .strobe]

/-- The full event trace of one byte write (R91). -/
def byteTrace (mode : Level) (b : Byte) : List Event :=
  [.wr .rs mode,
    .data (hiNibble b), .dly .strobe, .wr .e .high, .dly .strobe, .wr .e .low, .dly .strobe,
    .data (loNibble b), .dly .strobe, .wr .e .high, .dly .strobe, .wr .e .low, .dly .strobe]

/-- The full event trace of `INIT` (R106). -/
def initTrace (P : Params) : List Event :=
  [.cfg .d0, .cfg .d1, .cfg .d2, .cfg .d3, .cfg .e, .cfg .rs, .dly .pwr, .wr .rs .low] ++
    nibbleTrace 0x3#4 ++ nibbleTrace 0x3#4 ++ nibbleTrace 0x3#4 ++ nibbleTrace 0x2#4 ++
    byteTrace .low P.iFunctionSet ++ byteTrace .low P.iDisplayOff ++ byteTrace .low P.iClear ++ [.dly .settle] ++
    byteTrace .low P.iEntryMode ++ byteTrace .low P.iDisplayOn

/-- The event trace of `SHOWLINE line, text` for the line's base byte (R121). -/
def showlineTrace (base : Byte) (text : Text) : List Event :=
  byteTrace .low base ++ (fit16 text).flatMap (byteTrace .high)

/-- The event trace of `CLEAR` (R117). -/
def clearTrace (P : Params) : List Event := byteTrace .low P.iClear ++ [.dly .settle]

/-- The six releases of the cleanup (R126). -/
def releaseTrace : List Event := [.rel .d0, .rel .d1, .rel .d2, .rel .d3, .rel .e, .rel .rs]

/-- One BUS5 word: the mode and a nibble (R52). -/
def transfer (mode : Level) (n : Nibble) : Option (BitVec 5) := some (BitVec.ofBool (levelBit mode) ++ n)

/-- The two BUS5 words of a byte, high nibble first (R53, R85). -/
def byteTransfers (mode : Level) (b : Byte) : List (Option (BitVec 5)) := [transfer mode (hiNibble b), transfer mode (loNibble b)]

/-- A walk over the events still to come, from the directions and the level of `E`: every event finds its precondition met, `RS` and the
data lines are written with `E` LOW only, `E` rises from LOW and falls from HIGH, and the walk ends with all pins OUTPUT and `E` LOW
(R75, R77). -/
def cleanFrom (d : PinFile Dir) (e : Option Level) : List Event → Bool
  | [] => decide (d = PinFile.all .output) && decide (e = some .low)
  | .cfg p :: es =>
    decide (d.get p = .unconfigured) && cleanFrom (d.set p .output) (if p = .e then some .low else e) es
  | .wr .e .high :: es => decide (d.get .e = .output) && decide (e = some .low) && cleanFrom d (some .high) es
  | .wr .e .low :: es => decide (d.get .e = .output) && decide (e = some .high) && cleanFrom d (some .low) es
  | .wr p _ :: es => decide (d.get p = .output) && decide (e = some .low) && cleanFrom d e es
  | .data n :: es => (Event.data n).allowed d && decide (e = some .low) && cleanFrom d e es
  | .rel _ :: _ => false
  | .dly _ :: es => cleanFrom d e es

/-- THE INVARIANT of the block, which holds at reset and which every step keeps, whatever the parameters and whatever the environment does. -/
structure BlockInvariant (s : State) : Prop where
  /-- a pin the block does not drive has no value (R14) -/
  undriven : ∀ p, s.dir.get p = .unconfigured → s.out.get p = none
  /-- FAULTED is the phase of a recorded fault (R16, R18, R160) -/
  faulted : s.phase = .faulted ↔ s.fault ≠ .none
  /-- the fault is unreachable where calls cannot fail (R161) -/
  reliable : s.params.ioCanFail = false → s.fault = .none
  /-- nothing is in progress in a final phase (R16) -/
  final : s.phase = .down ∨ s.phase = .faulted → s.seq = .idle
  /-- before `INIT` no pin is claimed (R185) -/
  fresh : s.phase = .uninit → s.seq = .idle → s.dir = PinFile.all .unconfigured
  /-- in READY, with nothing in progress, all pins are outputs and `E` is LOW (R77, R189) -/
  ready : s.phase = .ready → s.seq = .idle → s.dir = PinFile.all .output ∧ s.out.e = some .low
  /-- an operation in progress is the host's, stands before one of its events, and what is left of it is clean (R17, R77) -/
  working : ∀ op k, s.seq = .busy op k → op ≠ .shutdown →
    isHostOperation op = true ∧ k < (eventsOf s.params s.phase op).length ∧
    ((op = .init ∧ s.phase = .uninit) ∨ (op ≠ .init ∧ s.phase = .ready)) ∧
    cleanFrom s.dir s.out.e ((eventsOf s.params s.phase op).drop k) = true
  /-- the cleanup in progress stands before an event it performs, and while its clear is not done all pins are outputs (R126) -/
  cleaning : ∀ k, s.seq = .busy .shutdown k →
    (∃ e, (shutdownEvents s.params s.phase)[k]? = some e ∧ e.allowed s.dir = true) ∧
    (k < (cleanupClearEvents s.params s.phase).length → s.dir = PinFile.all .output)

/-- What the controller sees on a driven pin is what its latch holds: the trace tells all of it (R70, R79). -/
def SeesLatches (s : State) : Prop := ∀ p, s.dir.get p = .output → s.linesSeen.get p = s.out.get p

/-- How often an event occurs among events still to come. -/
def countEvent (e : Event) (es : List Event) : Nat := es.countP fun x => decide (x = e)

/-- How many delays are among events still to come (R204). -/
def countDelays (es : List Event) : Nat :=
  es.countP fun x =>
    match x with
    | .dly _ => true
    | _ => false

/-- How many nibble presentations are among events still to come. -/
def countPresent (es : List Event) : Nat :=
  es.countP fun x =>
    match x with
    | .data _ => true
    | _ => false

/-- The events an operation in progress has still to perform (R17). -/
def remaining (s : State) : List Event :=
  match s.seq with
  | .idle => []
  | .busy op k => (eventsOf s.params s.phase op).drop k

/-- Every presented nibble has exactly one strobe, and strobes come in pairs, counting what the operation in progress has still to do
(R78, R90, R23); said of the phases in which no fault has cut the trace, outside the cleanup. -/
def Balanced (s : State) : Prop :=
  (s.phase = .uninit ∨ s.phase = .ready) → (∀ k, s.seq ≠ .busy .shutdown k) →
    countData s.trace + countPresent (remaining s) = countDone (.wr .e .low) s.trace + countEvent (.wr .e .low) (remaining s) ∧
    countDone (.wr .e .high) s.trace + countEvent (.wr .e .high) (remaining s) =
      countDone (.wr .e .low) s.trace + countEvent (.wr .e .low) (remaining s) ∧
    (countDone (.wr .e .low) s.trace + countEvent (.wr .e .low) (remaining s)) % 2 = 0

end Sys2Proof.Safety
end

