-- ==== Sys2Proof/Certificates/Slice0/Obligations.lean ====
section
/-! DEFINITION. Certificates/Slice0/Obligations.lean: the statements for the provers. Each docstring names the rule of spec/ it formalises. -/

open Sys2Proof Sys2Proof.Machine Sys2Proof.Safety

/-! ## Encodings -/

/-- The host command words of R92 and R58, written out bit by bit, decode to the commands they stand for. -/
def Obligations.HostWordsDecode : Prop :=
  decodeHost ⟨0b000000000000#12, []⟩ = .ok .init ∧
  decodeHost ⟨0b000110000000#12, []⟩ = .ok (.wri 0x80#8) ∧
  decodeHost ⟨0b001001000001#12, []⟩ = .ok (.wrc 0x41#8) ∧
  decodeHost ⟨0b001100000000#12, []⟩ = .ok .strobe ∧
  decodeHost ⟨0b010000000001#12, [0x4E#8]⟩ = .ok (.showline .line2 [0x4E#8]) ∧
  decodeHost ⟨0b010100000000#12, []⟩ = .ok .clear ∧
  decodeHost ⟨0b011000000000#12, []⟩ = .ok .shutdown

/-- The bus words of R54, written out bit by bit, with the default instruction bytes (PRESUMED, log entry 3). -/
def Obligations.BusWordsDecode : Prop :=
  decodeBus5 0b00011#5 = .ok .hs3 ∧
  decodeBus5 0b00010#5 = .ok .hs2 ∧
  decodeBus9 Config.defaultParams 0b000101000#9 = .functionSet ∧
  decodeBus9 Config.defaultParams 0b000000001#9 = .clearDisplay ∧
  decodeBus9 Config.defaultParams 0b010000000#9 = .setLine1 ∧
  decodeBus9 Config.defaultParams 0b011000000#9 = .setLine2 ∧
  decodeBus9 Config.defaultParams 0b101000001#9 = .char 0x41#8 ∧
  decodeBus9 Config.defaultParams 0b001110111#9 = .instr 0x77#8

/-- No bit of an encoding is dropped, for any parameters (R54, R58). Under parameters in which two named rows share a byte
no named row counts as well formed (log entry 30). -/
def Obligations.DecodeEncodeAgree : Prop :=
  ∀ (P : Params) (i : Instr), i.wellFormed P = true → decode P (encode P i) = .ok i

/-- Each accepted word is the encoding of the instruction it decodes to: no two words share one (R54, R58, R60).
Over host commands with a text it rests on the rejection of a text with a command other than `SHOWLINE` (the model's choice, log entry 6),
and where two named rows share a byte on that byte being read as one of them (log entry 30). -/
def Obligations.EncodeDecodeAgree : Prop :=
  ∀ (P : Params) (t : TableWord) (i : Instr), decode P t = .ok i → encode P i = t

/-- R60: a command word without text is accepted exactly when it matches one of the six rows of R58 whose command has no text operand, and
with any text a `SHOWLINE` word exactly when its row matches; a text with another command is rejected (the model's choice, log entry 6). -/
def Obligations.HostDecodingFollowsTheRows : Prop :=
  ∀ c : HostCommand,
    (∃ i, decodeHost c = .ok i) ↔
      (c.word &&& 0xFFE#12 = 0x400#12 ∨
        c.text = [] ∧
          (c.word = 0x000#12 ∨ c.word &&& 0xF00#12 = 0x100#12 ∨ c.word &&& 0xF00#12 = 0x200#12 ∨ c.word = 0x300#12 ∨
            c.word = 0x500#12 ∨ c.word = 0x600#12))

/-! ## Operands -/

/-- R111: `base` of each line, and the line operand has exactly two values. -/
def Obligations.LineBases : Prop :=
  lineBase .line1 = Config.line1Addr ∧ Config.line1Addr = 0x80#8 ∧ lineBase .line2 = Config.line2Addr ∧ Config.line2Addr = 0xC0#8 ∧
  Line.line1 ≠ Line.line2 ∧ ∀ l : Line, l = .line1 ∨ l = .line2

/-- R110: `fit16` keeps the first 16 bytes of a longer text and pads a shorter one on the right, and the four laws of the rule. The byte
0x20 of the space is the spec's general knowledge (log entry 4). -/
def Obligations.Fit16PadsOrTruncates : Prop :=
  ∀ t : Text,
    (16 ≤ t.length → fit16 t = t.take 16) ∧
    (t.length < 16 → fit16 t = t ++ List.replicate (16 - t.length) 0x20#8) ∧
    (fit16 t).length = 16 ∧ fit16 (fit16 t) = fit16 t ∧
    (∀ i, i < min t.length 16 → (fit16 t)[i]? = t[i]?) ∧
    (∀ i, t.length ≤ i → i < 16 → (fit16 t)[i]? = some 0x20#8)

/-- R88, R120, R51: only the low 8 bits of an operand are meaningful, so that `SEND(m, 0x141)` equals `SEND(m, 0x41)`; the split into
nibbles; a nibble's four bits. -/
def Obligations.ByteAndNibbleArithmetic : Prop :=
  (∀ v : Nat, (trunc8 v).toNat = v % 256) ∧
  (∀ (m : Level) (v : Nat), sendEvents (lcdCommand m v) = sendEvents (lcdCommand m (v % 256))) ∧
  (∀ m : Level, sendEvents (lcdCommand m 0x141) = sendEvents (lcdCommand m 0x41)) ∧
  (∀ b : Byte, (hiNibble b).toNat = b.toNat / 16 ∧ (loNibble b).toNat = b.toNat % 16) ∧
  (∀ n : Nibble, n.toNat = (levelBit (nibbleLevel n 0)).toNat + 2 * (levelBit (nibbleLevel n 1)).toNat +
    4 * (levelBit (nibbleLevel n 2)).toNat + 8 * (levelBit (nibbleLevel n 3)).toNat)

/-- R35: high nibble first; characters in ascending index; nibble bit `i` on `PIN_D[i]`, the four of them presented together. -/
def Obligations.TransferOrder : Prop :=
  (∀ c : LcdCommand, (sendEvents c).filter (fun e => match e with | .data _ => true | _ => false) =
    [.data (hiNibble c.value), .data (loNibble c.value)]) ∧
  (∀ (line : Line) (text : Text), showlineEvents line text =
    sendEvents ⟨.low, lineBase line⟩ ++ (fit16 text).flatMap fun c => sendEvents ⟨.high, c⟩) ∧
  (∀ (n : Nibble) (o : PinFile (Option Level)),
    (Event.data n).outAfter o =
      { o with
        d0 := some (levelOfBit (n.getLsbD 0))
        d1 := some (levelOfBit (n.getLsbD 1))
        d2 := some (levelOfBit (n.getLsbD 2))
        d3 := some (levelOfBit (n.getLsbD 3)) })

/-- R90, R104, R115, R117, R131, R204: how many events, strobes and delays each operation has. -/
def Obligations.EventCounts : Prop :=
  (strobeEvents.length = 5 ∧ countEvent (.wr .e .low) strobeEvents = 1 ∧ countDelays strobeEvents = 3) ∧
  (∀ n : Nibble, (nibEvents n).length = 6 ∧ countEvent (.wr .e .low) (nibEvents n) = 1 ∧ countDelays (nibEvents n) = 3) ∧
  (∀ b : Byte, (wriEvents b).length = 13 ∧ countEvent (.wr .e .low) (wriEvents b) = 2 ∧ countDelays (wriEvents b) = 6) ∧
  (∀ b : Byte, (wrcEvents b).length = 13 ∧ countEvent (.wr .e .low) (wrcEvents b) = 2 ∧ countDelays (wrcEvents b) = 6) ∧
  (∀ P : Params, (clearEvents P).length = 14 ∧ countEvent (.wr .e .low) (clearEvents P) = 2 ∧ countDelays (clearEvents P) = 7 ∧
    countEvent (.dly .settle) (clearEvents P) = 1) ∧
  (∀ (line : Line) (text : Text), (showlineEvents line text).length = 221 ∧
    countEvent (.wr .e .low) (showlineEvents line text) = 34 ∧ countDelays (showlineEvents line text) = 102) ∧
  (∀ P : Params, (initEvents P).length = 98 ∧ countEvent (.wr .e .low) (initEvents P) = 14 ∧ countDelays (initEvents P) = 44 ∧
    countEvent (.dly .pwr) (initEvents P) = 1 ∧ countEvent (.dly .strobe) (initEvents P) = 42 ∧
    countEvent (.dly .settle) (initEvents P) = 1) ∧
  (∀ P : Params, (shutdownEvents P .ready).length = 20 ∧ countEvent (.wr .e .low) (shutdownEvents P .ready) = 2 ∧
    countDelays (shutdownEvents P .ready) = 7)

/-- R204: the least durations of every row of the table, in microseconds. -/
def Obligations.LeastDurations : Prop :=
  leastMicros (strobeEvents.map fun e => ⟨e, none⟩) = 1500 ∧
  (∀ n : Nibble, leastMicros ((nibEvents n).map fun e => ⟨e, none⟩) = 1500) ∧
  (∀ b : Byte, leastMicros ((wriEvents b).map fun e => ⟨e, none⟩) = 3000 ∧
    leastMicros ((wrcEvents b).map fun e => ⟨e, none⟩) = 3000) ∧
  (∀ P : Params, leastMicros ((clearEvents P).map fun e => ⟨e, none⟩) = 3500) ∧
  (∀ (line : Line) (text : Text), leastMicros ((showlineEvents line text).map fun e => ⟨e, none⟩) = 51000) ∧
  (∀ (l1 l2 : Line) (t1 t2 : Text),
    leastMicros ((showlineEvents l1 t1 ++ showlineEvents l2 t2).map fun e => ⟨e, none⟩) = 102000) ∧
  (∀ P : Params, leastMicros ((initEvents P).map fun e => ⟨e, none⟩) = 121500) ∧
  (∀ P : Params, leastMicros ((shutdownEvents P .ready).map fun e => ⟨e, none⟩) = 3500)

/-! ## Reset and steps -/

/-- R185: every piece of state at its reset value; the launch premises of R189 hold. The parameters are the model's choice where the spec
leaves them open (log entries 2 and 3). -/
def Obligations.ResetState : Prop :=
  (∀ p, State.reset.dir.get p = .unconfigured ∧ State.reset.out.get p = none) ∧
  State.reset.phase = .uninit ∧ State.reset.seq = .idle ∧ State.reset.fault = .none ∧ State.reset.irqPending = false ∧
  Fresh State.reset ∧ Idle State.reset ∧ NoFault State.reset ∧ ParamsOk State.reset

/-- A STEP RUNS THE DECODED INSTRUCTION (R17, R56, R167, D17): what the next step is, in every state. -/
def Obligations.StepRunsTheNextInstruction : Prop :=
  (∀ (s : State) (op : Instr) (k : Nat), s.seq = .busy op k →
    takesIrq s.sampleIrq = false → step s = exec op s.sampleIrq) ∧
  (∀ (s : State) (c : HostCommand) (rest : List HostCommand) (i : Instr), s.seq = .idle → takesIrq s.sampleIrq = false →
    s.host = c :: rest → decodeHost c = .ok i → step s = exec i { s.sampleIrq with host := rest }) ∧
  (∀ (s : State) (c : HostCommand) (rest : List HostCommand) (r : Reject), s.seq = .idle → takesIrq s.sampleIrq = false →
    s.host = c :: rest → decodeHost c = .error r → step s = .refused (.undecodable r)) ∧
  (∀ s : State, s.seq = .idle → takesIrq s.sampleIrq = false → s.host = [] → step s = .next s.sampleIrq) ∧
  (∀ s : State, takesIrq s.sampleIrq = true → step s = exec .shutdown (s.sampleIrq.setSeq .idle))

/-- R165, R167, R168, R170: when the pending interrupt is taken: at a boundary in UNINIT and READY; between events only where
`IRQ_GRANULARITY` says so, and never inside the cleanup. -/
def Obligations.WhenTheInterruptIsTaken : Prop :=
  ∀ s : State, takesIrq s = true ↔
    s.irqPending = true ∧ (s.phase = .uninit ∨ s.phase = .ready) ∧
      (s.seq = .idle ∨ ∃ op k, s.seq = .busy op k ∧ op ≠ .shutdown ∧ s.params.irqGranularity = .event)

/-! ## Invariants -/

/-- The invariant holds at reset, and the trace tells what every driven pin holds (R185). -/
def Obligations.ResetIsSound : Prop :=
  BlockInvariant State.reset ∧ SeesLatches State.reset ∧ Balanced State.reset

/-- THE INVARIANT (R14, R16, R17, R77, R126, R160, R161): every step keeps it, whatever the parameters, the host, the interrupt line and
the digital I/O abstraction do. -/
def Obligations.StepKeepsInvariant : Prop :=
  ∀ s t : State, BlockInvariant s → step s = .next t → BlockInvariant t

/-- R70, R79: the controller sees on each driven pin what its latch holds, in every state a step leads to. That an event whose call failed
stands in the trace with its pin, and that the walk then gives that line no value, is the model's (DEDUCED, log entries 18 and 21). -/
def Obligations.StepKeepsSeesLatches : Prop :=
  ∀ s t : State, SeesLatches s → step s = .next t → SeesLatches t

/-- R78, R90, R23: exactly one strobe for each nibble, and strobes in pairs, so that the controller's nibble pairing is kept. -/
def Obligations.StepKeepsBalance : Prop :=
  ∀ s t : State, BlockInvariant s → IrqAtBoundary s → Balanced s → step s = .next t → Balanced t

/-- An operation that was accepted is never refused half way (R17, R71, R73). -/
def Obligations.OperationInProgressNeverStops : Prop :=
  ∀ s : State, BlockInvariant s → s.seq ≠ .idle → ∃ t, step s = .next t

/-- R17, R43: an operation in progress ends, whatever fails: in at most 221 steps with the interrupt taken at boundaries, and in at most 241
where it is taken between events, the steps of the cleanup that follows included (D17, log entry 15). -/
def Obligations.AcceptedOperationEnds : Prop :=
  ∀ s : State, BlockInvariant s →
    ∃ n t, n ≤ 241 ∧ (IrqAtBoundary s → n ≤ 221) ∧ run n s = .next t ∧ t.seq = .idle

/-- R126, R130, R170: a shutdown accepted in READY ends in DOWN without a fault, whatever the digital I/O abstraction answers. -/
def Obligations.ShutdownAlwaysEndsDown : Prop :=
  ∀ s : State, BlockInvariant s → Ready s → Idle s →
    ∃ n t, n ≤ 19 ∧ execThenRun .shutdown n s = .next t ∧ t.phase = .down ∧ t.seq = .idle ∧ t.fault = .none

/-- R77, R195: data and register-select do not change while `E` is HIGH, outside the cleanup. -/
def Obligations.DataStableWhileEnableHigh : Prop :=
  ∀ s t : State, BlockInvariant s → IrqAtBoundary s → (∀ k, s.seq ≠ .busy .shutdown k) → s.out.e = some .high → step s = .next t →
    t.out.d0 = s.out.d0 ∧ t.out.d1 = s.out.d1 ∧ t.out.d2 = s.out.d2 ∧ t.out.d3 = s.out.d3 ∧ t.out.rs = s.out.rs

/-! ## Whole-machine rules -/

/-- R70, R72, R10: only a pin event changes a pin or the trace, by the table of R70; one step performs at most one. -/
def Obligations.OnlyEventsChangePins : Prop :=
  ∀ s t : State, step s = .next t →
    (t.trace = s.trace ∧ t.dir = s.dir ∧ t.out = s.out) ∨
    (∃ e : Event, t.trace = ⟨e, none⟩ :: s.trace ∧ t.dir = e.dirAfter s.dir ∧ t.out = e.outAfter s.out) ∨
    (∃ (e : Event) (p : Pin), p ∈ e.pins ∧ t.trace = ⟨e, some p⟩ :: s.trace ∧ t.dir = s.dir ∧ t.out = e.outFailed p s.out)

/-- R16, R125: the phase changes only by the end of `INIT`, by the end of the cleanup, which the step is one of (in progress, started by the
interrupt, or the host's `SHUTDOWN` accepted), and by the fault; the sequencer is idle after each. -/
def Obligations.OnlyThreeWaysChangePhase : Prop :=
  ∀ s t : State, BlockInvariant s → step s = .next t →
    t.phase = s.phase ∨
    (t.seq = .idle ∧
      ((s.phase = .uninit ∧ s.seq = .busy .init 97 ∧ t.phase = .ready) ∨
        ((s.phase = .uninit ∨ s.phase = .ready) ∧ t.phase = .down ∧
          ((∃ k, s.seq = .busy .shutdown k) ∨ takesIrq s.sampleIrq = true ∨
            (s.seq = .idle ∧ ∃ c rest, s.host = c :: rest ∧ decodeHost c = .ok .shutdown))) ∨
        ((s.phase = .uninit ∨ s.phase = .ready) ∧ t.phase = .faulted ∧ ∃ p, t.fault = .ioFault p)))

/-- R6, R19, R165, R18: no step writes a parameter, clears a pending interrupt or clears a recorded fault; an arriving signal is recorded. -/
def Obligations.ParametersAndPendingStay : Prop :=
  ∀ s t : State, step s = .next t →
    t.params = s.params ∧ t.irqPending = (s.irqPending || s.irqLine.headD false) ∧ t.irqLine = s.irqLine.tail ∧
      (s.fault ≠ .none → t.fault ≠ .none)

/-- R16, R128, R168, R170: DOWN and FAULTED are final: no step changes a pin, the phase, the fault or the trace, and every host command is
refused; a pending interrupt runs no cleanup there. That the step waits there, also with an interrupt pending, is the model's (DEDUCED,
log entry 13). -/
def Obligations.FinalPhasesStay : Prop :=
  ∀ s : State, s.seq = .idle → (s.phase = .down ∨ s.phase = .faulted) →
    (s.host = [] → step s = .next s.sampleIrq) ∧
    (∀ c rest i, s.host = c :: rest → decodeHost c = .ok i → i ≠ .strobe →
      step s = .refused (if s.phase = .down then .afterShutdown else .afterFault)) ∧
    (∀ t, step s = .next t → t.out = s.out ∧ t.dir = s.dir ∧ t.phase = s.phase ∧ t.fault = s.fault ∧ t.trace = s.trace)

/-- R103, R16: `INIT` is admitted in UNINIT only, the writing commands in READY only, `SHUTDOWN` in UNINIT as well: what the host port refuses
in each phase, and that `SHUTDOWN` in UNINIT goes on. -/
def Obligations.AdmissionByPhase : Prop :=
  ∀ s : State, s.seq = .idle →
    (∀ i : Instr, ((∃ b, i = .wri b) ∨ (∃ b, i = .wrc b) ∨ (∃ l x, i = .showline l x) ∨ i = .clear) →
      (s.phase = .uninit → exec i s = .refused .notInitialised) ∧ (s.phase = .down → exec i s = .refused .afterShutdown) ∧
      (s.phase = .faulted → exec i s = .refused .afterFault)) ∧
    (s.phase = .ready → exec .init s = .refused .secondInit) ∧
    (s.phase = .down → exec .init s = .refused .afterShutdown ∧ exec .shutdown s = .refused .afterShutdown) ∧
    (s.phase = .faulted → exec .init s = .refused .afterFault ∧ exec .shutdown s = .refused .afterFault) ∧
    (s.phase = .uninit → ∃ t, exec .shutdown s = .next t)

/-- R5, R36: two refusals of the model's own: `INIT` with a PinMap that is not distinct (log entry 16), and a bus word issued outside the
sequencer (log entry 9). -/
def Obligations.RefusedByTheModel : Prop :=
  ∀ s : State, s.seq = .idle →
    (s.phase = .uninit → s.params.pinsDistinct = false → exec .init s = .refused .pinMapNotDistinct) ∧
    (∀ i : Instr, isHostOperation i = false → i ≠ .strobe → exec i s = .refused .busWordAtPort)

/-- The frame of one step of every instruction but the cleanup (R17, R70, R81): it performs the one event of its sequence at its position;
only the pins that event names can change; parameters, the host's commands, the interrupt line and `irq_pending` stay, and the fault
and the phase stay unless a call fails or the operation ends. That acceptance performs event 0 (log entry 11) and that a failed event
enters the trace with its pin (log entry 18) is the model's (DEDUCED). -/
def Obligations.InstructionFrame : Prop :=
  ∀ (i : Instr) (s t : State), i ≠ .shutdown → exec i s = .next t →
    ∃ k e, ((s.seq = .idle ∧ k = 0) ∨ s.seq = .busy i k) ∧ (eventsOf s.params s.phase i)[k]? = some e ∧
      (∀ p, p ∉ e.pins → t.out.get p = s.out.get p ∧ t.dir.get p = s.dir.get p) ∧
      (i ≠ .init → t.dir = s.dir) ∧
      t.params = s.params ∧ t.host = s.host ∧ t.irqLine = s.irqLine ∧ t.irqPending = s.irqPending ∧
      ((t.fault = s.fault ∧ t.trace = ⟨e, none⟩ :: s.trace ∧
          ((k + 1 < (eventsOf s.params s.phase i).length ∧ t.seq = .busy i (k + 1) ∧ t.phase = s.phase) ∨
            (k + 1 = (eventsOf s.params s.phase i).length ∧ t.seq = .idle ∧ (i ≠ .init → t.phase = s.phase)))) ∨
        (∃ p, p ∈ e.pins ∧ t.fault = .ioFault p ∧ t.trace = ⟨e, some p⟩ :: s.trace ∧ t.seq = .idle ∧ t.phase = .faulted))

/-- The frame of one step of the cleanup (R126, R170): no fault is recorded, whatever fails; it performs the event it stands before, and pins
that event does not name stay. That acceptance performs the first event (log entry 11), what a failing call leaves (log entry 14) and that a
failed event enters the trace with its pin (log entry 18) is the model's (DEDUCED). -/
def Obligations.ShutdownFrame : Prop :=
  ∀ s t : State, exec .shutdown s = .next t →
    t.fault = s.fault ∧ t.params = s.params ∧ t.host = s.host ∧ t.irqLine = s.irqLine ∧ t.irqPending = s.irqPending ∧
    ((t.phase = .down ∧ t.seq = .idle) ∨ (t.phase = s.phase ∧ ∃ k, t.seq = .busy .shutdown k)) ∧
    ∃ k, CleanupAtEvent k s ∧
      (((shutdownEvents s.params s.phase)[k]? = none ∧ t.phase = .down ∧ t.trace = s.trace ∧ t.out = s.out ∧ t.dir = s.dir) ∨
        ∃ e f, (shutdownEvents s.params s.phase)[k]? = some e ∧ (∀ p, e = .rel p → s.dir.get p = .output) ∧
          t.trace = ⟨e, f⟩ :: s.trace ∧ ∀ p, p ∉ e.pins → t.out.get p = s.out.get p ∧ t.dir.get p = s.dir.get p)

/-! ## Completion and results -/

/-- R95 to R107: `INIT` from the reset condition: accepted with its first event; 97 steps later the six pins are outputs, the phase is READY
and the trace is that of R106. That acceptance and the first event are one step is the model's (DEDUCED, log entry 11), and the level
LOW after `Cfg` is the spec's decision D9 (log entry 26). -/
def Obligations.InitCompletes : Prop :=
  ∀ s : State, Fresh s → Idle s → s.params.pinsDistinct = true → IoReliable s → IrqAtBoundary s →
    exec .init s = .next
      { s with
        dir := { s.dir with d0 := .output }
        out := { s.out with d0 := some .low }
        seq := .busy .init 1
        trace := ⟨.cfg .d0, none⟩ :: s.trace } ∧
    execThenRun .init 97 s = .next
      (ended s (initTrace s.params) 97 (PinFile.all .output) (pinsAfterByte ⟨.low, s.params.iDisplayOn⟩) .ready)

/-- R86: `WRI b` is the word `0001 bbbb bbbb`, admitted in READY only; it sends `SEND(0, b)` and nothing after it: `RS` LOW, `DATA` the low
nibble, `E` LOW. That acceptance and the first event are one step is the model's
(DEDUCED, log entry 11). -/
def Obligations.WriCompletes : Prop :=
  ∀ (b : Byte) (s : State),
    decodeHost ⟨0x1#4 ++ b, []⟩ = .ok (.wri b) ∧
    (Idle s → s.phase ≠ .ready → ∃ r, exec (.wri b) s = .refused r) ∧
    (s.phase = .ready → s.dir = PinFile.all .output → Idle s → IoReliable s → IrqAtBoundary s →
      exec (.wri b) s = .next
        { s with
          out := { s.out with rs := some .low }
          seq := .busy (.wri b) 1
          trace := ⟨.wr .rs .low, none⟩ :: s.trace } ∧
      execThenRun (.wri b) 12 s = .next (ended s (byteTrace .low b) 12 s.dir (pinsAfterByte ⟨.low, b⟩) .ready))

/-- R87: `WRC b` is the word `0010 bbbb bbbb`, admitted in READY only; it sends `SEND(1, b)`: `RS` HIGH, `DATA` the low nibble, `E` LOW. That acceptance and the first event are one step is the model's
(DEDUCED, log entry 11). -/
def Obligations.WrcCompletes : Prop :=
  ∀ (b : Byte) (s : State),
    decodeHost ⟨0x2#4 ++ b, []⟩ = .ok (.wrc b) ∧
    (Idle s → s.phase ≠ .ready → ∃ r, exec (.wrc b) s = .refused r) ∧
    (s.phase = .ready → s.dir = PinFile.all .output → Idle s → IoReliable s → IrqAtBoundary s →
      exec (.wrc b) s = .next
        { s with
          out := { s.out with rs := some .high }
          seq := .busy (.wrc b) 1
          trace := ⟨.wr .rs .high, none⟩ :: s.trace } ∧
      execThenRun (.wrc b) 12 s = .next (ended s (byteTrace .high b) 12 s.dir (pinsAfterByte ⟨.high, b⟩) .ready))

/-- R112, R121: `SHOWLINE` sends the line's base and the 16 fitted characters; `RS` HIGH, `DATA` the low nibble of the last, `E` LOW. That acceptance and the first event are one step is the model's
(DEDUCED, log entry 11). -/
def Obligations.ShowlineCompletes : Prop :=
  ∀ (line : Line) (text : Text) (s : State),
    s.phase = .ready → s.dir = PinFile.all .output → Idle s → IoReliable s → IrqAtBoundary s →
      exec (.showline line text) s = .next
        { s with
          out := { s.out with rs := some .low }
          seq := .busy (.showline line text) 1
          trace := ⟨.wr .rs .low, none⟩ :: s.trace } ∧
      execThenRun (.showline line text) 220 s = .next
        (ended s (showlineTrace (match line with | .line1 => 0x80#8 | .line2 => 0xC0#8) text) 220 s.dir
          (pinsAfterByte ⟨.high, (fit16 text).getD 15 0#8⟩) .ready)

/-- R117, R118: `CLEAR` is `WRI I_CLEAR` and the settle delay, and changes no state but the three latches. That acceptance and the first event are one step is the model's
(DEDUCED, log entry 11). -/
def Obligations.ClearCompletes : Prop :=
  ∀ s : State,
    s.phase = .ready → s.dir = PinFile.all .output → Idle s → IoReliable s → IrqAtBoundary s →
      exec .clear s = .next
        { s with
          out := { s.out with rs := some .low }
          seq := .busy .clear 1
          trace := ⟨.wr .rs .low, none⟩ :: s.trace } ∧
      execThenRun .clear 13 s = .next
        (ended s (clearTrace s.params) 13 s.dir (pinsAfterByte ⟨.low, s.params.iClear⟩) .ready)

/-- R126, R131: `SHUTDOWN` in READY without failures: the clear, six releases, DOWN, and no pin driven. That acceptance and the first event are one step is the model's
(DEDUCED, log entry 11). -/
def Obligations.ShutdownCompletes : Prop :=
  ∀ s : State,
    s.phase = .ready → s.dir = PinFile.all .output → Idle s → IoReliable s →
      exec .shutdown s = .next
        { s with
          out := { s.out with rs := some .low }
          seq := .busy .shutdown 1
          trace := ⟨.wr .rs .low, none⟩ :: s.trace } ∧
      execThenRun .shutdown 19 s = .next
        (ended s (clearTrace s.params ++ releaseTrace) 19 (PinFile.all .unconfigured) (PinFile.all none) .down)

/-- R127: `SHUTDOWN` by phase: in UNINIT no event is performed and the phase is DOWN; in READY the clear of R126 begins, and 19 steps later,
when calls succeed, the phase is DOWN and no pin is driven; in DOWN and FAULTED it is refused. -/
def Obligations.ShutdownByPhase : Prop :=
  ∀ s : State, Idle s →
    (s.phase = .uninit → s.dir = PinFile.all .unconfigured → exec .shutdown s = .next { s with phase := .down }) ∧
    (s.phase = .ready → s.dir = PinFile.all .output → IoReliable s →
      ∃ t, execThenRun .shutdown 19 s = .next t ∧ t.phase = .down ∧ t.seq = .idle ∧ t.fault = s.fault ∧
        t.dir = PinFile.all .unconfigured ∧ t.out = PinFile.all none ∧
        t.trace = ((clearTrace s.params ++ releaseTrace).map fun e => ⟨e, none⟩).reverse ++ s.trace) ∧
    (s.phase = .down → exec .shutdown s = .refused .afterShutdown) ∧
    (s.phase = .faulted → exec .shutdown s = .refused .afterFault)

/-- R165, R167, R127, V-Y3: an interrupt that is pending when the sequencer is idle shuts the block down, in READY with the clear and the
releases, in UNINIT with no event, and the host's commands stay where they are. -/
def Obligations.InterruptShutsDown : Prop :=
  ∀ s : State, s.irqPending = true → Idle s →
    (s.phase = .ready → s.dir = PinFile.all .output → IoReliable s →
      ∃ t, run 20 s = .next t ∧ t.phase = .down ∧ t.seq = .idle ∧ t.dir = PinFile.all .unconfigured ∧
        t.out = PinFile.all none ∧ t.fault = s.fault ∧ t.irqPending = true ∧ t.host = s.host ∧
        t.trace = ((clearTrace s.params ++ releaseTrace).map fun e => ⟨e, none⟩).reverse ++ s.trace) ∧
    (s.phase = .uninit → s.dir = PinFile.all .unconfigured →
      ∃ t, run 1 s = .next t ∧ t.phase = .down ∧ t.seq = .idle ∧ t.dir = s.dir ∧ t.out = s.out ∧ t.fault = s.fault ∧
        t.irqPending = true ∧ t.host = s.host ∧ t.trace = s.trace)

/-- D17 (IRQ_GRANULARITY = event): an interrupt that is pending while an operation is in progress abandons it between two events. In READY the
whole cleanup follows; in UNINIT, inside `INIT`, only the pins claimed by then are released (the model's reading, DEDUCED, log entry 15). -/
def Obligations.InterruptAbandonsOperation : Prop :=
  ∀ (op : Instr) (k : Nat) (s : State), s.seq = .busy op k → op ≠ .shutdown → s.params.irqGranularity = .event →
    s.irqPending = true → IoReliable s →
      (s.phase = .ready → s.dir = PinFile.all .output →
        ∃ t, run 20 s = .next t ∧ t.phase = .down ∧ t.seq = .idle ∧ t.dir = PinFile.all .unconfigured ∧
          t.out = PinFile.all none ∧ t.fault = s.fault ∧ t.irqPending = true ∧ t.host = s.host ∧
          t.trace = ((clearTrace s.params ++ releaseTrace).map fun e => ⟨e, none⟩).reverse ++ s.trace) ∧
      (s.phase = .uninit → (∀ p, s.dir.get p = .unconfigured → s.out.get p = none) →
        ∃ n t, n ≤ 6 ∧ run n s = .next t ∧ t.phase = .down ∧ t.seq = .idle ∧ t.dir = PinFile.all .unconfigured ∧
          t.out = PinFile.all none ∧ t.fault = s.fault ∧ t.irqPending = true ∧ t.host = s.host ∧
          t.trace = ((pinOrder.filter fun p => decide (s.dir.get p = .output)).map fun p => ⟨.rel p, none⟩).reverse ++ s.trace)

/-- R17, R70, R161: every operation but the cleanup, from its acceptance or from where it stands, runs through the rest of its events when their
calls succeed, also with IO_CAN_FAIL, and no interrupt is taken between them, also with IRQ_GRANULARITY = event: the pins are as the events
leave them, and the phase is READY after `INIT`. That acceptance and the first event are one step is the model's (DEDUCED, log entry 11). -/
def Obligations.OperationRunsThroughItsEvents : Prop :=
  ∀ (op : Instr) (k : Nat) (s : State) (es : List Event), op ≠ .shutdown → AtEvent op k s →
    es = (eventsOf s.params s.phase op).drop k → es ≠ [] → allAllowed s.dir es = true → CallsSucceed es s →
    NotInterrupted (es.length - 1) s →
      ∃ t, execThenRun op (es.length - 1) s = .next t ∧ t.seq = .idle ∧ t.phase = (if op = .init then .ready else s.phase) ∧
        t.dir = dirAfterAll es s.dir ∧ t.out = outAfterAll es s.out ∧ t.fault = s.fault ∧ t.params = s.params ∧ t.host = s.host ∧
        t.trace = (es.map fun e => ⟨e, none⟩).reverse ++ s.trace

/-- R75, R129: the strobe of the sequencer is five events and touches `E` alone, which is LOW afterwards; at the host port it is refused in
every phase. That `STROBE` can stand in the sequencer as an operation of its own is the model's choice (DESIGN CHOICE, log entry 31); no run
from the host port reaches it. -/
def Obligations.StrobeCompletes : Prop :=
  ∀ s : State,
    (Idle s → exec .strobe s = .refused .bareStrobe) ∧
    (s.seq = .busy .strobe 0 → s.dir.get .e = .output → IoReliable s → IrqAtBoundary s →
      exec .strobe s = .next { s with seq := .busy .strobe 1, trace := ⟨.dly .strobe, none⟩ :: s.trace } ∧
      execThenRun .strobe 4 s = .next
        (ended s [.dly .strobe, .wr .e .high, .dly .strobe, .wr .e .low, .dly .strobe] 4 s.dir { s.out with e := some .low } s.phase))

/-- R98: the handshake words: the nibble on the data lines and one strobe, with `RS` as it stands. -/
def Obligations.HandshakeWordsComplete : Prop :=
  ∀ (i : Instr) (n : Nibble) (s : State), ((i = .hs3 ∧ n = 0x3#4) ∨ (i = .hs2 ∧ n = 0x2#4)) →
    s.seq = .busy i 0 → s.dir = PinFile.all .output → IoReliable s → IrqAtBoundary s →
      exec i s = .next
        { s with
          out := (Event.data n).outAfter s.out
          seq := .busy i 1
          trace := ⟨.data n, none⟩ :: s.trace } ∧
      execThenRun i 5 s = .next
        (ended s (nibbleTrace n) 5 s.dir
          { s.out with
            d0 := some (nibbleLevel n 0), d1 := some (nibbleLevel n 1), d2 := some (nibbleLevel n 2), d3 := some (nibbleLevel n 3)
            e := some .low } s.phase)

/-- R33, R54, R100: the BUS9 words that are one byte: the byte each puts on the bus, and the pins after it. -/
def Obligations.BusBytesComplete : Prop :=
  ∀ (i : Instr) (mode : Level) (b : Byte) (s : State),
    ((i = .functionSet ∧ mode = .low ∧ b = s.params.iFunctionSet) ∨ (i = .displayOff ∧ mode = .low ∧ b = s.params.iDisplayOff) ∨
      (i = .entryMode ∧ mode = .low ∧ b = s.params.iEntryMode) ∨ (i = .displayOn ∧ mode = .low ∧ b = s.params.iDisplayOn) ∨
      (i = .setLine1 ∧ mode = .low ∧ b = 0x80#8) ∨ (i = .setLine2 ∧ mode = .low ∧ b = 0xC0#8) ∨
      (i = .char b ∧ mode = .high) ∨ (i = .instr b ∧ mode = .low)) →
    s.seq = .busy i 0 → s.dir = PinFile.all .output → IoReliable s → IrqAtBoundary s →
      exec i s = .next
        { s with
          out := { s.out with rs := some mode }
          seq := .busy i 1
          trace := ⟨.wr .rs mode, none⟩ :: s.trace } ∧
      execThenRun i 12 s = .next (ended s (byteTrace mode b) 12 s.dir (pinsAfterByte ⟨mode, b⟩) s.phase)

/-- R100, R117: `CLEAR_DISPLAY` is always followed by the settle delay when the block originates it. -/
def Obligations.ClearDisplayCompletes : Prop :=
  ∀ s : State, s.seq = .busy .clearDisplay 0 → s.dir = PinFile.all .output → IoReliable s → IrqAtBoundary s →
    exec .clearDisplay s = .next
      { s with
        out := { s.out with rs := some .low }
        seq := .busy .clearDisplay 1
        trace := ⟨.wr .rs .low, none⟩ :: s.trace } ∧
    execThenRun .clearDisplay 13 s = .next
      (ended s (clearTrace s.params) 13 s.dir (pinsAfterByte ⟨.low, s.params.iClear⟩) s.phase)

/-! ## What the controller latches -/

/-- R85, R117: a byte write latches its mode with the high nibble, then with the low nibble; `CLEAR` latches the byte `I_CLEAR`. -/
def Obligations.ByteWritesLatch : Prop :=
  ∀ (i : Instr) (n : Nat) (mode : Level) (b : Byte) (s : State),
    ((i = .wri b ∧ mode = .low ∧ n = 12) ∨ (i = .wrc b ∧ mode = .high ∧ n = 12) ∨
      (i = .clear ∧ mode = .low ∧ b = s.params.iClear ∧ n = 13)) →
    Ready s → Idle s → SeesLatches s → IoReliable s → IrqAtBoundary s →
      ∃ t, execThenRun i n s = .next t ∧ t.seq = .idle ∧ t.latched = s.latched ++ byteTransfers mode b

/-- R98, R105: `INIT` latches the handshake 03 03 03 02 and the five configured bytes, whatever their values. -/
def Obligations.InitLatches : Prop :=
  ∀ s : State, Fresh s → Idle s → s.params.pinsDistinct = true → s.trace = [] → IoReliable s → IrqAtBoundary s →
    ∃ t, execThenRun .init 97 s = .next t ∧ t.phase = .ready ∧
      t.latched = [some 0x03#5, some 0x03#5, some 0x03#5, some 0x02#5] ++ byteTransfers .low s.params.iFunctionSet ++
        byteTransfers .low s.params.iDisplayOff ++ byteTransfers .low s.params.iClear ++ byteTransfers .low s.params.iEntryMode ++
        byteTransfers .low s.params.iDisplayOn

/-- R114: exactly one instruction write and 16 character writes: the text padded with blanks (`PAD_CHAR`) when it is no longer than 16, its
first 16 bytes when it is longer. -/
def Obligations.ShowlineLatchesSixteen : Prop :=
  ∀ (line : Line) (text : Text) (s : State), Ready s → Idle s → SeesLatches s → IoReliable s → IrqAtBoundary s →
    ∃ t chars, execThenRun (.showline line text) 220 s = .next t ∧ t.seq = .idle ∧ chars.length = 16 ∧
      (text.length ≤ 16 → chars = text ++ List.replicate (16 - text.length) Config.padChar) ∧
      (16 < text.length → chars = text.take 16) ∧
      t.latched = s.latched ++ byteTransfers .low (lineBase line) ++ chars.flatMap (byteTransfers .high)

/-- R113: the same text on the same line is rendered by the same events, whatever came before: two blocks that are ready for it, however
else they differ, perform the same events. -/
def Obligations.ShowlineHasNoHiddenState : Prop :=
  ∀ (line : Line) (text : Text) (s1 s2 : State),
    (s1.phase = .ready ∧ s1.dir = PinFile.all .output ∧ Idle s1 ∧ IoReliable s1 ∧ IrqAtBoundary s1) →
    (s2.phase = .ready ∧ s2.dir = PinFile.all .output ∧ Idle s2 ∧ IoReliable s2 ∧ IrqAtBoundary s2) →
      ∃ t1 t2 tr, execThenRun (.showline line text) 220 s1 = .next t1 ∧ execThenRun (.showline line text) 220 s2 = .next t2 ∧
        t1.trace = tr ++ s1.trace ∧ t2.trace = tr ++ s2.trace ∧ t1.out = t2.out

/-! ## The exception -/

/-- R160, R163, R71, R73: a failing `Wr` or `Cfg` outside the cleanup takes the fault, the first event at acceptance included: the pin is
recorded, the phase is FAULTED, the rest is not performed, and no pin but the failing one changes: it has no value after a failing `Wr`. That
acceptance performs the first event (log entry 11) and that the failed event enters the trace (log entry 18) is the model's (DEDUCED). -/
def Obligations.FailingCallTakesIoFault : Prop :=
  ∀ (i : Instr) (k : Nat) (e : Event) (p : Pin) (s : State) (rest : List IoOutcome),
    i ≠ .shutdown → AtEvent i k s → (eventsOf s.params s.phase i)[k]? = some e → e.allowed s.dir = true →
    ((∃ v, e = .wr p v) ∨ e = .cfg p) → s.params.ioCanFail = true → s.ioAnswers = .fail :: rest →
      exec i s = .next
        { s with
          out := (match e with | .wr q _ => s.out.set q none | _ => s.out)
          phase := .faulted
          seq := .idle
          fault := .ioFault p
          trace := ⟨e, some p⟩ :: s.trace
          ioAnswers := rest }

/-- R74, R160, V-F3: `PRESENT(n)` whose write to line `j` fails: the lines before it are written, it has no value, the lines after it keep
their levels, and the fault is taken. -/
def Obligations.FailingPresentTakesIoFault : Prop :=
  ∀ (i : Instr) (k : Nat) (n : Nibble) (s : State) (rest : List IoOutcome),
    i ≠ .shutdown → s.seq = .busy i k → (eventsOf s.params s.phase i)[k]? = some (.data n) → s.dir = PinFile.all .output →
    s.params.ioCanFail = true →
      (s.ioAnswers = .fail :: rest → ∃ t, exec i s = .next t ∧ t.fault = .ioFault .d0 ∧ t.phase = .faulted ∧ t.seq = .idle ∧
        t.out = { s.out with d0 := none } ∧ t.dir = s.dir) ∧
      (s.ioAnswers = .ok :: .fail :: rest → ∃ t, exec i s = .next t ∧ t.fault = .ioFault .d1 ∧ t.phase = .faulted ∧
        t.seq = .idle ∧ t.out = { s.out with d0 := some (nibbleLevel n 0), d1 := none } ∧ t.dir = s.dir) ∧
      (s.ioAnswers = .ok :: .ok :: .fail :: rest → ∃ t, exec i s = .next t ∧ t.fault = .ioFault .d2 ∧ t.phase = .faulted ∧
        t.seq = .idle ∧ t.out = { s.out with d0 := some (nibbleLevel n 0), d1 := some (nibbleLevel n 1), d2 := none } ∧
        t.dir = s.dir) ∧
      (s.ioAnswers = .ok :: .ok :: .ok :: .fail :: rest → ∃ t, exec i s = .next t ∧ t.fault = .ioFault .d3 ∧
        t.phase = .faulted ∧ t.seq = .idle ∧ t.dir = s.dir ∧
        t.out = { s.out with d0 := some (nibbleLevel n 0), d1 := some (nibbleLevel n 1), d2 := some (nibbleLevel n 2), d3 := none })

/-- R126, V-Y4: a failing write in the clear of the cleanup, the first one at acceptance and a line of a `Data` event included, abandons the rest
of the clear and raises nothing: the first release is next. That acceptance performs the first event (log entry 11), what a failed write leaves
there (log entry 14) and that it enters the trace with its pin (log entry 18) is the model's (DEDUCED). -/
def Obligations.CleanupSwallowsFailure : Prop :=
  ∀ (k : Nat) (s : State) (rest : List IoOutcome),
    s.phase = .ready → (s.seq = .busy .shutdown k ∨ s.seq = .idle ∧ k = 0) → k < 14 → s.dir = PinFile.all .output →
    s.params.ioCanFail = true →
      (∀ (p : Pin) (v : Level), (shutdownEvents s.params .ready)[k]? = some (.wr p v) → s.ioAnswers = .fail :: rest →
        exec .shutdown s = .next
          { s with
            out := s.out.set p none
            seq := .busy .shutdown 14
            trace := ⟨.wr p v, some p⟩ :: s.trace
            ioAnswers := rest }) ∧
      (∀ (n : Nibble) (p : Pin) (out' : PinFile (Option Level)), (shutdownEvents s.params .ready)[k]? = some (.data n) →
        ((p = .d0 ∧ s.ioAnswers = .fail :: rest ∧ out' = { s.out with d0 := none }) ∨
          (p = .d1 ∧ s.ioAnswers = .ok :: .fail :: rest ∧ out' = { s.out with d0 := some (nibbleLevel n 0), d1 := none }) ∨
          (p = .d2 ∧ s.ioAnswers = .ok :: .ok :: .fail :: rest ∧
            out' = { s.out with d0 := some (nibbleLevel n 0), d1 := some (nibbleLevel n 1), d2 := none }) ∨
          (p = .d3 ∧ s.ioAnswers = .ok :: .ok :: .ok :: .fail :: rest ∧
            out' = { s.out with
              d0 := some (nibbleLevel n 0), d1 := some (nibbleLevel n 1), d2 := some (nibbleLevel n 2), d3 := none })) →
        exec .shutdown s = .next
          { s with
            out := out'
            seq := .busy .shutdown 14
            trace := ⟨.data n, some p⟩ :: s.trace
            ioAnswers := rest })

/-- R126: a failing `Rel` is skipped and raises nothing: the cleanup goes on with the next claimed pin, or it ends in DOWN. That acceptance
performs the first event (log entry 11), that the pin stays claimed with its level (log entry 14) and that the event enters the trace with its
pin (log entry 18) is the model's (DEDUCED). -/
def Obligations.CleanupSkipsFailingRelease : Prop :=
  ∀ (k : Nat) (p : Pin) (s : State) (rest : List IoOutcome),
    CleanupAtEvent k s → (shutdownEvents s.params s.phase)[k]? = some (.rel p) → s.dir.get p = .output →
    s.params.ioCanFail = true → s.ioAnswers = .fail :: rest →
      ∃ t, exec .shutdown s = .next t ∧ t.trace = ⟨.rel p, some p⟩ :: s.trace ∧ t.out = s.out ∧ t.dir = s.dir ∧
        t.fault = s.fault ∧ t.ioAnswers = rest ∧
        ((t.seq = .idle ∧ t.phase = .down ∧
            ∀ j q, k < j → (shutdownEvents s.params s.phase)[j]? = some (.rel q) → s.dir.get q = .unconfigured) ∨
          ∃ j q, k < j ∧ (shutdownEvents s.params s.phase)[j]? = some (.rel q) ∧ s.dir.get q = .output ∧
            t.seq = .busy .shutdown j ∧ t.phase = s.phase ∧
            ∀ j', k < j' → j' < j → ∃ q', (shutdownEvents s.params s.phase)[j']? = some (.rel q') ∧ s.dir.get q' = .unconfigured)

/-! ## The optional status word, and the host around the block -/

/-- R21: the layout of the optional status word, and its reset value. -/
def Obligations.StatusWordLayout : Prop :=
  statusWord State.reset = 0b0000#4 ∧
  ∀ s : State,
    ((statusWord s).getLsbD 0 = true ↔ s.seq ≠ .idle) ∧
    ((statusWord s).extractLsb' 1 2 = match s.phase with | .uninit => 0#2 | .ready => 1#2 | .down => 2#2 | .faulted => 3#2) ∧
    ((statusWord s).getLsbD 3 = true ↔ s.fault ≠ .none)

/-- R150 (context, not the block): the host's state is SHOWING_MAC if the last sample had the button pressed, else SHOWING_IP if it had an
IP address, else WAITING. -/
def Obligations.HostShowsTheLastSample : Prop :=
  ∀ (h : HostState) (xs : List Sample) (x : Sample),
    (hostAfter h (xs ++ [x])).shown =
      if x.pressed then .showingMac else if x.ip.isSome then .showingIp else .waiting

/-- R150 (context, not the block): of two consecutive ticks with the same sample the second issues no command. -/
def Obligations.HostRendersOnlyChanges : Prop :=
  ∀ (h : HostState) (x : Sample), (hostTick (hostTick h x).1 x).2 = []
end

