-- ==== Sys2Proof/Laws/Pins.lean ====
section
/-! SUPPORT. Laws/Pins.lean: reading a cell after writing one. -/

namespace Sys2Proof.Machine

@[simp] theorem PinFile.get_set_same {α : Type} (f : PinFile α) (p : Pin) (v : α) : (f.set p v).get p = v := by
  cases p <;> rfl

theorem PinFile.get_set_other {α : Type} (f : PinFile α) {p q : Pin} (v : α) (h : q ≠ p) : (f.set p v).get q = f.get q := by
  cases p <;> cases q <;> first | rfl | exact absurd rfl h

theorem PinFile.get_set {α : Type} (f : PinFile α) (p q : Pin) (v : α) :
    (f.set p v).get q = if q = p then v else f.get q := by
  by_cases h : q = p
  · subst h; simp
  · simp [h, PinFile.get_set_other f v h]

@[simp] theorem PinFile.get_all {α : Type} (v : α) (p : Pin) : (PinFile.all v).get p = v := by
  cases p <;> rfl

@[ext] theorem PinFile.ext_get {α : Type} {f g : PinFile α} (h : ∀ p, f.get p = g.get p) : f = g := by
  have h0 := h .d0
  have h1 := h .d1
  have h2 := h .d2
  have h3 := h .d3
  have h4 := h .e
  have h5 := h .rs
  cases f; cases g; simp_all [PinFile.get]

theorem PinFile.eq_all_iff {α : Type} (f : PinFile α) (v : α) : f = PinFile.all v ↔ ∀ p, f.get p = v :=
  ⟨fun h p => by rw [h, PinFile.get_all], fun h => PinFile.ext_get fun p => by rw [h p, PinFile.get_all]⟩

end Sys2Proof.Machine
end

