-- ==== Sys2Proof/Laws/State.lean ====
section
/-! SUPPORT. Laws/State.lean: one lemma for each field of the state under each named update, so that no later proof unfolds one. -/

namespace Sys2Proof.Machine

@[simp] theorem State.setOut_dir (s : State) (p : Pin) (v : Option Level) : (s.setOut p v).dir = s.dir := rfl
@[simp] theorem State.setOut_out (s : State) (p : Pin) (v : Option Level) : (s.setOut p v).out = s.out.set p v := rfl
@[simp] theorem State.setOut_phase (s : State) (p : Pin) (v : Option Level) : (s.setOut p v).phase = s.phase := rfl
@[simp] theorem State.setOut_seq (s : State) (p : Pin) (v : Option Level) : (s.setOut p v).seq = s.seq := rfl
@[simp] theorem State.setOut_fault (s : State) (p : Pin) (v : Option Level) : (s.setOut p v).fault = s.fault := rfl
@[simp] theorem State.setOut_irqPending (s : State) (p : Pin) (v : Option Level) : (s.setOut p v).irqPending = s.irqPending := rfl
@[simp] theorem State.setOut_params (s : State) (p : Pin) (v : Option Level) : (s.setOut p v).params = s.params := rfl
@[simp] theorem State.setOut_trace (s : State) (p : Pin) (v : Option Level) : (s.setOut p v).trace = s.trace := rfl
@[simp] theorem State.setOut_host (s : State) (p : Pin) (v : Option Level) : (s.setOut p v).host = s.host := rfl
@[simp] theorem State.setOut_irqLine (s : State) (p : Pin) (v : Option Level) : (s.setOut p v).irqLine = s.irqLine := rfl
@[simp] theorem State.setOut_ioAnswers (s : State) (p : Pin) (v : Option Level) : (s.setOut p v).ioAnswers = s.ioAnswers := rfl
@[simp] theorem State.setOut_ioDraws (s : State) (p : Pin) (v : Option Level) : (s.setOut p v).ioDraws = s.ioDraws := rfl

@[simp] theorem State.setDir_dir (s : State) (p : Pin) (d : Dir) : (s.setDir p d).dir = s.dir.set p d := rfl
@[simp] theorem State.setDir_out (s : State) (p : Pin) (d : Dir) : (s.setDir p d).out = s.out := rfl
@[simp] theorem State.setDir_phase (s : State) (p : Pin) (d : Dir) : (s.setDir p d).phase = s.phase := rfl
@[simp] theorem State.setDir_seq (s : State) (p : Pin) (d : Dir) : (s.setDir p d).seq = s.seq := rfl
@[simp] theorem State.setDir_fault (s : State) (p : Pin) (d : Dir) : (s.setDir p d).fault = s.fault := rfl
@[simp] theorem State.setDir_irqPending (s : State) (p : Pin) (d : Dir) : (s.setDir p d).irqPending = s.irqPending := rfl
@[simp] theorem State.setDir_params (s : State) (p : Pin) (d : Dir) : (s.setDir p d).params = s.params := rfl
@[simp] theorem State.setDir_trace (s : State) (p : Pin) (d : Dir) : (s.setDir p d).trace = s.trace := rfl
@[simp] theorem State.setDir_host (s : State) (p : Pin) (d : Dir) : (s.setDir p d).host = s.host := rfl
@[simp] theorem State.setDir_irqLine (s : State) (p : Pin) (d : Dir) : (s.setDir p d).irqLine = s.irqLine := rfl
@[simp] theorem State.setDir_ioAnswers (s : State) (p : Pin) (d : Dir) : (s.setDir p d).ioAnswers = s.ioAnswers := rfl
@[simp] theorem State.setDir_ioDraws (s : State) (p : Pin) (d : Dir) : (s.setDir p d).ioDraws = s.ioDraws := rfl

@[simp] theorem State.setPhase_dir (s : State) (ph : Phase) : (s.setPhase ph).dir = s.dir := rfl
@[simp] theorem State.setPhase_out (s : State) (ph : Phase) : (s.setPhase ph).out = s.out := rfl
@[simp] theorem State.setPhase_phase (s : State) (ph : Phase) : (s.setPhase ph).phase = ph := rfl
@[simp] theorem State.setPhase_seq (s : State) (ph : Phase) : (s.setPhase ph).seq = s.seq := rfl
@[simp] theorem State.setPhase_fault (s : State) (ph : Phase) : (s.setPhase ph).fault = s.fault := rfl
@[simp] theorem State.setPhase_irqPending (s : State) (ph : Phase) : (s.setPhase ph).irqPending = s.irqPending := rfl
@[simp] theorem State.setPhase_params (s : State) (ph : Phase) : (s.setPhase ph).params = s.params := rfl
@[simp] theorem State.setPhase_trace (s : State) (ph : Phase) : (s.setPhase ph).trace = s.trace := rfl
@[simp] theorem State.setPhase_host (s : State) (ph : Phase) : (s.setPhase ph).host = s.host := rfl
@[simp] theorem State.setPhase_irqLine (s : State) (ph : Phase) : (s.setPhase ph).irqLine = s.irqLine := rfl
@[simp] theorem State.setPhase_ioAnswers (s : State) (ph : Phase) : (s.setPhase ph).ioAnswers = s.ioAnswers := rfl
@[simp] theorem State.setPhase_ioDraws (s : State) (ph : Phase) : (s.setPhase ph).ioDraws = s.ioDraws := rfl

@[simp] theorem State.setSeq_dir (s : State) (q : Seq) : (s.setSeq q).dir = s.dir := rfl
@[simp] theorem State.setSeq_out (s : State) (q : Seq) : (s.setSeq q).out = s.out := rfl
@[simp] theorem State.setSeq_phase (s : State) (q : Seq) : (s.setSeq q).phase = s.phase := rfl
@[simp] theorem State.setSeq_seq (s : State) (q : Seq) : (s.setSeq q).seq = q := rfl
@[simp] theorem State.setSeq_fault (s : State) (q : Seq) : (s.setSeq q).fault = s.fault := rfl
@[simp] theorem State.setSeq_irqPending (s : State) (q : Seq) : (s.setSeq q).irqPending = s.irqPending := rfl
@[simp] theorem State.setSeq_params (s : State) (q : Seq) : (s.setSeq q).params = s.params := rfl
@[simp] theorem State.setSeq_trace (s : State) (q : Seq) : (s.setSeq q).trace = s.trace := rfl
@[simp] theorem State.setSeq_host (s : State) (q : Seq) : (s.setSeq q).host = s.host := rfl
@[simp] theorem State.setSeq_irqLine (s : State) (q : Seq) : (s.setSeq q).irqLine = s.irqLine := rfl
@[simp] theorem State.setSeq_ioAnswers (s : State) (q : Seq) : (s.setSeq q).ioAnswers = s.ioAnswers := rfl
@[simp] theorem State.setSeq_ioDraws (s : State) (q : Seq) : (s.setSeq q).ioDraws = s.ioDraws := rfl

@[simp] theorem State.record_dir (s : State) (e : Event) (f : Option Pin) : (s.record e f).dir = s.dir := rfl
@[simp] theorem State.record_out (s : State) (e : Event) (f : Option Pin) : (s.record e f).out = s.out := rfl
@[simp] theorem State.record_phase (s : State) (e : Event) (f : Option Pin) : (s.record e f).phase = s.phase := rfl
@[simp] theorem State.record_seq (s : State) (e : Event) (f : Option Pin) : (s.record e f).seq = s.seq := rfl
@[simp] theorem State.record_fault (s : State) (e : Event) (f : Option Pin) : (s.record e f).fault = s.fault := rfl
@[simp] theorem State.record_irqPending (s : State) (e : Event) (f : Option Pin) : (s.record e f).irqPending = s.irqPending := rfl
@[simp] theorem State.record_params (s : State) (e : Event) (f : Option Pin) : (s.record e f).params = s.params := rfl
@[simp] theorem State.record_trace (s : State) (e : Event) (f : Option Pin) : (s.record e f).trace = ⟨e, f⟩ :: s.trace := rfl
@[simp] theorem State.record_host (s : State) (e : Event) (f : Option Pin) : (s.record e f).host = s.host := rfl
@[simp] theorem State.record_irqLine (s : State) (e : Event) (f : Option Pin) : (s.record e f).irqLine = s.irqLine := rfl
@[simp] theorem State.record_ioAnswers (s : State) (e : Event) (f : Option Pin) : (s.record e f).ioAnswers = s.ioAnswers := rfl
@[simp] theorem State.record_ioDraws (s : State) (e : Event) (f : Option Pin) : (s.record e f).ioDraws = s.ioDraws := rfl

@[simp] theorem raiseIoFault_dir (p : Pin) (s : State) : (raiseIoFault p s).dir = s.dir := rfl
@[simp] theorem raiseIoFault_out (p : Pin) (s : State) : (raiseIoFault p s).out = s.out := rfl
@[simp] theorem raiseIoFault_phase (p : Pin) (s : State) : (raiseIoFault p s).phase = .faulted := rfl
@[simp] theorem raiseIoFault_seq (p : Pin) (s : State) : (raiseIoFault p s).seq = .idle := rfl
@[simp] theorem raiseIoFault_fault (p : Pin) (s : State) : (raiseIoFault p s).fault = .ioFault p := rfl
@[simp] theorem raiseIoFault_irqPending (p : Pin) (s : State) : (raiseIoFault p s).irqPending = s.irqPending := rfl
@[simp] theorem raiseIoFault_params (p : Pin) (s : State) : (raiseIoFault p s).params = s.params := rfl
@[simp] theorem raiseIoFault_trace (p : Pin) (s : State) : (raiseIoFault p s).trace = s.trace := rfl
@[simp] theorem raiseIoFault_host (p : Pin) (s : State) : (raiseIoFault p s).host = s.host := rfl
@[simp] theorem raiseIoFault_irqLine (p : Pin) (s : State) : (raiseIoFault p s).irqLine = s.irqLine := rfl
@[simp] theorem raiseIoFault_ioAnswers (p : Pin) (s : State) : (raiseIoFault p s).ioAnswers = s.ioAnswers := rfl
@[simp] theorem raiseIoFault_ioDraws (p : Pin) (s : State) : (raiseIoFault p s).ioDraws = s.ioDraws := rfl

@[simp] theorem State.sampleIrq_dir (s : State) : s.sampleIrq.dir = s.dir := by unfold State.sampleIrq; split <;> rfl
@[simp] theorem State.sampleIrq_out (s : State) : s.sampleIrq.out = s.out := by unfold State.sampleIrq; split <;> rfl
@[simp] theorem State.sampleIrq_phase (s : State) : s.sampleIrq.phase = s.phase := by unfold State.sampleIrq; split <;> rfl
@[simp] theorem State.sampleIrq_seq (s : State) : s.sampleIrq.seq = s.seq := by unfold State.sampleIrq; split <;> rfl
@[simp] theorem State.sampleIrq_fault (s : State) : s.sampleIrq.fault = s.fault := by unfold State.sampleIrq; split <;> rfl
@[simp] theorem State.sampleIrq_params (s : State) : s.sampleIrq.params = s.params := by unfold State.sampleIrq; split <;> rfl
@[simp] theorem State.sampleIrq_trace (s : State) : s.sampleIrq.trace = s.trace := by unfold State.sampleIrq; split <;> rfl
@[simp] theorem State.sampleIrq_host (s : State) : s.sampleIrq.host = s.host := by unfold State.sampleIrq; split <;> rfl
@[simp] theorem State.sampleIrq_ioAnswers (s : State) : s.sampleIrq.ioAnswers = s.ioAnswers := by unfold State.sampleIrq; split <;> rfl
@[simp] theorem State.sampleIrq_ioDraws (s : State) : s.sampleIrq.ioDraws = s.ioDraws := by unfold State.sampleIrq; split <;> rfl
@[simp] theorem State.sampleIrq_irqPending (s : State) : s.sampleIrq.irqPending = (s.irqPending || s.irqLine.headD false) := by
  unfold State.sampleIrq; split <;> simp_all
@[simp] theorem State.sampleIrq_irqLine (s : State) : s.sampleIrq.irqLine = s.irqLine.tail := by
  unfold State.sampleIrq; split <;> simp_all

@[simp] theorem State.drawIo_dir (s : State) : s.drawIo.2.dir = s.dir := by unfold State.drawIo; split <;> (try split) <;> rfl
@[simp] theorem State.drawIo_out (s : State) : s.drawIo.2.out = s.out := by unfold State.drawIo; split <;> (try split) <;> rfl
@[simp] theorem State.drawIo_phase (s : State) : s.drawIo.2.phase = s.phase := by unfold State.drawIo; split <;> (try split) <;> rfl
@[simp] theorem State.drawIo_seq (s : State) : s.drawIo.2.seq = s.seq := by unfold State.drawIo; split <;> (try split) <;> rfl
@[simp] theorem State.drawIo_fault (s : State) : s.drawIo.2.fault = s.fault := by unfold State.drawIo; split <;> (try split) <;> rfl
@[simp] theorem State.drawIo_irqPending (s : State) : s.drawIo.2.irqPending = s.irqPending := by unfold State.drawIo; split <;> (try split) <;> rfl
@[simp] theorem State.drawIo_params (s : State) : s.drawIo.2.params = s.params := by unfold State.drawIo; split <;> (try split) <;> rfl
@[simp] theorem State.drawIo_trace (s : State) : s.drawIo.2.trace = s.trace := by unfold State.drawIo; split <;> (try split) <;> rfl
@[simp] theorem State.drawIo_host (s : State) : s.drawIo.2.host = s.host := by unfold State.drawIo; split <;> (try split) <;> rfl
@[simp] theorem State.drawIo_irqLine (s : State) : s.drawIo.2.irqLine = s.irqLine := by unfold State.drawIo; split <;> (try split) <;> rfl

/-- Where `IO_CAN_FAIL` does not hold, every call succeeds and nothing is drawn (R161). -/
theorem State.drawIo_reliable (s : State) (h : s.params.ioCanFail = false) : s.drawIo = (.ok, s) := by
  simp [State.drawIo, h]

/-- Two states are equal when their fields are. -/
theorem State.ext_fields (s t : State) (h1 : s.dir = t.dir) (h2 : s.out = t.out) (h3 : s.phase = t.phase) (h4 : s.seq = t.seq)
    (h5 : s.fault = t.fault) (h6 : s.irqPending = t.irqPending) (h7 : s.params = t.params) (h8 : s.trace = t.trace)
    (h9 : s.host = t.host) (h10 : s.irqLine = t.irqLine) (h11 : s.ioAnswers = t.ioAnswers) (h12 : s.ioDraws = t.ioDraws) :
    s = t := by
  cases s; cases t; simp_all

end Sys2Proof.Machine
end

