-- ==== Sys2Proof/Laws/Ops.lean ====
section
/-! SUPPORT. Laws/Ops.lean: what each operation on the pins can do, said once. -/

namespace Sys2Proof.Machine

/-- What a pin event leaves alone, whatever comes of its calls: everything but the pins and the environment's answers. -/
structure KeepsControl (s t : State) : Prop where
  phase : t.phase = s.phase
  seq : t.seq = s.seq
  fault : t.fault = s.fault
  irqPending : t.irqPending = s.irqPending
  params : t.params = s.params
  trace : t.trace = s.trace
  host : t.host = s.host
  irqLine : t.irqLine = s.irqLine

theorem KeepsControl.refl (s : State) : KeepsControl s s := ⟨rfl, rfl, rfl, rfl, rfl, rfl, rfl, rfl⟩

theorem KeepsControl.trans {s t u : State} (h : KeepsControl s t) (g : KeepsControl t u) : KeepsControl s u :=
  ⟨g.phase.trans h.phase, g.seq.trans h.seq, g.fault.trans h.fault, g.irqPending.trans h.irqPending, g.params.trans h.params,
    g.trace.trans h.trace, g.host.trans h.host, g.irqLine.trans h.irqLine⟩

theorem keepsControl_drawIo (s : State) : KeepsControl s s.drawIo.2 := by constructor <;> simp

/-- `Wr` answers in one of three ways (R71). -/
theorem writePin_cases (p : Pin) (v : Level) (s : State) :
    (s.dir.get p = .output ∧ s.drawIo.1 = .ok ∧ writePin p v s = .done (s.drawIo.2.setOut p (some v))) ∨
    (s.dir.get p = .output ∧ s.drawIo.1 = .fail ∧ writePin p v s = .failed p (s.drawIo.2.setOut p none)) ∨
    (s.dir.get p ≠ .output ∧ writePin p v s = .refused .writeUnconfiguredPin) := by
  unfold writePin
  by_cases hd : s.dir.get p = .output
  · rcases hio : s.drawIo with ⟨_ | _, s1⟩ <;> simp [hd]
  · simp [hd]

/-- `Cfg` answers in one of three ways (R73). -/
theorem configurePin_cases (p : Pin) (s : State) :
    (s.dir.get p = .unconfigured ∧ s.drawIo.1 = .ok ∧
      configurePin p s = .done ((s.drawIo.2.setDir p .output).setOut p (some .low))) ∨
    (s.dir.get p = .unconfigured ∧ s.drawIo.1 = .fail ∧ configurePin p s = .failed p s.drawIo.2) ∨
    (s.dir.get p ≠ .unconfigured ∧ configurePin p s = .refused .configureClaimedPin) := by
  unfold configurePin
  by_cases hd : s.dir.get p = .unconfigured
  · rcases hio : s.drawIo with ⟨_ | _, s1⟩ <;> simp [hd]
  · simp [hd]

/-- `Rel` answers in one of three ways (R73, R126). -/
theorem releasePin_cases (p : Pin) (s : State) :
    (s.dir.get p = .output ∧ s.drawIo.1 = .ok ∧
      releasePin p s = .done ((s.drawIo.2.setDir p .unconfigured).setOut p none)) ∨
    (s.dir.get p = .output ∧ s.drawIo.1 = .fail ∧ releasePin p s = .failed p s.drawIo.2) ∨
    (s.dir.get p ≠ .output ∧ releasePin p s = .refused .releaseUnclaimedPin) := by
  unfold releasePin
  by_cases hd : s.dir.get p = .output
  · rcases hio : s.drawIo with ⟨_ | _, s1⟩ <;> simp [hd]
  · simp [hd]

theorem writePin_reliable (p : Pin) (v : Level) (s : State) (h : s.params.ioCanFail = false) (hd : s.dir.get p = .output) :
    writePin p v s = .done (s.setOut p (some v)) := by
  simp [writePin, hd, State.drawIo_reliable s h]

theorem configurePin_reliable (p : Pin) (s : State) (h : s.params.ioCanFail = false) (hd : s.dir.get p = .unconfigured) :
    configurePin p s = .done ((s.setDir p .output).setOut p (some .low)) := by
  simp [configurePin, hd, State.drawIo_reliable s h]

theorem releasePin_reliable (p : Pin) (s : State) (h : s.params.ioCanFail = false) (hd : s.dir.get p = .output) :
    releasePin p s = .done ((s.setDir p .unconfigured).setOut p none) := by
  simp [releasePin, hd, State.drawIo_reliable s h]

theorem present_reliable (n : Nibble) (s : State) (h : s.params.ioCanFail = false) (h0 : s.dir.get .d0 = .output)
    (h1 : s.dir.get .d1 = .output) (h2 : s.dir.get .d2 = .output) (h3 : s.dir.get .d3 = .output) :
    present n s = .done { s with out := presentOut n s.out } := by
  unfold present
  rw [writePin_reliable .d0 _ s h h0]
  simp only [Performed.andThen]
  rw [writePin_reliable .d1 _ (s.setOut .d0 (some (nibbleLevel n 0))) (by simpa using h) (by simpa using h1)]
  dsimp only
  rw [writePin_reliable .d2 _ ((s.setOut .d0 (some (nibbleLevel n 0))).setOut .d1 (some (nibbleLevel n 1)))
    (by simpa using h) (by simpa using h2)]
  dsimp only
  rw [writePin_reliable .d3 _ _ (by simpa using h) (by simpa using h3)]
  rfl

/-- Whatever comes of one write, the control state and the directions stay. -/
theorem writePin_keeps (p : Pin) (v : Level) (s : State) :
    (∀ t, writePin p v s = .done t → KeepsControl s t ∧ t.dir = s.dir ∧ t.out = s.out.set p (some v)) ∧
    (∀ q t, writePin p v s = .failed q t → q = p ∧ KeepsControl s t ∧ t.dir = s.dir ∧ t.out = s.out.set p none) := by
  rcases writePin_cases p v s with ⟨-, -, hw⟩ | ⟨-, -, hw⟩ | ⟨-, hw⟩ <;> rw [hw]
  · refine ⟨fun t ht => ?_, fun q t ht => by simp at ht⟩
    obtain rfl : s.drawIo.2.setOut p (some v) = t := by simpa using ht
    exact ⟨by constructor <;> simp, by simp, by simp⟩
  · refine ⟨fun t ht => by simp at ht, fun q t ht => ?_⟩
    obtain ⟨rfl, rfl⟩ : p = q ∧ s.drawIo.2.setOut p none = t := by simpa using ht
    exact ⟨rfl, by constructor <;> simp, by simp, by simp⟩
  · exact ⟨fun t ht => by simp at ht, fun q t ht => by simp at ht⟩

/-- A sequence of performed pieces succeeded only if each did (R81). -/
theorem Performed.andThen_done {r : Performed} {f : State → Performed} {t : State} (h : r.andThen f = .done t) :
    ∃ u, r = .done u ∧ f u = .done t := by
  cases r with
  | done u => exact ⟨u, rfl, h⟩
  | failed p u => simp [Performed.andThen] at h
  | refused x => simp [Performed.andThen] at h

/-- A sequence failed where its first failing piece did (R81). -/
theorem Performed.andThen_failed {r : Performed} {f : State → Performed} {p : Pin} {t : State} (h : r.andThen f = .failed p t) :
    r = .failed p t ∨ ∃ u, r = .done u ∧ f u = .failed p t := by
  cases r with
  | done u => exact .inr ⟨u, rfl, h⟩
  | failed q u => exact .inl h
  | refused x => simp [Performed.andThen] at h

/-- `PRESENT(n)` succeeded: all four lines are written (R74). -/
theorem present_done {n : Nibble} {s t : State} (h : present n s = .done t) :
    KeepsControl s t ∧ t.dir = s.dir ∧ t.out = presentOut n s.out := by
  unfold present at h
  obtain ⟨s3, h3, h⟩ := Performed.andThen_done h
  obtain ⟨s2, h2, h3⟩ := Performed.andThen_done h3
  obtain ⟨s1, h1, h2⟩ := Performed.andThen_done h2
  obtain ⟨k1, d1, o1⟩ := (writePin_keeps _ _ _).1 _ h1
  obtain ⟨k2, d2, o2⟩ := (writePin_keeps _ _ _).1 _ h2
  obtain ⟨k3, d3, o3⟩ := (writePin_keeps _ _ _).1 _ h3
  obtain ⟨k4, d4, o4⟩ := (writePin_keeps _ _ _).1 _ h
  exact ⟨((k1.trans k2).trans k3).trans k4, by rw [d4, d3, d2, d1], by rw [o4, o3, o2, o1]; rfl⟩

/-- `PRESENT(n)` failed at one of the four data lines (R74). -/
theorem present_failed {n : Nibble} {s t : State} {p : Pin} (h : present n s = .failed p t) :
    p ∈ [Pin.d0, .d1, .d2, .d3] ∧ KeepsControl s t ∧ t.dir = s.dir ∧ t.out = presentFailedOut n p s.out := by
  unfold present at h
  rcases Performed.andThen_failed h with h | ⟨s3, h3, h⟩
  · rcases Performed.andThen_failed h with h | ⟨s2, h2, h⟩
    · rcases Performed.andThen_failed h with h | ⟨s1, h1, h⟩
      · obtain ⟨rfl, k, d, o⟩ := (writePin_keeps _ _ _).2 _ _ h
        exact ⟨by simp, k, d, o⟩
      · obtain ⟨k1, d1, o1⟩ := (writePin_keeps _ _ _).1 _ h1
        obtain ⟨rfl, k, d, o⟩ := (writePin_keeps _ _ _).2 _ _ h
        exact ⟨by simp, k1.trans k, by rw [d, d1], by rw [o, o1]; rfl⟩
    · obtain ⟨s1, h1, h2⟩ := Performed.andThen_done h2
      obtain ⟨k1, d1, o1⟩ := (writePin_keeps _ _ _).1 _ h1
      obtain ⟨k2, d2, o2⟩ := (writePin_keeps _ _ _).1 _ h2
      obtain ⟨rfl, k, d, o⟩ := (writePin_keeps _ _ _).2 _ _ h
      exact ⟨by simp, (k1.trans k2).trans k, by rw [d, d2, d1], by rw [o, o2, o1]; rfl⟩
  · obtain ⟨s2, h2, h3⟩ := Performed.andThen_done h3
    obtain ⟨s1, h1, h2⟩ := Performed.andThen_done h2
    obtain ⟨k1, d1, o1⟩ := (writePin_keeps _ _ _).1 _ h1
    obtain ⟨k2, d2, o2⟩ := (writePin_keeps _ _ _).1 _ h2
    obtain ⟨k3, d3, o3⟩ := (writePin_keeps _ _ _).1 _ h3
    obtain ⟨rfl, k, d, o⟩ := (writePin_keeps _ _ _).2 _ _ h
    exact ⟨by simp, ((k1.trans k2).trans k3).trans k, by rw [d, d3, d2, d1], by rw [o, o3, o2, o1]; rfl⟩

/-- `PRESENT(n)` with the four lines configured is not refused. -/
theorem present_not_refused (n : Nibble) (s : State) (r : Refusal) (h0 : s.dir.get .d0 = .output) (h1 : s.dir.get .d1 = .output)
    (h2 : s.dir.get .d2 = .output) (h3 : s.dir.get .d3 = .output) : present n s ≠ .refused r := by
  have step : ∀ (p : Pin) (v : Level) (u : State), u.dir.get p = .output → writePin p v u ≠ .refused r := by
    intro p v u hu hr
    rcases writePin_cases p v u with ⟨-, -, hw⟩ | ⟨-, -, hw⟩ | ⟨hn, -⟩
    · simp [hw] at hr
    · simp [hw] at hr
    · exact hn hu
  have chain : ∀ (x : Performed) (f : State → Performed), x ≠ .refused r → (∀ u, x = .done u → f u ≠ .refused r) →
      x.andThen f ≠ .refused r := by
    intro x f hx hf
    cases x with
    | done u => exact hf u rfl
    | failed p u => simp [Performed.andThen]
    | refused y => exact hx
  unfold present
  refine chain _ _ (chain _ _ (chain _ _ (step _ _ _ h0) fun u hu => ?_) fun u hu => ?_) fun u hu => ?_
  · have d1 := ((writePin_keeps _ _ _).1 _ hu).2.1
    exact step _ _ _ (by rw [d1]; exact h1)
  · obtain ⟨s1, hs1, hu⟩ := Performed.andThen_done hu
    have d1 := ((writePin_keeps _ _ _).1 _ hs1).2.1
    have d2 := ((writePin_keeps _ _ _).1 _ hu).2.1
    exact step _ _ _ (by rw [d2, d1]; exact h2)
  · obtain ⟨s2, hs2, hu⟩ := Performed.andThen_done hu
    obtain ⟨s1, hs1, hs2⟩ := Performed.andThen_done hs2
    have d1 := ((writePin_keeps _ _ _).1 _ hs1).2.1
    have d2 := ((writePin_keeps _ _ _).1 _ hs2).2.1
    have d3 := ((writePin_keeps _ _ _).1 _ hu).2.1
    exact step _ _ _ (by rw [d3, d2, d1]; exact h3)

/-- A pin event succeeded: the effect of R70's table, and nothing else but the environment's answers. -/
theorem performEvent_done {e : Event} {s t : State} (h : performEvent e s = .done t) :
    KeepsControl s t ∧ t.dir = e.dirAfter s.dir ∧ t.out = e.outAfter s.out := by
  cases e with
  | cfg p =>
    rcases configurePin_cases p s with ⟨-, -, hw⟩ | ⟨-, -, hw⟩ | ⟨-, hw⟩ <;> rw [performEvent, hw] at h
    · obtain rfl : _ = t := by simpa using h
      exact ⟨by constructor <;> simp, by simp [Event.dirAfter], by simp [Event.outAfter]⟩
    · simp at h
    · simp at h
  | wr p v => exact (writePin_keeps p v s).1 t h
  | data n => exact present_done h
  | rel p =>
    rcases releasePin_cases p s with ⟨-, -, hw⟩ | ⟨-, -, hw⟩ | ⟨-, hw⟩ <;> rw [performEvent, hw] at h
    · obtain rfl : _ = t := by simpa using h
      exact ⟨by constructor <;> simp, by simp [Event.dirAfter], by simp [Event.outAfter]⟩
    · simp at h
    · simp at h
  | dly d =>
    obtain rfl : s = t := by simpa [performEvent] using h
    exact ⟨.refl s, rfl, rfl⟩

/-- A pin event failed: at one of its own pins, whose latch loses its value if it was being written (R71, R73, R74). -/
theorem performEvent_failed {e : Event} {s t : State} {p : Pin} (h : performEvent e s = .failed p t) :
    p ∈ e.pins ∧ KeepsControl s t ∧ t.dir = s.dir ∧ t.out = e.outFailed p s.out := by
  cases e with
  | cfg q =>
    rcases configurePin_cases q s with ⟨-, -, hw⟩ | ⟨-, -, hw⟩ | ⟨-, hw⟩ <;> rw [performEvent, hw] at h
    · simp at h
    · obtain ⟨rfl, rfl⟩ : q = p ∧ s.drawIo.2 = t := by simpa using h
      exact ⟨by simp [Event.pins], keepsControl_drawIo s, by simp, by simp [Event.outFailed]⟩
    · simp at h
  | wr q v =>
    obtain ⟨rfl, k, d, o⟩ := (writePin_keeps q v s).2 _ _ h
    exact ⟨by simp [Event.pins], k, d, by simpa [Event.outFailed] using o⟩
  | data n => exact present_failed h
  | rel q =>
    rcases releasePin_cases q s with ⟨-, -, hw⟩ | ⟨-, -, hw⟩ | ⟨-, hw⟩ <;> rw [performEvent, hw] at h
    · simp at h
    · obtain ⟨rfl, rfl⟩ : q = p ∧ s.drawIo.2 = t := by simpa using h
      exact ⟨by simp [Event.pins], keepsControl_drawIo s, by simp, by simp [Event.outFailed]⟩
    · simp at h
  | dly d => simp [performEvent] at h

/-- Where calls cannot fail, an event whose precondition holds has exactly its effect (R70, R81). -/
theorem performEvent_reliable (e : Event) (s : State) (h : s.params.ioCanFail = false) (ha : e.allowed s.dir = true) :
    performEvent e s = .done { s with dir := e.dirAfter s.dir, out := e.outAfter s.out } := by
  cases e with
  | cfg p => exact configurePin_reliable p s h (by simpa [Event.allowed] using ha)
  | wr p v => exact writePin_reliable p v s h (by simpa [Event.allowed] using ha)
  | data n =>
    obtain ⟨⟨⟨h0, h1⟩, h2⟩, h3⟩ := by simpa [Event.allowed] using ha
    exact present_reliable n s h h0 h1 h2 h3
  | rel p => exact releasePin_reliable p s h (by simpa [Event.allowed] using ha)
  | dly d => rfl

/-- An event whose precondition holds is not refused (R71, R73). -/
theorem performEvent_not_refused (e : Event) (s : State) (r : Refusal) (ha : e.allowed s.dir = true) :
    performEvent e s ≠ .refused r := by
  cases e with
  | cfg p =>
    intro h
    rcases configurePin_cases p s with ⟨-, -, hw⟩ | ⟨-, -, hw⟩ | ⟨hn, -⟩
    · simp [performEvent, hw] at h
    · simp [performEvent, hw] at h
    · exact hn (by simpa [Event.allowed] using ha)
  | wr p v =>
    intro h
    rcases writePin_cases p v s with ⟨-, -, hw⟩ | ⟨-, -, hw⟩ | ⟨hn, -⟩
    · simp [performEvent, hw] at h
    · simp [performEvent, hw] at h
    · exact hn (by simpa [Event.allowed] using ha)
  | data n =>
    obtain ⟨⟨⟨h0, h1⟩, h2⟩, h3⟩ := by simpa [Event.allowed] using ha
    exact present_not_refused n s r h0 h1 h2 h3
  | rel p =>
    intro h
    rcases releasePin_cases p s with ⟨-, -, hw⟩ | ⟨-, -, hw⟩ | ⟨hn, -⟩
    · simp [performEvent, hw] at h
    · simp [performEvent, hw] at h
    · exact hn (by simpa [Event.allowed] using ha)
  | dly d => simp [performEvent]

/-- Where calls cannot fail, no event fails (R161). -/
theorem performEvent_not_failed (e : Event) (s t : State) (p : Pin) (h : s.params.ioCanFail = false) :
    performEvent e s ≠ .failed p t := by
  intro hf
  by_cases ha : e.allowed s.dir = true
  · rw [performEvent_reliable e s h ha] at hf; simp at hf
  · have hw : ∀ (q : Pin) (v : Level) (u : State), u.params.ioCanFail = false → ∀ p' t', writePin q v u ≠ .failed p' t' := by
      intro q v u hu p' t' hq
      rcases writePin_cases q v u with ⟨-, -, hw⟩ | ⟨-, hio, -⟩ | ⟨-, hw⟩
      · simp [hw] at hq
      · simp [State.drawIo_reliable u hu] at hio
      · simp [hw] at hq
    cases e with
    | cfg q =>
      rcases configurePin_cases q s with ⟨-, -, hq⟩ | ⟨-, hio, -⟩ | ⟨-, hq⟩
      · simp [performEvent, hq] at hf
      · simp [State.drawIo_reliable s h] at hio
      · simp [performEvent, hq] at hf
    | wr q v => exact hw q v s h p t hf
    | data n =>
      unfold performEvent present at hf
      have keep : ∀ {q v u w}, u.params.ioCanFail = false → writePin q v u = .done w → w.params.ioCanFail = false := by
        intro q v u w hu hq
        rw [((writePin_keeps q v u).1 w hq).1.params]; exact hu
      rcases Performed.andThen_failed hf with hf | ⟨u3, h3, hf⟩
      · rcases Performed.andThen_failed hf with hf | ⟨u2, h2, hf⟩
        · rcases Performed.andThen_failed hf with hf | ⟨u1, h1, hf⟩
          · exact hw _ _ _ h _ _ hf
          · exact hw _ _ _ (keep h h1) _ _ hf
        · obtain ⟨u1, h1, h2⟩ := Performed.andThen_done h2
          exact hw _ _ _ (keep (keep h h1) h2) _ _ hf
      · obtain ⟨u2, h2, h3⟩ := Performed.andThen_done h3
        obtain ⟨u1, h1, h2⟩ := Performed.andThen_done h2
        exact hw _ _ _ (keep (keep (keep h h1) h2) h3) _ _ hf
    | rel q =>
      rcases releasePin_cases q s with ⟨-, -, hq⟩ | ⟨-, hio, -⟩ | ⟨-, hq⟩
      · simp [performEvent, hq] at hf
      · simp [State.drawIo_reliable s h] at hio
      · simp [performEvent, hq] at hf
    | dly d => simp [performEvent] at hf

end Sys2Proof.Machine
end

