-- ==== Sys2Proof/Laws/Sequencer.lean ====
section
/-! SUPPORT. Laws/Sequencer.lean: what one step of the sequencer can do, said once (R17, R126, R160). -/

namespace Sys2Proof.Machine

@[simp] theorem State.advance_dir (s : State) (op : Instr) (n k : Nat) (f : Phase → Phase) :
    (s.advance op n k f).dir = s.dir := by unfold State.advance; split <;> rfl
@[simp] theorem State.advance_out (s : State) (op : Instr) (n k : Nat) (f : Phase → Phase) :
    (s.advance op n k f).out = s.out := by unfold State.advance; split <;> rfl
@[simp] theorem State.advance_fault (s : State) (op : Instr) (n k : Nat) (f : Phase → Phase) :
    (s.advance op n k f).fault = s.fault := by unfold State.advance; split <;> rfl
@[simp] theorem State.advance_irqPending (s : State) (op : Instr) (n k : Nat) (f : Phase → Phase) :
    (s.advance op n k f).irqPending = s.irqPending := by unfold State.advance; split <;> rfl
@[simp] theorem State.advance_params (s : State) (op : Instr) (n k : Nat) (f : Phase → Phase) :
    (s.advance op n k f).params = s.params := by unfold State.advance; split <;> rfl
@[simp] theorem State.advance_trace (s : State) (op : Instr) (n k : Nat) (f : Phase → Phase) :
    (s.advance op n k f).trace = s.trace := by unfold State.advance; split <;> rfl
@[simp] theorem State.advance_host (s : State) (op : Instr) (n k : Nat) (f : Phase → Phase) :
    (s.advance op n k f).host = s.host := by unfold State.advance; split <;> rfl
@[simp] theorem State.advance_irqLine (s : State) (op : Instr) (n k : Nat) (f : Phase → Phase) :
    (s.advance op n k f).irqLine = s.irqLine := by unfold State.advance; split <;> rfl
@[simp] theorem State.advance_ioAnswers (s : State) (op : Instr) (n k : Nat) (f : Phase → Phase) :
    (s.advance op n k f).ioAnswers = s.ioAnswers := by unfold State.advance; split <;> rfl
@[simp] theorem State.advance_ioDraws (s : State) (op : Instr) (n k : Nat) (f : Phase → Phase) :
    (s.advance op n k f).ioDraws = s.ioDraws := by unfold State.advance; split <;> rfl

/-- More events to come: the position goes up by one, the phase stays (R17). -/
theorem State.advance_more (s : State) (op : Instr) {n k : Nat} (f : Phase → Phase) (h : k + 1 < n) :
    s.advance op n k f = s.setSeq (.busy op (k + 1)) := by simp [State.advance, h]

/-- The last event: idle, in the phase the operation ends in (R17, R102). -/
theorem State.advance_last (s : State) (op : Instr) {n k : Nat} (f : Phase → Phase) (h : ¬ k + 1 < n) :
    s.advance op n k f = (s.setSeq .idle).setPhase (f s.phase) := by simp [State.advance, h]

/-- An event of an operation ends in one of three ways: performed, the fault taken, or refused (R17, R81). -/
theorem performAt_next {op : Instr} {es : List Event} {f : Phase → Phase} {k : Nat} {s t : State}
    (h : performAt op es f k s = .next t) :
    ∃ e, es[k]? = some e ∧
      ((∃ u, performEvent e s = .done u ∧ t = (u.record e none).advance op es.length k f) ∨
        (∃ p u, performEvent e s = .failed p u ∧ t = raiseIoFault p (u.record e (some p)))) := by
  unfold performAt at h
  cases hk : es[k]? with
  | none => simp [hk] at h
  | some e =>
    refine ⟨e, rfl, ?_⟩
    cases hp : performEvent e s with
    | done u => exact .inl ⟨u, rfl, by simpa [hk, hp] using h.symm⟩
    | failed p u => exact .inr ⟨p, u, rfl, by simpa [hk, hp] using h.symm⟩
    | refused r => simp [hk, hp] at h

/-- An operation takes a step from acceptance or from where it stands (R17, R56). -/
theorem runOperation_next {op : Instr} {adm : Option Refusal} {es : List Event} {f : Phase → Phase} {s t : State}
    (h : runOperation op adm es f s = .next t) :
    ∃ k, ((s.seq = .idle ∧ adm = none ∧ k = 0) ∨ s.seq = .busy op k) ∧ performAt op es f k s = .next t := by
  unfold runOperation at h
  cases hs : s.seq with
  | idle =>
    cases ha : adm with
    | none => exact ⟨0, .inl ⟨rfl, rfl, rfl⟩, by simpa [hs, ha] using h⟩
    | some r => simp [hs, ha] at h
  | busy cur k =>
    by_cases hc : cur = op
    · subst hc; exact ⟨k, .inr rfl, by simpa [hs] using h⟩
    · simp [hs, hc] at h

@[simp] theorem State.cleanupTo_dir (s : State) (es : List Event) (k : Nat) : (s.cleanupTo es k).dir = s.dir := by
  unfold State.cleanupTo; dsimp only; split <;> rfl
@[simp] theorem State.cleanupTo_out (s : State) (es : List Event) (k : Nat) : (s.cleanupTo es k).out = s.out := by
  unfold State.cleanupTo; dsimp only; split <;> rfl
@[simp] theorem State.cleanupTo_fault (s : State) (es : List Event) (k : Nat) : (s.cleanupTo es k).fault = s.fault := by
  unfold State.cleanupTo; dsimp only; split <;> rfl
@[simp] theorem State.cleanupTo_irqPending (s : State) (es : List Event) (k : Nat) :
    (s.cleanupTo es k).irqPending = s.irqPending := by unfold State.cleanupTo; dsimp only; split <;> rfl
@[simp] theorem State.cleanupTo_params (s : State) (es : List Event) (k : Nat) : (s.cleanupTo es k).params = s.params := by
  unfold State.cleanupTo; dsimp only; split <;> rfl
@[simp] theorem State.cleanupTo_trace (s : State) (es : List Event) (k : Nat) : (s.cleanupTo es k).trace = s.trace := by
  unfold State.cleanupTo; dsimp only; split <;> rfl
@[simp] theorem State.cleanupTo_host (s : State) (es : List Event) (k : Nat) : (s.cleanupTo es k).host = s.host := by
  unfold State.cleanupTo; dsimp only; split <;> rfl
@[simp] theorem State.cleanupTo_irqLine (s : State) (es : List Event) (k : Nat) : (s.cleanupTo es k).irqLine = s.irqLine := by
  unfold State.cleanupTo; dsimp only; split <;> rfl

/-- The cleanup goes on, or it has ended in DOWN (R126). -/
theorem State.cleanupTo_cases (s : State) (es : List Event) (k : Nat) :
    (k + unclaimedReleases s.dir (es.drop k) < es.length ∧
      s.cleanupTo es k = s.setSeq (.busy .shutdown (k + unclaimedReleases s.dir (es.drop k)))) ∨
    (es.length ≤ k + unclaimedReleases s.dir (es.drop k) ∧ s.cleanupTo es k = (s.setSeq .idle).setPhase .down) := by
  unfold State.cleanupTo
  by_cases h : k + unclaimedReleases s.dir (es.drop k) < es.length
  · exact .inl ⟨h, by simp [h]⟩
  · exact .inr ⟨Nat.le_of_not_lt h, by simp [h]⟩

/-- One step of the cleanup: no event left, an event performed, or a failure swallowed (R126, R170). -/
theorem cleanupAt_next {k : Nat} {s t : State} (h : cleanupAt k s = .next t) :
    let es := shutdownEvents s.params s.phase
    let j := k + unclaimedReleases s.dir (es.drop k)
    (es[j]? = none ∧ t = s.cleanupTo es j) ∨
      ∃ e, es[j]? = some e ∧
        ((∃ u, performEvent e s = .done u ∧ t = (u.record e none).cleanupTo es (j + 1)) ∨
          (∃ p u, performEvent e s = .failed p u ∧
            t = (u.record e (some p)).cleanupTo es (cleanupResume (cleanupClearEvents s.params s.phase).length j))) := by
  intro es j
  unfold cleanupAt at h
  cases hk : es[j]? with
  | none => exact .inl ⟨rfl, by simpa [es, j, hk] using h.symm⟩
  | some e =>
    refine .inr ⟨e, rfl, ?_⟩
    have hk' : (shutdownEvents s.params s.phase)[k + unclaimedReleases s.dir ((shutdownEvents s.params s.phase).drop k)]? = some e :=
      hk
    cases hp : performEvent e s with
    | done u => exact .inl ⟨u, rfl, by simpa [hk', hp] using h.symm⟩
    | failed p u => exact .inr ⟨p, u, rfl, by simpa [hk', hp] using h.symm⟩
    | refused r => simp [hk', hp] at h

/-- `SHUTDOWN` takes a step from acceptance or from where it stands (R126, R127). -/
theorem runCleanup_next {s t : State} (h : runCleanup s = .next t) :
    ∃ k, ((s.seq = .idle ∧ admitShutdown s.phase = none ∧ k = 0) ∨ s.seq = .busy .shutdown k) ∧ cleanupAt k s = .next t := by
  unfold runCleanup at h
  cases hs : s.seq with
  | idle =>
    cases ha : admitShutdown s.phase with
    | none => exact ⟨0, .inl ⟨rfl, rfl, rfl⟩, by simpa [hs, ha] using h⟩
    | some r => simp [hs, ha] at h
  | busy cur k =>
    by_cases hc : cur = .shutdown
    · subst hc; exact ⟨k, .inr rfl, by simpa [hs] using h⟩
    · simp [hs, hc] at h

end Sys2Proof.Machine
end

