-- ==== Sys2Proof/Laws/Clean.lean ====
section
/-! SUPPORT. Laws/Clean.lean: the event sequences of the operations are clean in the sense of `cleanFrom` (R75, R77), and what one event of a
clean sequence does. -/

namespace Sys2Proof.Safety

open Sys2Proof.Machine

theorem clean_sendEvents (c : LcdCommand) (rest : List Event) :
    cleanFrom (.all .output) (some .low) (sendEvents c ++ rest) = cleanFrom (.all .output) (some .low) rest := by
  cases c with
  | mk m v => cases m <;> simp [sendEvents, nibEvents, strobeEvents, cleanFrom, Event.allowed, PinFile.get_all]

theorem clean_sendEvents_only (c : LcdCommand) : cleanFrom (.all .output) (some .low) (sendEvents c) = true := by
  have h := clean_sendEvents c []
  simpa [cleanFrom] using h

theorem clean_characters (cs : List Byte) : cleanFrom (.all .output) (some .low) (cs.flatMap wrcEvents) = true := by
  induction cs with
  | nil => simp [cleanFrom]
  | cons c cs ih => rw [List.flatMap_cons, wrcEvents, clean_sendEvents, ih]

theorem clean_nibEvents (n : Nibble) (rest : List Event) :
    cleanFrom (.all .output) (some .low) (nibEvents n ++ rest) = cleanFrom (.all .output) (some .low) rest := by
  simp [nibEvents, strobeEvents, cleanFrom, Event.allowed, PinFile.get_all]

theorem clean_initEvents (P : Params) : cleanFrom (.all .unconfigured) none (initEvents P) = true := by
  have h6 : ∀ rest, cleanFrom (.all .unconfigured) none (configureEvents ++ rest) =
      cleanFrom (.all .output) (some .low) rest := by
    intro rest
    simp [configureEvents, pinOrder, cleanFrom, PinFile.get, PinFile.set, PinFile.all]
  rw [initEvents, h6]
  simp only [cleanFrom, handshakeEvents, List.cons_append, Config.hsRepeat, hs3Events, hs2Events, List.replicate, List.flatten_cons,
    List.flatten_nil, List.append_assoc, clean_nibEvents, List.nil_append, PinFile.get_all, configurationEvents, functionSetEvents,
    displayOffEvents, clearDisplayEvents, entryModeEvents, displayOnEvents, wriEvents, clean_sendEvents, clean_sendEvents_only]
  simp

/-- The host operations that start with all pins OUTPUT and `E` LOW. -/
theorem clean_hostOperation (P : Params) (ph : Phase) (i : Instr) (hi : isHostOperation i = true) (h1 : i ≠ .init) (h2 : i ≠ .shutdown) :
    cleanFrom (.all .output) (some .low) (eventsOf P ph i) = true := by
  cases i <;> simp_all [isHostOperation, eventsOf]
  · exact clean_sendEvents_only _
  · exact clean_sendEvents_only _
  · rw [showlineEvents, setLineEvents, wriEvents, clean_sendEvents, clean_characters]
  · rw [clearEvents, clearDisplayEvents, wriEvents, clean_sendEvents]; simp [cleanFrom]

/-- What is admitted, and in which phase (R16). -/
theorem admission_none {P : Params} {ph : Phase} {i : Instr} (h : admission P ph i = none) :
    isHostOperation i = true ∧
      ((i = .init ∧ ph = .uninit) ∨ (i ≠ .init ∧ i ≠ .shutdown ∧ ph = .ready) ∨
        (i = .shutdown ∧ (ph = .uninit ∨ ph = .ready))) := by
  cases i <;> cases ph <;> simp_all [admission, admitInReady, admitInit, admitShutdown, isHostOperation]

/-- The level of `E` after an event. -/
def enableAfter (e : Event) (l : Option Level) : Option Level :=
  match e with
  | .cfg p => if p = .e then some .low else l
  | .wr .e v => some v
  | _ => l

/-- The first event of a clean sequence is allowed and is no release, and the rest is clean. -/
theorem clean_cons {d : PinFile Dir} {l : Option Level} {e : Event} {es : List Event} (h : cleanFrom d l (e :: es) = true) :
    e.allowed d = true ∧ cleanFrom (e.dirAfter d) (enableAfter e l) es = true ∧ ∀ p, e ≠ .rel p := by
  cases e with
  | cfg p => simp [cleanFrom] at h; simp [Event.allowed, Event.dirAfter, enableAfter, h]
  | wr p v =>
    cases p <;> cases v <;> simp [cleanFrom] at h <;> obtain ⟨⟨h1, rfl⟩, h2⟩ := h <;>
      simp [Event.allowed, Event.dirAfter, enableAfter, h1, h2]
  | data n =>
    simp [cleanFrom] at h
    obtain ⟨⟨h1, rfl⟩, h2⟩ := h
    simp [Event.dirAfter, enableAfter, h1, h2]
  | rel p => simp [cleanFrom] at h
  | dly d => simp [cleanFrom] at h; simp [Event.allowed, Event.dirAfter, enableAfter, h]

theorem outAfter_enable (e : Event) (o : PinFile (Option Level)) (h : ∀ p, e ≠ .rel p) :
    (e.outAfter o).e = enableAfter e o.e := by
  cases e with
  | cfg p => cases p <;> rfl
  | wr p v => cases p <;> rfl
  | data n => rfl
  | rel p => exact absurd rfl (h p)
  | dly d => rfl

/-- A pin that is not driven has no value: kept by an event that succeeds (R14). -/
theorem undriven_after {e : Event} {d : PinFile Dir} {o : PinFile (Option Level)} (ha : e.allowed d = true)
    (h : ∀ p, d.get p = .unconfigured → o.get p = none) :
    ∀ p, (e.dirAfter d).get p = .unconfigured → (e.outAfter o).get p = none := by
  intro p hp
  cases e with
  | cfg q => simp only [Event.dirAfter, Event.outAfter, PinFile.get_set] at *; split at hp <;> simp_all
  | wr q v =>
    simp [Event.allowed] at ha
    simp only [Event.dirAfter, Event.outAfter, PinFile.get_set] at *
    split <;> simp_all
  | data n =>
    simp [Event.allowed] at ha
    simp only [Event.dirAfter, Event.outAfter, presentOut, PinFile.get_set] at *
    cases p <;> simp_all
  | rel q => simp only [Event.dirAfter, Event.outAfter, PinFile.get_set] at *; split <;> simp_all
  | dly _ => exact h p hp

/-- A pin that is not driven has no value: kept by an event that fails (R14, R71, R73). -/
theorem undriven_failed {e : Event} {d : PinFile Dir} {o : PinFile (Option Level)} (q : Pin) (ha : e.allowed d = true)
    (h : ∀ p, d.get p = .unconfigured → o.get p = none) :
    ∀ p, d.get p = .unconfigured → (e.outFailed q o).get p = none := by
  intro p hp
  have h' := h p hp
  cases e with
  | cfg q => exact h'
  | wr q v => simp only [Event.outFailed, PinFile.get_set]; split <;> simp_all
  | data n =>
    simp [Event.allowed] at ha
    cases q <;> simp only [Event.outFailed, presentFailedOut, PinFile.get_set] <;> cases p <;> simp_all
  | rel q => exact h'
  | dly _ => exact h'

/-- An event that succeeded had its precondition met (R71, R73). -/
theorem performEvent_done_allowed {e : Event} {s t : State} (h : performEvent e s = .done t) : e.allowed s.dir = true := by
  cases e with
  | cfg p =>
    rcases configurePin_cases p s with ⟨h1, -, -⟩ | ⟨h1, -, -⟩ | ⟨h1, h2⟩ <;> simp_all [Event.allowed, performEvent]
  | wr p v =>
    rcases writePin_cases p v s with ⟨h1, -, -⟩ | ⟨h1, -, -⟩ | ⟨h1, h2⟩ <;> simp_all [Event.allowed, performEvent]
  | data n =>
    unfold performEvent present at h
    obtain ⟨s3, h3, h⟩ := Performed.andThen_done h
    obtain ⟨s2, h2, h3⟩ := Performed.andThen_done h3
    obtain ⟨s1, h1, h2⟩ := Performed.andThen_done h2
    have e1 := ((writePin_keeps _ _ _).1 _ h1).2.1
    have e2 := ((writePin_keeps _ _ _).1 _ h2).2.1
    have e3 := ((writePin_keeps _ _ _).1 _ h3).2.1
    have f : ∀ p v (u w : State), writePin p v u = .done w → u.dir.get p = .output := by
      intro p v u w hh
      by_contra hc
      simp [writePin, hc] at hh
    have a1 := f _ _ _ _ h1
    have a2 := f _ _ _ _ h2
    have a3 := f _ _ _ _ h3
    have a4 := f _ _ _ _ h
    rw [e3, e2, e1] at a4
    rw [e2, e1] at a3
    rw [e1] at a2
    simp [Event.allowed, *]
  | rel p =>
    rcases releasePin_cases p s with ⟨h1, -, -⟩ | ⟨h1, -, -⟩ | ⟨h1, h2⟩ <;> simp_all [Event.allowed, performEvent]
  | dly d => rfl

/-- The invariant reads six fields only. -/
theorem BlockInvariant.of_fields {s t : State} (h : BlockInvariant s) (h1 : t.dir = s.dir) (h2 : t.out = s.out)
    (h3 : t.phase = s.phase) (h4 : t.seq = s.seq) (h5 : t.fault = s.fault) (h6 : t.params = s.params) : BlockInvariant t := by
  constructor
  · rw [h1, h2]; exact h.undriven
  · rw [h3, h5]; exact h.faulted
  · rw [h6, h5]; exact h.reliable
  · rw [h3, h4]; exact h.final
  · rw [h3, h4, h1]; exact h.fresh
  · rw [h3, h4, h1, h2]; exact h.ready
  · rw [h4, h3, h6, h1, h2]; exact h.working
  · rw [h4, h3, h6, h1]; exact h.cleaning

theorem BlockInvariant.noFault {s : State} (h : BlockInvariant s) (hp : s.phase = .uninit ∨ s.phase = .ready) : s.fault = .none := by
  by_contra hc
  have h' := h.faulted.2 hc
  rcases hp with hp | hp <;> simp [hp] at h'

theorem BlockInvariant.busy_phase {s : State} (h : BlockInvariant s) (hs : s.seq ≠ .idle) : s.phase = .uninit ∨ s.phase = .ready := by
  cases hp : s.phase <;> simp
  · exact hs (h.final (.inl hp))
  · exact hs (h.final (.inr hp))

end Sys2Proof.Safety
end

