-- ==== Sys2Proof/Laws/Exec.lean ====
section
/-! SUPPORT. Laws/Exec.lean: `exec` and `step` in terms of the sequencer: later proofs cite these and unfold neither. -/

namespace Sys2Proof.Machine

/-- Every instruction but the cleanup is an operation of its event sequence. -/
theorem exec_eq_runOperation (i : Instr) (s : State) (h : i ≠ .shutdown) :
    exec i s = runOperation i (admission s.params s.phase i) (eventsOf s.params s.phase i) (endsIn i) s := by
  cases i <;> first | rfl | exact absurd rfl h

theorem exec_shutdown (s : State) : exec .shutdown s = runCleanup s := rfl

/-- An operation in progress performs the event at its position (R17). -/
theorem exec_busy (i : Instr) (s : State) (k : Nat) (h : i ≠ .shutdown) (hs : s.seq = .busy i k) :
    exec i s = performAt i (eventsOf s.params s.phase i) (endsIn i) k s := by
  rw [exec_eq_runOperation i s h]; simp [runOperation, hs]

/-- An accepted command performs its first event (R17, R56). -/
theorem exec_idle (i : Instr) (s : State) (h : i ≠ .shutdown) (hs : s.seq = .idle)
    (ha : admission s.params s.phase i = none) :
    exec i s = performAt i (eventsOf s.params s.phase i) (endsIn i) 0 s := by
  rw [exec_eq_runOperation i s h]; simp [runOperation, hs, ha]

/-- A command that is not admitted is refused (R16). -/
theorem exec_idle_refused (i : Instr) (s : State) (r : Refusal) (hs : s.seq = .idle)
    (ha : admission s.params s.phase i = some r) : exec i s = .refused r := by
  by_cases h : i = .shutdown
  · subst h
    have ha' : admitShutdown s.phase = some r := ha
    simp [exec_shutdown, runCleanup, hs, ha']
  · rw [exec_eq_runOperation i s h]; simp [runOperation, hs, ha]

/-- Everything a step of an instruction other than the cleanup can do (R17, R81, R160). -/
theorem exec_next {i : Instr} {s t : State} (hi : i ≠ .shutdown) (h : exec i s = .next t) :
    ∃ k e, ((s.seq = .idle ∧ admission s.params s.phase i = none ∧ k = 0) ∨ s.seq = .busy i k) ∧
      (eventsOf s.params s.phase i)[k]? = some e ∧
      ((∃ u, performEvent e s = .done u ∧
          t = (u.record e none).advance i (eventsOf s.params s.phase i).length k (endsIn i)) ∨
        (∃ p u, performEvent e s = .failed p u ∧ t = raiseIoFault p (u.record e (some p)))) := by
  rw [exec_eq_runOperation i s hi] at h
  obtain ⟨k, hk, h⟩ := runOperation_next h
  obtain ⟨e, he, h⟩ := performAt_next h
  exact ⟨k, e, hk, he, h⟩

/-- A step of `exec` leaves the parameters, the host's commands, the interrupt line and `irq_pending` alone. -/
theorem exec_keeps {i : Instr} {s t : State} (h : exec i s = .next t) :
    t.params = s.params ∧ t.host = s.host ∧ t.irqLine = s.irqLine ∧ t.irqPending = s.irqPending := by
  by_cases hi : i = .shutdown
  · subst hi
    obtain ⟨k, -, h⟩ := runCleanup_next h
    rcases cleanupAt_next h with ⟨-, rfl⟩ | ⟨e, -, ⟨u, hu, rfl⟩ | ⟨p, u, hu, rfl⟩⟩
    · simp
    · have k := (performEvent_done hu).1; simp [k.params, k.host, k.irqLine, k.irqPending]
    · have k := (performEvent_failed hu).2.1; simp [k.params, k.host, k.irqLine, k.irqPending]
  · obtain ⟨k, e, -, -, ⟨u, hu, rfl⟩ | ⟨p, u, hu, rfl⟩⟩ := exec_next hi h
    · have k := (performEvent_done hu).1; simp [k.params, k.host, k.irqLine, k.irqPending]
    · have k := (performEvent_failed hu).2.1; simp [k.params, k.host, k.irqLine, k.irqPending]

/-- Everything `nextAction` can be. -/
theorem nextAction_cases (s0 : State) :
    (takesIrq s0.sampleIrq = true ∧ nextAction s0 = .run .shutdown (s0.sampleIrq.setSeq .idle)) ∨
    (takesIrq s0.sampleIrq = false ∧ ∃ op k, s0.seq = .busy op k ∧ nextAction s0 = .run op s0.sampleIrq) ∨
    (takesIrq s0.sampleIrq = false ∧ s0.seq = .idle ∧ nextAction s0 = nextCommand s0.sampleIrq) := by
  unfold nextAction
  by_cases ht : takesIrq s0.sampleIrq = true
  · exact .inl ⟨ht, by simp [ht]⟩
  · have ht' : takesIrq s0.sampleIrq = false := by simpa using ht
    cases hs : s0.seq with
    | idle => exact .inr (.inr ⟨ht', rfl, by simp [ht', hs]⟩)
    | busy op k => exact .inr (.inl ⟨ht', op, k, rfl, by simp [ht', hs]⟩)

/-- Everything the command port can give. -/
theorem nextCommand_cases (s : State) :
    (s.host = [] ∧ nextCommand s = .wait s) ∨
    (∃ c rest i, s.host = c :: rest ∧ decodeHost c = .ok i ∧ nextCommand s = .run i { s with host := rest }) ∨
    (∃ c rest r, s.host = c :: rest ∧ decodeHost c = .error r ∧ nextCommand s = .refuse (.undecodable r)) := by
  unfold nextCommand
  cases hh : s.host with
  | nil => exact .inl ⟨rfl, rfl⟩
  | cons c rest =>
    cases hd : decodeHost c with
    | ok i => exact .inr (.inl ⟨c, rest, i, rfl, hd, by simp [hd]⟩)
    | error r => exact .inr (.inr ⟨c, rest, r, rfl, hd, by simp [hd]⟩)

/-- What the host can decode is never a bus word (R54, R58). -/
theorem decodeHost_not_busWord {c : HostCommand} {i : Instr} (h : decodeHost c = .ok i) :
    isHostOperation i = true ∨ i = .strobe := by
  unfold decodeHost decodeShowline decodePlain noArg at h
  repeat' split at h
  all_goals first
    | (injection h with h; subst h; first | exact .inl rfl | exact .inr rfl)
    | simp at h

/-- Everything a step can do: wait, or run one instruction from a state that differs in the interrupt and the port at most. -/
theorem step_next {s t : State} (h : step s = .next t) :
    (s.seq = .idle ∧ s.host = [] ∧ takesIrq s.sampleIrq = false ∧ t = s.sampleIrq) ∨
    (takesIrq s.sampleIrq = true ∧ exec .shutdown (s.sampleIrq.setSeq .idle) = .next t) ∨
    (takesIrq s.sampleIrq = false ∧ ∃ op k, s.seq = .busy op k ∧ exec op s.sampleIrq = .next t) ∨
    (takesIrq s.sampleIrq = false ∧ s.seq = .idle ∧ ∃ c rest i, s.host = c :: rest ∧ decodeHost c = .ok i ∧
      exec i { s.sampleIrq with host := rest } = .next t) := by
  unfold step at h
  rcases nextAction_cases s with ⟨ht, hn⟩ | ⟨ht, op, k, hs, hn⟩ | ⟨ht, hs, hn⟩
  · exact .inr (.inl ⟨ht, by simpa [hn] using h⟩)
  · exact .inr (.inr (.inl ⟨ht, op, k, hs, by simpa [hn] using h⟩))
  · rcases nextCommand_cases s.sampleIrq with ⟨hh, hc⟩ | ⟨c, rest, i, hh, hd, hc⟩ | ⟨c, rest, r, hh, hd, hc⟩
    · exact .inl ⟨hs, by simpa using hh, ht, by simpa [hn, hc] using h.symm⟩
    · exact .inr (.inr (.inr ⟨ht, hs, c, rest, i, by simpa using hh, hd, by simpa [hn, hc] using h⟩))
    · simp [hn, hc] at h

end Sys2Proof.Machine
end

