-- ==== Sys2Proof/Laws/Cleanup.lean ====
section
/-! SUPPORT. Laws/Cleanup.lean: the positions of the cleanup (R126). -/

namespace Sys2Proof.Machine

/-- The clear of the cleanup holds no release and changes no direction, and every event of it is allowed with all pins OUTPUT. -/
theorem cleanupClear_events (P : Params) (ph : Phase) :
    ∀ e ∈ cleanupClearEvents P ph, (∀ p, e ≠ .rel p) ∧ e.allowed (.all .output) = true ∧ ∀ d, e.dirAfter d = d := by
  intro e he
  cases ph <;>
    simp [cleanupClearEvents, clearEvents, clearDisplayEvents, wriEvents, sendEvents, nibEvents, strobeEvents] at he
  rcases he with rfl | rfl | rfl | rfl | rfl | rfl | rfl | rfl | rfl | rfl | rfl | rfl | rfl | rfl <;>
    simp [Event.allowed, Event.dirAfter]

theorem unclaimedReleases_zero {dir : PinFile Dir} {e : Event} {es : List Event} (h : ∀ p, e ≠ .rel p) :
    unclaimedReleases dir (e :: es) = 0 := by
  cases e <;> simp_all [unclaimedReleases]

/-- The walk over unclaimed releases stops at an event that is no release, or at one of a claimed pin (R126). -/
theorem unclaimedReleases_stop (dir : PinFile Dir) :
    ∀ (es : List Event) (e : Event), es[unclaimedReleases dir es]? = some e → ∀ p, e = .rel p → dir.get p = .output
  | [], e, h => by simp [unclaimedReleases] at h
  | x :: es, e, h => by
    intro p hp
    cases x with
    | rel q =>
      by_cases hq : dir.get q = .output
      · simp [unclaimedReleases, hq] at h
        subst h
        simp at hp
        subst hp
        exact hq
      · simp only [unclaimedReleases, hq, if_false] at h
        simp at h
        exact unclaimedReleases_stop dir es e h p hp
    | _ => simp [unclaimedReleases] at h; subst h; simp at hp

/-- An event of the cleanup is one of the clear, or a release after it (R126). -/
theorem shutdownEvents_get {P : Params} {ph : Phase} {k : Nat} {e : Event} (h : (shutdownEvents P ph)[k]? = some e) :
    (k < (cleanupClearEvents P ph).length ∧ e ∈ cleanupClearEvents P ph) ∨
      ((cleanupClearEvents P ph).length ≤ k ∧ ∃ p, e = .rel p) := by
  rw [shutdownEvents, List.getElem?_append] at h
  split at h
  · rename_i hk
    rw [List.getElem?_eq_getElem hk] at h
    exact .inl ⟨hk, by simp at h; subst h; exact List.getElem_mem _⟩
  · rename_i hk
    refine .inr ⟨by omega, ?_⟩
    have hm := List.mem_of_getElem? h
    simp [releaseEvents] at hm
    obtain ⟨p, -, rfl⟩ := hm
    exact ⟨p, rfl⟩

/-- One event of the cleanup, where calls cannot fail. -/
theorem cleanupAt_reliable {k : Nat} {s : State} {e : Event}
    (hu : unclaimedReleases s.dir ((shutdownEvents s.params s.phase).drop k) = 0)
    (he : (shutdownEvents s.params s.phase)[k]? = some e) (hio : s.params.ioCanFail = false) (ha : e.allowed s.dir = true) :
    cleanupAt k s = .next
      ((({ s with dir := e.dirAfter s.dir, out := e.outAfter s.out } : State).record e none).cleanupTo
        (shutdownEvents s.params s.phase) (k + 1)) := by
  unfold cleanupAt
  simp only [hu, Nat.add_zero, he, performEvent_reliable e s hio ha]

/-- What the cleanup leaves: it goes on in the same phase, or it is idle in DOWN; no fault is recorded (R126, R170). -/
theorem exec_shutdown_next {s t : State} (h : exec .shutdown s = .next t) :
    (t.seq = .idle → t.phase = .down) ∧ t.fault = s.fault ∧ ∀ op k, t.seq = .busy op k → op = .shutdown ∧ t.phase = s.phase := by
  rw [exec_shutdown] at h
  obtain ⟨k, -, h⟩ := runCleanup_next h
  have key : ∀ (u : State) (es : List Event) (k : Nat), u.phase = s.phase →
      ((u.cleanupTo es k).seq = .idle → (u.cleanupTo es k).phase = .down) ∧
      ∀ op k', (u.cleanupTo es k).seq = .busy op k' → op = .shutdown ∧ (u.cleanupTo es k).phase = s.phase := by
    intro u es k hp
    rcases State.cleanupTo_cases u es k with ⟨-, h2⟩ | ⟨-, h2⟩ <;> rw [h2]
    · refine ⟨by simp, fun op k' h => ?_⟩
      simp at h
      exact ⟨h.1.symm, by simpa using hp⟩
    · exact ⟨by simp, by simp⟩
  rcases cleanupAt_next h with ⟨-, rfl⟩ | ⟨e, -, ⟨u, hu, rfl⟩ | ⟨p, u, hu, rfl⟩⟩
  · exact ⟨(key _ _ _ rfl).1, by simp, (key _ _ _ rfl).2⟩
  · have kc := (performEvent_done hu).1
    have h' := key (u.record e none)
    exact ⟨(h' _ _ (by simp [kc.phase])).1, by simp [kc.fault], (h' _ _ (by simp [kc.phase])).2⟩
  · have kc := (performEvent_failed hu).2.1
    have h' := key (u.record e (some p))
    exact ⟨(h' _ _ (by simp [kc.phase])).1, by simp [kc.fault], (h' _ _ (by simp [kc.phase])).2⟩

/-- What the walk leaves out are releases of pins that are not claimed (R126). -/
theorem unclaimedReleases_skipped (dir : PinFile Dir) :
    ∀ (es : List Event) (j : Nat), j < unclaimedReleases dir es → ∃ q, es[j]? = some (.rel q) ∧ dir.get q = .unconfigured
  | [], j, h => by simp [unclaimedReleases] at h
  | e :: es, j, h => by
    cases e with
    | rel q =>
      by_cases hq : dir.get q = .output
      · simp [unclaimedReleases, hq] at h
      · simp only [unclaimedReleases, hq, if_false] at h
        have hq' : dir.get q = .unconfigured := by cases hh : dir.get q <;> simp_all
        cases j with
        | zero => exact ⟨q, rfl, hq'⟩
        | succ j =>
          obtain ⟨q', h1, h2⟩ := unclaimedReleases_skipped dir es j (by omega)
          exact ⟨q', by simpa using h1, h2⟩
    | _ => simp [unclaimedReleases] at h

end Sys2Proof.Machine

namespace Sys2Proof.Safety

open Sys2Proof.Machine

/-- From acceptance or from where it stands, the cleanup stands before the first event it does not leave out (R126). -/
theorem cleanupAtEvent_of_position {s : State} {k : Nat}
    (hk : (s.seq = .idle ∧ admitShutdown s.phase = none ∧ k = 0) ∨ s.seq = .busy .shutdown k) :
    CleanupAtEvent (k + unclaimedReleases s.dir ((shutdownEvents s.params s.phase).drop k)) s := by
  refine ⟨k, ?_, by omega, fun j h1 h2 => ?_⟩
  · rcases hk with ⟨hs, ha, h0⟩ | hs
    · refine .inr ⟨hs, h0, ?_⟩
      cases hp : s.phase <;> simp_all [admitShutdown]
    · exact .inl hs
  · obtain ⟨q, hq, hd⟩ := unclaimedReleases_skipped s.dir ((shutdownEvents s.params s.phase).drop k) (j - k) (by omega)
    rw [List.getElem?_drop, show k + (j - k) = j by omega] at hq
    exact ⟨q, hq, hd⟩

end Sys2Proof.Safety
end

