-- ==== Sys2Proof/Laws/Decode.lean ====
section
/-! SUPPORT. Laws/Decode.lean: the fields of a word are what it was built from, and a word is built from its fields (R53, R57). -/

namespace Sys2Proof

theorem opField_hostWord (op : BitVec 4) (a : Byte) : opField (hostWord op a) = op := by
  show BitVec.extractLsb' 8 4 (op ++ a) = op
  ext i h
  simp only [BitVec.getElem_extractLsb', BitVec.getLsbD_append]
  simp [BitVec.getLsbD_eq_getElem, h]

theorem argField_hostWord (op : BitVec 4) (a : Byte) : argField (hostWord op a) = a := by
  show BitVec.extractLsb' 0 8 (op ++ a) = a
  ext i h
  simp only [BitVec.getElem_extractLsb', BitVec.getLsbD_append]
  simp [h]

theorem hostWord_fields (w : BitVec 12) : hostWord (opField w) (argField w) = w := by
  show (BitVec.extractLsb' 8 4 w ++ BitVec.extractLsb' 0 8 w : BitVec (4 + 8)) = (w : BitVec (4 + 8))
  apply BitVec.eq_of_getLsbD_eq
  intro i h
  rw [BitVec.getLsbD_append]
  simp only [BitVec.getLsbD_extractLsb']
  split
  · simp [*]
  · have h1 : i - 8 < 4 := by omega
    have h2 : 8 + (i - 8) = i := by omega
    simp [h1, h2]

theorem bus9Word_mode (r : BitVec 1) (b : Byte) : (bus9Word r b).getLsbD 8 = r.getLsbD 0 := by
  show BitVec.getLsbD (r ++ b) 8 = _
  rw [BitVec.getLsbD_append]; simp

theorem bus9Word_byte (r : BitVec 1) (b : Byte) : (bus9Word r b).extractLsb' 0 8 = b := by
  show BitVec.extractLsb' 0 8 (r ++ b) = b
  ext i h
  simp only [BitVec.getElem_extractLsb', BitVec.getLsbD_append]
  simp [h]

theorem bus9Word_fields (w : BitVec 9) : bus9Word (BitVec.ofBool (w.getLsbD 8)) (w.extractLsb' 0 8) = w := by
  show (BitVec.ofBool (w.getLsbD 8) ++ BitVec.extractLsb' 0 8 w : BitVec (1 + 8)) = (w : BitVec (1 + 8))
  apply BitVec.eq_of_getLsbD_eq
  intro i h
  rw [BitVec.getLsbD_append]
  simp only [BitVec.getLsbD_extractLsb']
  split
  · simp [*]
  · obtain rfl : i = 8 := by omega
    simp

/-- The host decoder by fields (R57, R60). -/
theorem decodeHost_hostWord (op : BitVec 4) (a : Byte) (t : Text) :
    decodeHost ⟨hostWord op a, t⟩ =
      if op = 0x4#4 then decodeShowline a t else if t = [] then decodePlain op a else .error .strayText := by
  unfold decodeHost
  rw [opField_hostWord, argField_hostWord]

theorem decodeBus9_instruction (P : Params) (b : Byte) : decodeBus9 P (bus9Word 0#1 b) = decodeInstrByte P b := by
  unfold decodeBus9
  rw [bus9Word_mode, bus9Word_byte]; rfl

theorem decodeBus9_character (P : Params) (b : Byte) : decodeBus9 P (bus9Word 1#1 b) = .char b := by
  unfold decodeBus9
  rw [bus9Word_mode, bus9Word_byte]; rfl

end Sys2Proof
end

