-- ==== Sys2Proof/Laws/Observe.lean ====
section
/-! SUPPORT. Laws/Observe.lean: the walk of R79 over a trace in pieces. -/

namespace Sys2Proof.Machine

open Sys2Proof.Safety

theorem linesThrough_snoc (l : PinFile (Option Level)) (tr : List Entry) (t : Entry) :
    linesThrough l (tr ++ [t]) = linesAfter t (linesThrough l tr) := by
  simp [linesThrough]

theorem latchedFrom_append (l : PinFile (Option Level)) (a b : List Entry) :
    latchedFrom l (a ++ b) = latchedFrom l a ++ latchedFrom (linesThrough l a) b := by
  induction a generalizing l with
  | nil => rfl
  | cons x a ih =>
    simp only [List.cons_append, latchedFrom, linesThrough, List.foldl_cons]
    split <;> simp [ih, linesThrough]

/-- The bus word of a nibble on the data lines, with `RS` at a mode (R52). -/
theorem busWord_nibble (n : Nibble) (m : Level) (e : Option Level) :
    busWord
      { d0 := some (nibbleLevel n 0), d1 := some (nibbleLevel n 1), d2 := some (nibbleLevel n 2), d3 := some (nibbleLevel n 3)
        e := e, rs := some m } = transfer m n := by
  have h : ∀ (n : Nibble) (m : Level),
      busWord
        { d0 := some (nibbleLevel n 0), d1 := some (nibbleLevel n 1), d2 := some (nibbleLevel n 2), d3 := some (nibbleLevel n 3)
          e := none, rs := some m } = transfer m n := by
    intro n m
    cases m <;> revert n <;> decide
  exact h n m

/-- An event that succeeded shows the controller on each driven pin what the latch holds (R70, R79). -/
theorem lines_done {e : Event} {d : PinFile Dir} {l o : PinFile (Option Level)} (ha : e.allowed d = true)
    (h : ∀ p, d.get p = .output → l.get p = o.get p) :
    ∀ p, (e.dirAfter d).get p = .output → (linesAfter ⟨e, none⟩ l).get p = (e.outAfter o).get p := by
  intro p hp
  cases e with
  | cfg q => simp only [Event.dirAfter, Event.outAfter, linesAfter, PinFile.get_set] at *; split <;> simp_all
  | wr q v => simp only [Event.dirAfter, Event.outAfter, linesAfter, PinFile.get_set] at *; split <;> simp_all
  | data n =>
    have h' := h p hp
    cases p <;> simp_all [Event.outAfter, linesAfter, presentLines, presentOut, PinFile.get, PinFile.set]
  | rel q => simp only [Event.dirAfter, Event.outAfter, linesAfter, PinFile.get_set] at *; split at hp <;> simp_all
  | dly _ => exact h p hp

/-- The same for an event that failed (R71, R74). -/
theorem lines_failed {e : Event} {d : PinFile Dir} {l o : PinFile (Option Level)} {q : Pin} (hq : q ∈ e.pins)
    (h : ∀ p, d.get p = .output → l.get p = o.get p) :
    ∀ p, d.get p = .output → (linesAfter ⟨e, some q⟩ l).get p = (e.outFailed q o).get p := by
  intro p hp
  have h := h p hp
  cases e with
  | cfg q => exact h
  | wr q v => simp only [Event.outFailed, linesAfter, PinFile.get_set] at *; split <;> simp_all
  | data n =>
    simp [Event.pins] at hq
    rcases hq with rfl | rfl | rfl | rfl <;> cases p <;>
      simp_all [Event.outFailed, linesAfter, presentLines, presentFailedOut, PinFile.get, PinFile.set]
  | rel q => exact h
  | dly _ => exact h

/-- What an operation that ended adds to the latched sequence. -/
theorem latched_ended (s : State) (es : List Event) (m : Nat) (d : PinFile Dir) (o : PinFile (Option Level)) (ph : Phase) :
    (ended s es m d o ph).latched = s.latched ++ latchedFrom s.linesSeen (es.map fun e => ⟨e, none⟩) := by
  unfold State.latched State.history
  simp only [ended, List.reverse_append, List.reverse_reverse]
  rw [latchedFrom_append]; rfl

end Sys2Proof.Machine
end

