-- ==== Sys2Proof/Laws/Operands.lean ====
section
/-! SUPPORT. Laws/Operands.lean: the two cases of `fit16` and its length (R110), so that no later proof unfolds it. -/

namespace Sys2Proof.Machine

theorem fit16_long {t : Text} (h : 16 ≤ t.length) : fit16 t = t.take 16 := if_pos h

theorem fit16_short {t : Text} (h : t.length < 16) : fit16 t = t ++ List.replicate (16 - t.length) Config.padChar :=
  if_neg (Nat.not_le.2 h)

theorem fit16_length (t : Text) : (fit16 t).length = 16 := by
  by_cases h : 16 ≤ t.length
  · rw [fit16_long h, List.length_take]; omega
  · rw [fit16_short (by omega), List.length_append, List.length_replicate]; omega

/-- An operation's byte writes, by the length of the text they send (R90, R115). -/
theorem length_flatMap_wrcEvents (x : Text) : (x.flatMap wrcEvents).length = 13 * x.length := by
  induction x with
  | nil => rfl
  | cons c x ih => simp [ih, wrcEvents, sendEvents, nibEvents, strobeEvents]; omega

end Sys2Proof.Machine
end

