-- ==== Sys2Proof/Laws/PerInstr.lean ====
section
/-! SUPPORT. Laws/PerInstr.lean: a statement for every instruction: with the default instruction bytes, the word the encoder gives matches its
row of the opcode table under the row's mask (R54, R58). -/

namespace Sys2Proof.Laws.RowMatch

/-- The encoder's word has the row's fixed bits. -/
def Statement (i : Instr) : Prop :=
  (encode Config.defaultParams i).bits &&& i.rowMask = i.rowMatch

theorem init : Statement .init := by unfold Statement; decide
theorem wri (b : Byte) : Statement (.wri b) := by unfold Statement; revert b; decide
theorem wrc (b : Byte) : Statement (.wrc b) := by unfold Statement; revert b; decide
theorem strobe : Statement .strobe := by unfold Statement; decide
theorem showline (line : Line) (text : Text) : Statement (.showline line text) := by
  show (hostWord 0x4#4 (lineArg line)).toNat &&& 0xFFE = 0x400
  cases line <;> decide
theorem clear : Statement .clear := by unfold Statement; decide
theorem shutdown : Statement .shutdown := by unfold Statement; decide
theorem hs3 : Statement .hs3 := by unfold Statement; decide
theorem hs2 : Statement .hs2 := by unfold Statement; decide
theorem functionSet : Statement .functionSet := by unfold Statement; decide
theorem displayOff : Statement .displayOff := by unfold Statement; decide
theorem clearDisplay : Statement .clearDisplay := by unfold Statement; decide
theorem entryMode : Statement .entryMode := by unfold Statement; decide
theorem displayOn : Statement .displayOn := by unfold Statement; decide
theorem setLine1 : Statement .setLine1 := by unfold Statement; decide
theorem setLine2 : Statement .setLine2 := by unfold Statement; decide
theorem char (c : Byte) : Statement (.char c) := by unfold Statement; revert c; decide
theorem instr (b : Byte) : Statement (.instr b) := by unfold Statement; revert b; decide

end Sys2Proof.Laws.RowMatch
end

