-- ==== Sys2Proof/Laws/Run.lean ====
section
/-! SUPPORT. Laws/Run.lean: runs of several steps: an operation in progress runs through the rest of its events (R17). The induction over the
events is packaged here once. -/

namespace Sys2Proof.Safety

open Sys2Proof.Machine

/-- One step of any machine of the host's interface, then the rest. -/
theorem core_run_succ (M : Host.Core) (n : Nat) (s : M.State) :
    M.run (n + 1) s = match M.step s with
      | .next t => M.run n t
      | .fault r => .fault r
      | .refused r => .refused r := rfl

@[simp] theorem run_zero (s : State) : run 0 s = .next s := rfl

theorem run_succ (n : Nat) (s : State) :
    run (n + 1) s = match step s with
      | .next t => run n t
      | .fault r => .fault r
      | .refused r => .refused r := by
  refine (core_run_succ Sys2Proof.core n s).trans ?_
  generalize h : Sys2Proof.core.step s = o
  have hs : step s = o := h
  rw [hs]
  cases o <;> rfl

theorem run_succ_of_step {n : Nat} {s t : State} (h : step s = .next t) : run (n + 1) s = run n t := by
  rw [run_succ, h]

theorem execThenRun_of_exec {i : Instr} {n : Nat} {s t : State} (h : exec i s = .next t) : execThenRun i n s = run n t := by
  rw [execThenRun, h]

theorem run_add {m n : Nat} {s t : State} (h : run m s = .next t) : run (m + n) s = run n t := by
  induction m generalizing s with
  | zero => obtain rfl : s = t := by simpa using h
            simp
  | succ m ih =>
    rw [Nat.succ_add, run_succ] at *
    cases hs : step s with
    | next u => rw [hs] at h; exact ih h
    | fault r => rw [hs] at h; simp at h
    | refused r => rw [hs] at h; simp at h

/-- With the interrupt taken at boundaries only, an operation in progress goes on whatever is pending (R167). -/
theorem step_busy {s : State} {op : Instr} {k : Nat} (hs : s.seq = .busy op k) (hg : s.params.irqGranularity = .command) :
    step s = exec op s.sampleIrq := by
  have ht : takesIrq s.sampleIrq = false := by simp [takesIrq, hs, hg]
  rcases nextAction_cases s with ⟨h, -⟩ | ⟨-, op', k', hs', hn⟩ | ⟨-, hs', -⟩
  · simp [ht] at h
  · obtain ⟨rfl, rfl⟩ : op' = op ∧ k' = k := by simpa [hs] using hs'.symm
    simp [step, hn]
  · simp [hs] at hs'

theorem eventsOf_phase (P : Params) (ph ph' : Phase) {i : Instr} (hi : i ≠ .shutdown) : eventsOf P ph i = eventsOf P ph' i := by
  cases i <;> first | rfl | exact absurd rfl hi

/-- One event of an operation, where calls cannot fail. -/
theorem performAt_reliable {op : Instr} {es : List Event} {f : Phase → Phase} {k : Nat} {s : State} {e : Event}
    (he : es[k]? = some e) (h : s.params.ioCanFail = false) (ha : e.allowed s.dir = true) :
    performAt op es f k s =
      .next ((({ s with dir := e.dirAfter s.dir, out := e.outAfter s.out } : State).record e none).advance op es.length k f) := by
  simp [performAt, he, performEvent_reliable e s h ha]

/-- `finished` takes the events one at a time. -/
theorem finished_cons (s t : State) (e : Event) (es : List Event) (m n : Nat) (f : Phase → Phase) (hdir : t.dir = e.dirAfter s.dir)
    (hout : t.out = e.outAfter s.out) (hphase : t.phase = s.phase) (hfault : t.fault = s.fault)
    (hirq : (t.irqPending || (t.irqLine.take m).any id) = (s.irqPending || (s.irqLine.take n).any id))
    (hparams : t.params = s.params) (htrace : t.trace = ⟨e, none⟩ :: s.trace) (hhost : t.host = s.host)
    (hline : t.irqLine.drop m = s.irqLine.drop n) (hio : t.ioAnswers = s.ioAnswers) (hdraws : t.ioDraws = s.ioDraws) :
    finished t es m f = finished s (e :: es) n f := by
  apply State.ext_fields <;> simp only [finished, ended, dirAfterAll, outAfterAll, List.foldl_cons, List.map_cons, List.reverse_cons, *]
  simp

/-- AN OPERATION IN PROGRESS RUNS THROUGH THE REST OF ITS EVENTS (R17, R81): where calls cannot fail and the interrupt waits for the
boundary, `m` steps perform the `m` events that are left and end the operation. -/
theorem run_events {op : Instr} (hop : op ≠ .shutdown) {m k : Nat} {s : State} {es : List Event}
    (hes : eventsOf s.params s.phase op = es) (hs : s.seq = .busy op k) (hm : 0 < m) (hlen : es.length = k + m)
    (hio : s.params.ioCanFail = false) (hg : s.params.irqGranularity = .command)
    (ha : allAllowed s.dir (es.drop k) = true) :
    run m s = .next (finished s (es.drop k) m (endsIn op)) := by
  induction m generalizing k s with
  | zero => omega
  | succ m ih =>
    have hk : k < es.length := by omega
    rw [List.drop_eq_getElem_cons hk] at ha ⊢
    obtain ⟨hae, har⟩ : (es[k]).allowed s.dir = true ∧ allAllowed ((es[k]).dirAfter s.dir) (es.drop (k + 1)) = true := by
      simpa [allAllowed] using ha
    have hstep := step_busy hs hg
    rw [exec_busy op s.sampleIrq k hop (by simpa using hs), State.sampleIrq_params, State.sampleIrq_phase, hes,
      performAt_reliable (e := es[k]) (by simp [hk]) (by simpa using hio) (by simpa using hae)] at hstep
    rw [run_succ_of_step hstep]
    have hio' : s.sampleIrq.ioAnswers = s.ioAnswers := by simp
    by_cases hlast : m = 0
    · subst hlast
      rw [State.advance_last _ _ _ (by omega), List.drop_eq_nil_of_le (show es.length ≤ k + 1 by omega), run_zero]
      refine congrArg Host.Outcome.next ?_
      generalize es[k] = e
      apply State.ext_fields <;> simp [finished, ended, dirAfterAll, outAfterAll]
      cases s.irqLine <;> simp
    · rw [State.advance_more _ _ _ (by omega),
        ih (k := k + 1) (by simpa using hes) (by simp) (by omega) (by omega) (by simpa using hio) (by simpa using hg)
          (by simpa using har)]
      refine congrArg Host.Outcome.next (finished_cons _ _ _ _ _ _ _ ?_ ?_ ?_ ?_ ?_ ?_ ?_ ?_ ?_ ?_ ?_) <;> simp
      cases s.irqLine <;> simp [Bool.or_assoc]

/-- The same, when the first event is `exec`'s own. -/
theorem execThenRun_of_first {op : Instr} (hop : op ≠ .shutdown) {s : State} {es : List Event}
    (hes : eventsOf s.params s.phase op = es) (hexec : exec op s = performAt op es (endsIn op) 0 s)
    (hn : 1 < es.length) (hio : s.params.ioCanFail = false) (hg : s.params.irqGranularity = .command)
    (ha : allAllowed s.dir es = true) :
    execThenRun op (es.length - 1) s = .next (finished s es (es.length - 1) (endsIn op)) := by
  cases es with
  | nil => simp at hn
  | cons e rest =>
    obtain ⟨hae, har⟩ : e.allowed s.dir = true ∧ allAllowed (e.dirAfter s.dir) rest = true := by simpa [allAllowed] using ha
    rw [performAt_reliable (e := e) (by simp) hio hae, State.advance_more _ _ _ (by omega)] at hexec
    rw [execThenRun_of_exec hexec, run_events hop (k := 1) (es := e :: rest) (by simpa using hes) (by simp)
      (by simpa using hn) (by simp; omega) (by simpa using hio) (by simpa using hg) (by simpa using har)]
    exact congrArg Host.Outcome.next (finished_cons _ _ _ _ _ _ _ rfl rfl rfl rfl rfl rfl rfl rfl rfl rfl rfl)

/-- A command from acceptance to its end (R17, R56). -/
theorem execThenRun_command {op : Instr} (hop : op ≠ .shutdown) {s : State} {es : List Event}
    (hes : eventsOf s.params s.phase op = es) (hs : s.seq = .idle) (hadm : admission s.params s.phase op = none)
    (hn : 1 < es.length) (hio : s.params.ioCanFail = false) (hg : s.params.irqGranularity = .command)
    (ha : allAllowed s.dir es = true) :
    execThenRun op (es.length - 1) s = .next (finished s es (es.length - 1) (endsIn op)) :=
  execThenRun_of_first hop hes (by rw [exec_idle op s hop hs hadm, hes]) hn hio hg ha

/-- An operation the sequencer stands at the first event of, to its end (R17). -/
theorem execThenRun_sequenced {op : Instr} (hop : op ≠ .shutdown) {s : State} {es : List Event}
    (hes : eventsOf s.params s.phase op = es) (hs : s.seq = .busy op 0)
    (hn : 1 < es.length) (hio : s.params.ioCanFail = false) (hg : s.params.irqGranularity = .command)
    (ha : allAllowed s.dir es = true) :
    execThenRun op (es.length - 1) s = .next (finished s es (es.length - 1) (endsIn op)) :=
  execThenRun_of_first hop hes (by rw [exec_busy op s 0 hop hs, hes]) hn hio hg ha

/-- At acceptance or where it stands, an instruction other than the cleanup performs the event it stands before (R17, R56). -/
theorem exec_atEvent {i : Instr} {k : Nat} {s : State} (hi : i ≠ .shutdown) (hs : AtEvent i k s) :
    exec i s = performAt i (eventsOf s.params s.phase i) (endsIn i) k s := by
  rcases hs with hs | ⟨hs, rfl, hadm⟩
  · exact exec_busy i s k hi hs
  · apply exec_idle i s hi hs
    rcases hadm with ⟨rfl, hp, hd⟩ | ⟨hp, ⟨b, rfl⟩ | ⟨b, rfl⟩ | ⟨l, x, rfl⟩ | rfl⟩ <;>
      simp [admission, admitInit, admitInReady, *]

/-- Where no interrupt is taken between events, an operation in progress goes on (R167, D17). -/
theorem step_notInterrupted {m : Nat} {s : State} {op : Instr} {k : Nat} (h : NotInterrupted (m + 1) s) (hs : s.seq = .busy op k) :
    step s = exec op s.sampleIrq := by
  rcases h with h | ⟨h1, h2⟩
  · exact step_busy hs h
  · have hp : s.sampleIrq.irqPending = false := by
      cases hl : s.irqLine with
      | nil => simp [hl, h1]
      | cons b l => simp [hl, h1]; exact h2 b (by simp [hl])
    have ht : takesIrq s.sampleIrq = false := by unfold takesIrq; rw [hp]; rfl
    rcases nextAction_cases s with ⟨hc, -⟩ | ⟨-, op', k', hs', hn⟩ | ⟨-, hs', -⟩
    · simp [ht] at hc
    · obtain ⟨rfl, rfl⟩ : op' = op ∧ k' = k := by simpa [hs] using hs'.symm
      simp [step, hn]
    · simp [hs] at hs'

theorem callsOf_cons (e : Event) (es : List Event) : callsOf (e :: es) = e.pins.length + callsOf es := by simp [callsOf]

/-- An event whose precondition holds and whose calls succeed is performed, and the calls of the events after it still succeed (R70, R161). -/
theorem performEvent_succeeds {e : Event} {s : State} {es : List Event} (ha : e.allowed s.dir = true) (hc : CallsSucceed (e :: es) s) :
    ∃ u, performEvent e s = .done u ∧ CallsSucceed es u := by
  by_cases hio : s.params.ioCanFail = false
  · exact ⟨_, performEvent_reliable e s hio ha, .inl hio⟩
  · rcases hc with hc | ⟨rest, hr⟩
    · exact absurd hc hio
    · have hio : s.params.ioCanFail = true := by simpa using hio
      rw [callsOf_cons, Nat.add_comm] at hr
      cases e with
      | cfg p =>
        have hd : s.dir.get p = .unconfigured := by simpa [Event.allowed] using ha
        exact ⟨({ s with ioAnswers := List.replicate (callsOf es) IoOutcome.ok ++ rest }.setDir p .output).setOut p (some .low),
          by simp [performEvent, configurePin, hd, State.drawIo, hio, hr, Event.pins, List.replicate_succ], .inr ⟨rest, rfl⟩⟩
      | wr p v =>
        have hd : s.dir.get p = .output := by simpa [Event.allowed] using ha
        exact ⟨{ s with ioAnswers := List.replicate (callsOf es) IoOutcome.ok ++ rest }.setOut p (some v),
          by simp [performEvent, writePin, hd, State.drawIo, hio, hr, Event.pins, List.replicate_succ], .inr ⟨rest, rfl⟩⟩
      | data n =>
        obtain ⟨⟨⟨h0, h1⟩, h2⟩, h3⟩ := by simpa [Event.allowed] using ha
        exact ⟨{ s with out := presentOut n s.out, ioAnswers := List.replicate (callsOf es) IoOutcome.ok ++ rest },
          by simp [performEvent, present, Performed.andThen, writePin, State.drawIo, State.setOut, presentOut, h0, h1, h2, h3, hio, hr,
            Event.pins, List.replicate_succ], .inr ⟨rest, rfl⟩⟩
      | rel p =>
        have hd : s.dir.get p = .output := by simpa [Event.allowed] using ha
        exact ⟨({ s with ioAnswers := List.replicate (callsOf es) IoOutcome.ok ++ rest }.setDir p .unconfigured).setOut p none,
          by simp [performEvent, releasePin, hd, State.drawIo, hio, hr, Event.pins, List.replicate_succ], .inr ⟨rest, rfl⟩⟩
      | dly d => exact ⟨s, rfl, .inr ⟨rest, by simpa [Event.pins] using hr⟩⟩

end Sys2Proof.Safety
end

