-- ==== Sys2Proof/Machine/Assembler.lean ====
section
/-! DEFINITION. Machine/Assembler.lean: the written form of a program for the block: "a list of commands, one per line" (30_encoding.md R63).
The details the rule leaves open are in notes/assumptions/28.md. -/

namespace Sys2Proof.Machine

/-- A piece of a source line. -/
inductive Token where
  /-- a mnemonic, a source name, a line or a byte in hexadecimal -/
  | word (cs : List Char)
  /-- a double-quoted text -/
  | text (cs : List Char)
  /-- a quoted character -/
  | letter (c : Char)
  | comma
  | lpar
  | rpar
  deriving DecidableEq, Repr

/-- Where the reader of a line stands; what is collected is reversed. -/
inductive ScanMode where
  | plain (cs : List Char)
  | inText (cs : List Char)
  | inQuote
  | afterLetter (c : Char)
  | comment
  | bad
  deriving DecidableEq, Repr

/-- The tokens found so far, reversed, and where the reader stands. -/
structure Scanner where
  found : List Token
  now : ScanMode
  deriving DecidableEq, Repr

/-- The word collected so far becomes a token. -/
def Scanner.endWord (found : List Token) (cs : List Char) : List Token :=
  match cs with
  | [] => found
  | c :: rest => .word (c :: rest).reverse :: found

/-- A character outside quotations. The codes are those of the characters that separate tokens: blank, tab, comma, the two brackets,
semicolon, and the two quotation marks. -/
def scanPlain (found : List Token) (cs : List Char) (c : Char) : Scanner :=
  match c.toNat with
  | 0x20 => ⟨Scanner.endWord found cs, .plain []⟩
  | 0x09 => ⟨Scanner.endWord found cs, .plain []⟩
  | 0x2C => ⟨.comma :: Scanner.endWord found cs, .plain []⟩
  | 0x28 => ⟨.lpar :: Scanner.endWord found cs, .plain []⟩
  | 0x29 => ⟨.rpar :: Scanner.endWord found cs, .plain []⟩
  | 0x3B => ⟨Scanner.endWord found cs, .comment⟩
  | 0x22 => ⟨Scanner.endWord found cs, .inText []⟩
  | 0x27 => ⟨Scanner.endWord found cs, .inQuote⟩
  | _ => ⟨found, .plain (c :: cs)⟩

/-- One character of a line. -/
def Scanner.read (s : Scanner) (c : Char) : Scanner :=
  match s.now with
  | .plain cs => scanPlain s.found cs c
  | .inText cs => if c.toNat = 0x22 then ⟨.text cs.reverse :: s.found, .plain []⟩ else ⟨s.found, .inText (c :: cs)⟩
  | .inQuote => ⟨s.found, .afterLetter c⟩
  | .afterLetter l => if c.toNat = 0x27 then ⟨.letter l :: s.found, .plain []⟩ else ⟨s.found, .bad⟩
  | .comment => s
  | .bad => s

/-- The tokens of a line; `none` when a quotation is not closed. -/
def tokens (line : List Char) : Option (List Token) :=
  let s := line.foldl Scanner.read ⟨[], .plain []⟩
  match s.now with
  | .plain cs => some (Scanner.endWord s.found cs).reverse
  | .comment => some s.found.reverse
  | .inText _ => none
  | .inQuote => none
  | .afterLetter _ => none
  | .bad => none

/-- The value of a hexadecimal digit. -/
def hexDigit (c : Char) : Option Nat :=
  if 0x30 ≤ c.toNat ∧ c.toNat ≤ 0x39 then some (c.toNat - 0x30)
  else if 0x41 ≤ c.toNat ∧ c.toNat ≤ 0x46 then some (c.toNat - 0x37)
  else if 0x61 ≤ c.toNat ∧ c.toNat ≤ 0x66 then some (c.toNat - 0x57)
  else none

/-- The ASCII code of a character (G3, R59). -/
def asciiCode (c : Char) : Option Byte :=
  if c.toNat < 0x80 then some (BitVec.ofNat 8 c.toNat) else none

/-- "A byte is written in hexadecimal with `0x`, or as a quoted ASCII character." -/
def byteOf : Token → Option Byte
  | .letter c => asciiCode c
  | .word ['0', 'x', h] =>
    match hexDigit h with
    | some v => some (BitVec.ofNat 8 v)
    | none => none
  | .word ['0', 'x', h, l] =>
    match hexDigit h, hexDigit l with
    | some v, some w => some (BitVec.ofNat 8 (16 * v + w))
    | _, _ => none
  | _ => none

/-- "A line is written `1` or `2`"; in the source's spelling, `LINE_1` or `LINE_2`. -/
def lineOf : List Char → Option Line
  | ['1'] => some .line1
  | ['2'] => some .line2
  | ['L', 'I', 'N', 'E', '_', '1'] => some .line1
  | ['L', 'I', 'N', 'E', '_', '2'] => some .line2
  | _ => none

/-- "its bytes are the ASCII codes of its characters in order". -/
def textOf : List Char → Option Text
  | [] => some []
  | c :: cs =>
    match asciiCode c, textOf cs with
    | some b, some t => some (b :: t)
    | _, _ => none

/-- `WRI` and `WRC` with their byte. -/
def withByte (f : Byte → Instr) (t : Token) : Option Instr :=
  match byteOf t with
  | some b => some (f b)
  | none => none

/-- `SHOWLINE` with its line and its text. -/
def showlineOf (l t : List Char) : Option Instr :=
  match lineOf l, textOf t with
  | some line, some text => some (.showline line text)
  | _, _ => none

/-- The source names that stand before a pair of brackets: `initialize`, `writeInstruction`, `writeCharacter`, `strobeEnable`, `showLine`,
`clear` (R63). -/
inductive SourceName where
  | start
  | writeInstruction
  | writeCharacter
  | strobeEnable
  | showLine
  | clear
  deriving DecidableEq, Repr

/-- The spelling of a source name. -/
def SourceName.spelling : SourceName → List Char
  | .start => ['i', 'n', 'i', 't', 'i', 'a', 'l', 'i', 'z', 'e']
  | .writeInstruction => ['w', 'r', 'i', 't', 'e', 'I', 'n', 's', 't', 'r', 'u', 'c', 't', 'i', 'o', 'n']
  | .writeCharacter => ['w', 'r', 'i', 't', 'e', 'C', 'h', 'a', 'r', 'a', 'c', 't', 'e', 'r']
  | .strobeEnable => ['s', 't', 'r', 'o', 'b', 'e', 'E', 'n', 'a', 'b', 'l', 'e']
  | .showLine => ['s', 'h', 'o', 'w', 'L', 'i', 'n', 'e']
  | .clear => ['c', 'l', 'e', 'a', 'r']

/-- The source name a word spells. -/
def sourceName (w : List Char) : Option SourceName :=
  [SourceName.start, .writeInstruction, .writeCharacter, .strobeEnable, .showLine, .clear].find? fun n => decide (n.spelling = w)

/-- A command in the source's own spelling: the name and what stands between the brackets. -/
def sourceCommand (n : SourceName) (args : List Token) : Option Instr :=
  match n, args with
  | .start, [] => some .init
  | .writeInstruction, [b] => withByte .wri b
  | .writeCharacter, [b] => withByte .wrc b
  | .strobeEnable, [] => some .strobe
  | .showLine, [.text t, .comma, .word l] => showlineOf l t
  | .clear, [] => some .clear
  | _, _ => none

/-- A command in the mnemonics of R58. -/
def mnemonicCommand (w : List Char) (args : List Token) : Option Instr :=
  match w, args with
  | ['I', 'N', 'I', 'T'], [] => some .init
  | ['W', 'R', 'I'], [b] => withByte .wri b
  | ['W', 'R', 'C'], [b] => withByte .wrc b
  | ['S', 'T', 'R', 'O', 'B', 'E'], [] => some .strobe
  | ['S', 'H', 'O', 'W', 'L', 'I', 'N', 'E'], [.word l, .comma, .text t] => showlineOf l t
  | ['C', 'L', 'E', 'A', 'R'], [] => some .clear
  | ['S', 'H', 'U', 'T', 'D', 'O', 'W', 'N'], [] => some .shutdown
  | _, _ => none

/-- What a source line comes to. -/
inductive SourceLine where
  /-- a blank line, or a comment only -/
  | blank
  | command (i : Instr)
  /-- no command of R63 -/
  | error
  deriving DecidableEq, Repr

/-- A command, or an error. -/
def commandOrError : Option Instr → SourceLine
  | some i => .command i
  | none => .error

/-- One line of a program (R63). -/
def assembleLine (line : List Char) : SourceLine :=
  match tokens line with
  | none => .error
  | some [] => .blank
  | some (.word w :: .lpar :: rest) =>
    match sourceName w, rest.getLast? with
    | some n, some .rpar => commandOrError (sourceCommand n rest.dropLast)
    | _, _ => .error
  | some (.word w :: rest) => commandOrError (mnemonicCommand w rest)
  | some _ => .error

/-- A program: the commands of its lines in order; `none` when a line is no command. -/
def assemble : List (List Char) → Option (List Instr)
  | [] => some []
  | l :: rest =>
    match assembleLine l, assemble rest with
    | .blank, r => r
    | .command i, some is => some (i :: is)
    | _, _ => none

/-- The host's command port loaded with a program: each command as the word and the text the host delivers (R56, R57). -/
def hostCommands : List Instr → List HostCommand
  | [] => []
  | i :: rest =>
    match encode Config.defaultParams i with
    | .host c => c :: hostCommands rest
    | .bus5 _ => hostCommands rest
    | .bus9 _ => hostCommands rest

end Sys2Proof.Machine
end

