-- ==== Sys2Proof/Tests/Slice0.lean ====
section
/-! SUPPORT. Tests/Slice0.lean: small tests, with results from the spec's own vectors (95_test_vectors.md) and tables, and for each obligation
that has hypotheses a named witness that meets them. -/

namespace Sys2Proof.Tests

open Sys2Proof.Machine Sys2Proof.Safety

/-! ## Helpers -/

/-- The next state of an outcome. -/
def nextOf : Result → Option State
  | .next s => some s
  | .fault _ => none
  | .refused _ => none

/-- The refusal of an outcome. -/
def refusalOf : Result → Option Refusal
  | .next _ => none
  | .fault _ => none
  | .refused r => some r

/-- READY and idle: all pins outputs, at LOW, as six `Cfg` leave them. -/
def readyState : State :=
  { State.reset with
    dir := PinFile.all .output
    out := PinFile.all (some .low)
    phase := .ready
    trace := [⟨.cfg .rs, none⟩, ⟨.cfg .e, none⟩, ⟨.cfg .d3, none⟩, ⟨.cfg .d2, none⟩, ⟨.cfg .d1, none⟩, ⟨.cfg .d0, none⟩] }

/-- The same with an operation in progress. -/
def busyState (i : Instr) (k : Nat) : State := { readyState with seq := .busy i k }

/-- The same where calls can fail, with the answers given. -/
def failing (s : State) (answers : List IoOutcome) : State :=
  { s with params := { s.params with ioCanFail := true }, ioAnswers := answers }

/-- The same with the interrupt taken between events. -/
def atEvents (s : State) : State := { s with params := { s.params with irqGranularity := .event } }

/-- The entries of events that all succeeded. -/
def succeeded (es : List Event) : List Entry := es.map fun e => ⟨e, none⟩

/-! ## WellFormed refuses an ill-formed term for each check -/

theorem test_wellFormed_pins : ({ Config.defaultParams with pinE := 0 } : Params).pinsDistinct = false ∧
    ({ Config.defaultParams with pinBtn := 5 } : Params).ok = false ∧ Config.defaultParams.ok = true := by decide

theorem test_wellFormed_named_rows :
    ([Instr.functionSet, .displayOff, .clearDisplay, .entryMode, .displayOn, .setLine1, .setLine2].all fun i =>
      !i.wellFormed { Config.defaultParams with iDisplayOff := 0x28#8 } && i.wellFormed Config.defaultParams) = true := by decide

theorem test_wellFormed_instr : (Instr.instr 0x28#8).wellFormed Config.defaultParams = false ∧
    (Instr.instr 0xC0#8).wellFormed Config.defaultParams = false ∧ (Instr.instr 0x77#8).wellFormed Config.defaultParams = true := by decide

/-! ## Decoding: a word of each row, written out from R54 and R58 -/

theorem test_decode_host : decodeTableWord 12 0b000000000000 = some .init ∧
    decodeTableWord 12 0b000110000000 = some (.wri 0x80#8) ∧ decodeTableWord 12 0b001001000001 = some (.wrc 0x41#8) ∧
    decodeTableWord 12 0b001100000000 = some .strobe ∧ decodeTableWord 12 0b010000000000 = some (.showline .line1 []) ∧
    decodeTableWord 12 0b010000000001 = some (.showline .line2 []) ∧ decodeTableWord 12 0b010100000000 = some .clear ∧
    decodeTableWord 12 0b011000000000 = some .shutdown := by decide

theorem test_decode_bus5 : decodeTableWord 5 0b00011 = some .hs3 ∧ decodeTableWord 5 0b00010 = some .hs2 ∧
    decodeTableWord 5 0b10011 = none ∧ decodeTableWord 8 0b00011 = some .hs3 := by decide

theorem test_decode_bus9 : decodeTableWord 9 0b000101000 = some .functionSet ∧ decodeTableWord 9 0b000001000 = some .displayOff ∧
    decodeTableWord 9 0b000000001 = some .clearDisplay ∧ decodeTableWord 9 0b000000110 = some .entryMode ∧
    decodeTableWord 9 0b000001100 = some .displayOn ∧ decodeTableWord 9 0b010000000 = some .setLine1 ∧
    decodeTableWord 9 0b011000000 = some .setLine2 ∧ decodeTableWord 9 0b101000001 = some (.char 0x41#8) ∧
    decodeTableWord 9 0b001110111 = some (.instr 0x77#8) ∧ decodeTableWord 9 0 = some (.instr 0#8) := by decide

/-- 16 bits hold a HOSTCMD or a BUS9 word (log entry 7). -/
theorem test_decode_16 : decodeTableWord 16 0x0 = some .init ∧ decodeTableWord 16 0x28 = some .functionSet ∧
    decodeTableWord 16 0x0C0 = some .setLine2 ∧ decodeTableWord 16 0x600 = some .shutdown ∧ decodeTableWord 16 0x700 = none := by decide

/-- V-N4, V-N5, V-N6, V-N8: reserved words are rejected by name (R60). -/
theorem test_reserved : decodeHost ⟨0x700#12, []⟩ = .error (.reservedOp 7#4) ∧ decodeHost ⟨0xFFF#12, []⟩ = .error (.reservedOp 15#4) ∧
    decodeHost ⟨0x001#12, []⟩ = .error (.nonzeroArg 1#8) ∧ decodeHost ⟨0x402#12, []⟩ = .error (.reservedLineField 2#8) ∧
    decodeHost ⟨0x501#12, []⟩ = .error (.nonzeroArg 1#8) := ⟨rfl, rfl, rfl, rfl, rfl⟩

theorem test_stray_text : decodeHost ⟨0x500#12, [0x41#8]⟩ = .error .strayText := rfl

theorem test_bus9_parameter : decodeBus9 { Config.defaultParams with iFunctionSet := 0x2C#8 } 0x02C#9 = .functionSet := by decide

/-! ## Operands -/

/-- R122: "N/A", the empty text, and the 17 characters of "b8:27:eb:00:11:22". -/
theorem test_fit16 : fit16 notAvailable = [0x4E#8, 0x2F#8, 0x41#8] ++ List.replicate 13 0x20#8 ∧ fit16 [] = List.replicate 16 0x20#8 ∧
    fit16 [0x62#8, 0x38#8, 0x3A#8, 0x32#8, 0x37#8, 0x3A#8, 0x65#8, 0x62#8, 0x3A#8, 0x30#8, 0x30#8, 0x3A#8, 0x31#8, 0x31#8, 0x3A#8, 0x32#8,
      0x32#8] =
      [0x62#8, 0x38#8, 0x3A#8, 0x32#8, 0x37#8, 0x3A#8, 0x65#8, 0x62#8, 0x3A#8, 0x30#8, 0x30#8, 0x3A#8, 0x31#8, 0x31#8, 0x3A#8, 0x32#8] := by
  decide

/-- V-B6, R88. -/
theorem test_trunc8 : lcdCommand .high 0x141 = ⟨.high, 0x41#8⟩ := by decide

/-- R72: at 1 MHz, `T_STROBE` is 500 cycles or more; at 3 kHz, `T_STROBE` (1.5 cycles) is 2. -/
theorem test_delayCycles : delayCycles Config.defaultParams .strobe = 500 ∧
    delayCycles { Config.defaultParams with fClk := 3000 } .strobe = 2 := by decide

/-! ## What the controller latches: V-D5, V-D5b, V-B1, V-B4, V-B5, V-R7 -/

theorem test_latched_init : latchedFrom linesAtStart (succeeded (initEvents Config.defaultParams)) =
    [some 0x03#5, some 0x03#5, some 0x03#5, some 0x02#5, some 0x02#5, some 0x08#5, some 0x00#5, some 0x08#5, some 0x00#5, some 0x01#5,
      some 0x00#5, some 0x06#5, some 0x00#5, some 0x0C#5] := by decide

theorem test_latched_init_other : (latchedFrom linesAtStart
    (succeeded (initEvents { Config.defaultParams with iFunctionSet := 0x2C#8 }))).take 6 =
    [some 0x03#5, some 0x03#5, some 0x03#5, some 0x02#5, some 0x02#5, some 0x0C#5] := by decide

theorem test_latched_bytes : latchedFrom linesAtStart (succeeded (wriEvents 0x80#8)) = [some 0x08#5, some 0x00#5] ∧
    latchedFrom linesAtStart (succeeded (wrcEvents 0x41#8)) = [some 0x14#5, some 0x11#5] ∧
    latchedFrom linesAtStart (succeeded (wrcEvents 0x00#8)) = [some 0x10#5, some 0x10#5] ∧
    latchedFrom linesAtStart (succeeded (wrcEvents 0xFF#8)) = [some 0x1F#5, some 0x1F#5] := by decide

theorem test_latched_line : (latchedFrom linesAtStart (succeeded (showlineEvents .line1 [0x80#8, 0xFF#8]))).take 8 =
    [some 0x08#5, some 0x00#5, some 0x18#5, some 0x10#5, some 0x1F#5, some 0x1F#5, some 0x12#5, some 0x10#5] := by decide

/-- R65: the words of V-D5 read back: the handshake, then 0x28, 0x08, 0x01, 0x06, 0x0C. -/
theorem test_readLatched : readLatched [0x03#5, 0x03#5, 0x03#5, 0x02#5, 0x02#5, 0x08#5, 0x00#5, 0x08#5, 0x00#5, 0x01#5, 0x00#5, 0x06#5,
    0x00#5, 0x0C#5] = some ⟨[0x028#9, 0x008#9, 0x001#9, 0x006#9, 0x00C#9], none⟩ := by decide

/-- V-F1: a trace cut by a fault ends with an unpaired word (R65). -/
theorem test_readLatched_cut : readLatched [0x03#5, 0x03#5, 0x03#5, 0x02#5, 0x14#5] = some ⟨[], some 0x14#5⟩ := by decide

/-! ## Single steps -/

/-- R96, R14: the first event of `INIT` configures `PIN_D[0]`, which is then an output at LOW. -/
theorem test_init_first : (nextOf (exec .init State.reset)).map (fun t => (t.dir.d0, t.out.d0, t.dir.d1, t.seq)) =
    some (.output, some .low, .unconfigured, .busy .init 1) := by decide

/-- R102: the last event of `INIT` makes the block READY and idle. -/
theorem test_init_last : (nextOf (step { busyState .init 97 with phase := .uninit })).map (fun t => (t.phase, t.seq)) =
    some (.ready, .idle) := by decide

/-- V-B1: `WRI` writes `RS` LOW first. -/
theorem test_wri_first : (nextOf (exec (.wri 0x80#8) { readyState with out := PinFile.all (some .high) })).map (fun t => t.out.rs) =
    some (some .low) := by decide

/-- V-B5: `WRC` writes `RS` HIGH first, and event 1 puts the high nibble on the lines, bit `i` on `PIN_D[i]` (R51). -/
theorem test_wrc_nibble : (nextOf (exec (.wrc 0x3F#8) readyState)).map (fun t => t.out.rs) = some (some .high) ∧
    (nextOf (step (busyState (.wrc 0x3F#8) 1))).map (fun t => [t.out.d3, t.out.d2, t.out.d1, t.out.d0]) =
      some [some .low, some .low, some .high, some .high] := by decide

/-- R75: the second event of the strobe drives `E` HIGH; V-N3: at the port it is refused. -/
theorem test_strobe : (nextOf (step (busyState .strobe 1))).map (fun t => t.out.e) = some (some .high) ∧
    refusalOf (exec .strobe readyState) = some .bareStrobe := by decide

set_option maxRecDepth 4000 in
/-- V-X2: the byte that selects the line goes first, high nibble 0xC for line 2. -/
theorem test_showline_base : (nextOf (step (busyState (.showline .line2 notAvailable) 1))).map
    (fun t => [t.out.d3, t.out.d2, t.out.d1, t.out.d0]) = some [some .high, some .high, some .low, some .low] := by decide

set_option maxRecDepth 4000 in
/-- V-S3: the first character of "N/A" follows: `RS` HIGH at event 13, then the high nibble 4 of 0x4E. -/
theorem test_showline_character : (nextOf (step (busyState (.showline .line2 notAvailable) 13))).map (fun t => t.out.rs) =
      some (some .high) ∧
    (nextOf (step (busyState (.showline .line2 notAvailable) 14))).map (fun t => [t.out.d3, t.out.d2, t.out.d1, t.out.d0]) =
      some [some .low, some .high, some .low, some .low] := by decide

/-- V-R6: the last event of `CLEAR` is the settle delay. -/
theorem test_clear_last : (nextOf (step (busyState .clear 13))).map (fun t => (t.trace.head?, t.seq)) =
    some (some ⟨.dly .settle, none⟩, .idle) := by decide

/-- V-Y2: in UNINIT the shutdown performs nothing. -/
theorem test_shutdown_uninit : (nextOf (exec .shutdown State.reset)).map (fun t => (t.phase, t.trace)) = some (.down, []) := by decide

/-- V-Y1: the sixth release ends in DOWN with `RS` not driven. -/
theorem test_shutdown_last : (nextOf (step (busyState .shutdown 19))).map (fun t => (t.phase, t.dir.rs, t.out.rs)) =
    some (.down, .unconfigured, none) := by decide

/-- V-Y4: the failing `Wr(RS, LOW)` of the clear is swallowed: the releases are next, and no fault is recorded. -/
theorem test_shutdown_failing : (nextOf (exec .shutdown (failing readyState [.fail]))).map (fun t => (t.fault, t.seq, t.phase)) =
    some (.none, .busy .shutdown 14, .ready) := by decide

/-- R126: a failing release is skipped, raising nothing; the pin stays claimed. -/
theorem test_release_failing : (nextOf (step (failing (busyState .shutdown 15) [.fail]))).map
    (fun t => (t.fault, t.seq, t.dir.d1)) = some (.none, .busy .shutdown 16, .output) := by decide

/-- R98: the nibbles of the handshake words. -/
theorem test_handshake : (nextOf (step (busyState .hs3 0))).map (fun t => [t.out.d3, t.out.d2, t.out.d1, t.out.d0]) =
      some [some .low, some .low, some .high, some .high] ∧
    (nextOf (step (busyState .hs2 0))).map (fun t => [t.out.d3, t.out.d2, t.out.d1, t.out.d0]) =
      some [some .low, some .low, some .high, some .low] := by decide

/-- G1, R100: the low nibbles of the five configuration bytes and the high nibbles of the two line bases. -/
theorem test_bus_bytes :
    ([Instr.functionSet, .displayOff, .clearDisplay, .entryMode, .displayOn].map fun i =>
      (nextOf (step (busyState i 7))).map fun t => [t.out.d3, t.out.d2, t.out.d1, t.out.d0]) =
      [some [some .high, some .low, some .low, some .low], some [some .high, some .low, some .low, some .low],
        some [some .low, some .low, some .low, some .high], some [some .low, some .high, some .high, some .low],
        some [some .high, some .high, some .low, some .low]] := by decide

theorem test_set_lines : ([Instr.setLine1, .setLine2].map fun i =>
      (nextOf (step (busyState i 1))).map fun t => [t.out.d3, t.out.d2, t.out.d1, t.out.d0]) =
      [some [some .high, some .low, some .low, some .low], some [some .high, some .high, some .low, some .low]] := by decide

theorem test_char_instr : (nextOf (step (busyState (.char 0x41#8) 0))).map (fun t => t.out.rs) = some (some .high) ∧
    (nextOf (step (busyState (.instr 0x77#8) 0))).map (fun t => t.out.rs) = some (some .low) := by decide

/-- A bus word is no command of the host. -/
theorem test_bus_at_port : refusalOf (exec (.char 0x41#8) readyState) = some .busWordAtPort := by decide

/-! ## Faults: V-F1, V-F2, V-F3, V-F4 -/

theorem test_fault_enable : (nextOf (step (failing { busyState (.wrc 0x48#8) 11 with out := { readyState.out with e := some .high } }
    [.fail]))).map (fun t => (t.phase, t.fault, t.out.e, t.seq)) = some (.faulted, .ioFault .e, none, .idle) := by decide

theorem test_fault_configure : (nextOf (step (failing { State.reset with seq := .busy .init 4 } [.fail]))).map
    (fun t => (t.phase, t.fault, t.dir.e, t.out.e)) = some (.faulted, .ioFault .e, .unconfigured, none) := by decide

theorem test_fault_present : (nextOf (step (failing (busyState (.wrc 0xFF#8) 1) [.ok, .ok, .fail]))).map
    (fun t => (t.fault, [t.out.d0, t.out.d1, t.out.d2, t.out.d3])) =
    some (.ioFault .d2, [some .high, some .high, none, some .low]) := by decide

theorem test_fault_no_cleanup : (nextOf (step { readyState with phase := .faulted, fault := .ioFault .e, irqPending := true })).map
    (fun t => (t.phase, t.trace.length, t.dir.e)) = some (.faulted, 6, .output) := by decide

/-! ## Refusals: V-N1, V-N2, V-N4, V-N7, V-N9 -/

theorem test_refused : refusalOf (exec (.wrc 0x41#8) State.reset) = some .notInitialised ∧
    refusalOf (exec .init readyState) = some .secondInit ∧
    refusalOf (step { readyState with host := [⟨0x700#12, []⟩] }) = some (.undecodable (.reservedOp 7#4)) ∧
    refusalOf (exec .clear { State.reset with phase := .down }) = some .afterShutdown ∧
    refusalOf (exec .shutdown { State.reset with phase := .down }) = some .afterShutdown := by decide

/-- R155: a second command while the block is busy. -/
theorem test_overlap : refusalOf (exec .clear (busyState (.wri 0x80#8) 3)) = some .portBusy := by decide

theorem test_pinMap : refusalOf (exec .init { State.reset with params := { Config.defaultParams with pinE := 0 } }) =
    some .pinMapNotDistinct := by decide

/-- R71: a write to a pin that is not configured (no run from reset gets there). -/
theorem test_unconfigured : refusalOf (step { State.reset with seq := .busy .clear 0 }) = some .writeUnconfiguredPin := by decide

/-! ## The interrupt -/

set_option maxRecDepth 4000 in
/-- V-Y3: it arrives inside a `SHOWLINE`: the operation goes on, and the interrupt waits. -/
theorem test_irq_inside : (nextOf (step { busyState (.showline .line1 []) 100 with irqLine := [true] })).map
    (fun t => (t.irqPending, t.seq)) = some (true, .busy (.showline .line1 []) 101) := by decide

/-- R167: at the boundary the cleanup starts, and the host's next command waits. -/
theorem test_irq_boundary : (nextOf (step { readyState with irqPending := true, host := [⟨0x500#12, []⟩] })).map
    (fun t => (t.seq, t.host.length)) = some (.busy .shutdown 1, 1) := by decide

/-- D17: with `IRQ_GRANULARITY = event` the running operation is abandoned. -/
theorem test_irq_event : (nextOf (step { atEvents (busyState (.wri 0x80#8) 4) with irqPending := true })).map (fun t => t.seq) =
    some (.busy .shutdown 1) := by decide

/-! ## The word at the port -/

theorem test_withFetchWord : (nextOf (step (State.reset.withFetchWord 12 0x000))).map (fun t => t.seq) = some (.busy .init 1) ∧
    (nextOf (step (State.reset.withFetchWord 12 0x241))).map (fun t => t.seq) = some (.busy (.wrc 0x41#8) 1) ∧
    (nextOf (step (State.reset.withFetchWord 9 0x028))).map (fun t => t.seq) = some (.busy .functionSet 1) := by decide

/-! ## Source lines: the examples of R63 -/

theorem test_assemble_mnemonic : assembleLine ['W', 'R', 'C', ' ', ' ', '0', 'x', '4', '1', ' ', ';', ' ', 'a'] = .command (.wrc 0x41#8) ∧
    assembleLine ['W', 'R', 'C', ' ', Char.ofNat 0x27, 'A', Char.ofNat 0x27] = .command (.wrc 0x41#8) ∧
    assembleLine ['S', 'H', 'O', 'W', 'L', 'I', 'N', 'E', ' ', '2', ',', ' ', Char.ofNat 0x22, 'N', '/', 'A', Char.ofNat 0x22] =
      .command (.showline .line2 notAvailable) := by decide

theorem test_assemble_source : assembleLine ['c', 'l', 'e', 'a', 'r', '(', ')'] = .command .clear ∧
    assembleLine ['s', 'h', 'o', 'w', 'L', 'i', 'n', 'e', '(', Char.ofNat 0x22, 'N', '/', 'A', Char.ofNat 0x22, ',', ' ', 'L', 'I', 'N',
      'E', '_', '2', ')'] = .command (.showline .line2 notAvailable) ∧ assembleLine ['W', 'R', 'I'] = .error := by decide

/-! ## The host: the ticks of V-X6 -/

/-- Ticks 2 to 5: the IP screen, nothing, the new IP, the MAC screen without an address. -/
theorem test_host_ticks : hostTick .start ⟨false, some [0x35#8], none⟩ = (⟨.showingIp, [0x35#8]⟩, renderPair ipTitle [0x35#8]) ∧
    hostTick ⟨.showingIp, [0x35#8]⟩ ⟨false, some [0x35#8], none⟩ = (⟨.showingIp, [0x35#8]⟩, []) ∧
    hostTick ⟨.showingIp, [0x35#8]⟩ ⟨false, some [0x36#8], none⟩ = (⟨.showingIp, [0x36#8]⟩, renderPair ipTitle [0x36#8]) ∧
    hostTick ⟨.showingIp, [0x36#8]⟩ ⟨true, some [0x37#8], none⟩ = (⟨.showingMac, [0x36#8]⟩, renderPair macTitle notAvailable) := by decide

/-- Ticks 6 to 8. -/
theorem test_host_release : hostTick ⟨.showingMac, [0x36#8]⟩ ⟨true, some [0x37#8], some [0x61#8]⟩ = (⟨.showingMac, [0x36#8]⟩, []) ∧
    hostTick ⟨.showingMac, [0x36#8]⟩ ⟨false, some [0x37#8], some [0x61#8]⟩ = (⟨.showingIp, [0x37#8]⟩, renderPair ipTitle [0x37#8]) ∧
    hostTick ⟨.showingIp, [0x37#8]⟩ ⟨false, none, some [0x61#8]⟩ = (⟨.waiting, [0x37#8]⟩, renderPair waitingTitle waitingDetail) := by
  decide

/-! ## Witnesses: for each obligation with hypotheses, states and operands that meet them together -/

/-- `E` is HIGH inside a byte write. -/
def highState : State := { busyState (.wri 0x41#8) 4 with out := { readyState.out with e := some .high } }

/-- Before the last event of `INIT`. -/
def lastInitState : State := { busyState .init 97 with phase := .uninit }

def downState : State := { State.reset with phase := .down }

/-- The host's next command is `CLEAR`. -/
def readyWithClear : State := { readyState with host := [⟨0x500#12, []⟩] }

/-- The host's only command is `SHUTDOWN`, before `INIT`. -/
def resetWithShutdown : State := { State.reset with host := [⟨0x600#12, []⟩] }

/-- The next call fails. -/
def failingBusy : State := failing (busyState (.wri 0x41#8) 0) [.fail]

def faultedState : State := failing { readyState with phase := .faulted, fault := .ioFault .e } []

/-- The invariant of an idle state, field by field. -/
theorem idle_inv {s : State} (hs : s.seq = .idle) (h1 : ∀ p, s.dir.get p = .unconfigured → s.out.get p = none)
    (h2 : s.phase = .faulted ↔ s.fault ≠ .none) (h3 : s.params.ioCanFail = false → s.fault = .none)
    (h4 : s.phase = .uninit → s.dir = PinFile.all .unconfigured)
    (h5 : s.phase = .ready → s.dir = PinFile.all .output ∧ s.out.e = some .low) : BlockInvariant s :=
  ⟨h1, h2, h3, fun _ => hs, fun h _ => h4 h, fun h _ => h5 h, fun _ _ h => by rw [hs] at h; exact (nomatch h),
    fun _ h => by rw [hs] at h; exact (nomatch h)⟩

/-- The invariant of a state with an operation other than the cleanup in progress. -/
theorem busy_inv {s : State} {op : Instr} {k : Nat} (hs : s.seq = .busy op k) (h1 : ∀ p, s.dir.get p = .unconfigured → s.out.get p = none)
    (h2 : s.phase = .faulted ↔ s.fault ≠ .none) (h3 : s.params.ioCanFail = false → s.fault = .none)
    (h4 : s.phase ≠ .down ∧ s.phase ≠ .faulted) (hop : op ≠ .shutdown)
    (h5 : isHostOperation op = true ∧ k < (eventsOf s.params s.phase op).length ∧
      ((op = .init ∧ s.phase = .uninit) ∨ (op ≠ .init ∧ s.phase = .ready)) ∧
      cleanFrom s.dir s.out.e ((eventsOf s.params s.phase op).drop k) = true) : BlockInvariant s := by
  refine ⟨h1, h2, h3, fun h => ?_, fun _ h => ?_, fun _ h => ?_, fun op' k' h _ => ?_, fun k' h => ?_⟩
  · rcases h with h | h
    · exact absurd h h4.1
    · exact absurd h h4.2
  · rw [hs] at h; exact (nomatch h)
  · rw [hs] at h; exact (nomatch h)
  · rw [hs] at h; cases h; exact h5
  · rw [hs] at h; cases h; exact absurd rfl hop

theorem witness_inv_ready : BlockInvariant readyState :=
  idle_inv rfl (fun p => by cases p <;> decide) (by decide) (by decide) (by decide) (by decide)

theorem witness_inv_readyWithClear : BlockInvariant readyWithClear :=
  idle_inv rfl (fun p => by cases p <;> decide) (by decide) (by decide) (by decide) (by decide)

theorem witness_inv_resetWithShutdown : BlockInvariant resetWithShutdown :=
  idle_inv rfl (fun p => by cases p <;> decide) (by decide) (by decide) (by decide) (by decide)

theorem witness_inv_down : BlockInvariant downState :=
  idle_inv rfl (fun p => by cases p <;> decide) (by decide) (by decide) (by decide) (by decide)

theorem witness_inv_faulted : BlockInvariant faultedState :=
  idle_inv rfl (fun p => by cases p <;> decide) (by decide) (by decide) (by decide) (by decide)

theorem witness_inv_busy : BlockInvariant (busyState (.wri 0x41#8) 0) :=
  busy_inv rfl (fun p => by cases p <;> decide) (by decide) (by decide) (by decide) (by decide) (by decide)

theorem witness_inv_failingBusy : BlockInvariant failingBusy :=
  busy_inv rfl (fun p => by cases p <;> decide) (by decide) (by decide) (by decide) (by decide) (by decide)

theorem witness_inv_high : BlockInvariant highState :=
  busy_inv rfl (fun p => by cases p <;> decide) (by decide) (by decide) (by decide) (by decide) (by decide)

set_option maxRecDepth 4000 in
theorem witness_inv_lastInit : BlockInvariant lastInitState :=
  busy_inv rfl (fun p => by cases p <;> decide) (by decide) (by decide) (by decide) (by decide) (by decide)

theorem witness_inv_cleanup : BlockInvariant (busyState .shutdown 0) := by
  refine ⟨fun p => by cases p <;> decide, by decide, by decide, fun h => ?_, fun _ h => (nomatch h), fun _ h => (nomatch h),
    fun op k h hop => ?_, fun k h => ?_⟩
  · revert h; decide
  · cases h; exact absurd rfl hop
  · cases h; exact ⟨⟨.wr .rs .low, rfl, by decide⟩, fun _ => by decide⟩

/-! ### Encodings and operands -/

theorem witness_DecodeEncodeAgree :
    ([Instr.init, .wri 0xFF#8, .wrc 0#8, .strobe, .showline .line2 [0x41#8], .clear, .shutdown, .hs3, .hs2, .functionSet, .displayOff,
      .clearDisplay, .entryMode, .displayOn, .setLine1, .setLine2, .char 0xFF#8, .instr 0xFF#8].all fun i =>
      i.wellFormed Config.defaultParams) = true := by decide

theorem witness_EncodeDecodeAgree :
    decode Config.defaultParams (.host ⟨0x2FF#12, []⟩) = .ok (.wrc 0xFF#8) ∧
    decode Config.defaultParams (.bus5 0x03#5) = .ok .hs3 ∧ decode Config.defaultParams (.bus9 0x1FF#9) = .ok (.char 0xFF#8) :=
  ⟨rfl, rfl, rfl⟩

/-- The two cases of `fit16` at their boundary, and the first and the last index of each range. -/
theorem witness_Fit16PadsOrTruncates :
    16 ≤ (List.replicate 16 0x41#8).length ∧ (List.replicate 15 0x41#8).length < 16 ∧
    15 < min (List.replicate 16 0x41#8).length 16 ∧ 0 < min (List.replicate 1 0x41#8).length 16 ∧
    (List.replicate 15 0x41#8).length ≤ 15 ∧ (List.replicate 0 0x41#8).length ≤ 0 := by decide

/-! ### Steps -/

theorem witness_StepRunsTheNextInstruction :
    ((busyState .clear 3).seq = .busy .clear 3 ∧ takesIrq (busyState .clear 3).sampleIrq = false) ∧
    (readyWithClear.seq = .idle ∧ takesIrq readyWithClear.sampleIrq = false ∧ decodeHost ⟨0x500#12, []⟩ = .ok .clear) ∧
    (takesIrq { readyState with host := [⟨0x700#12, []⟩] }.sampleIrq = false ∧ decodeHost ⟨0x700#12, []⟩ = .error (.reservedOp 7#4)) ∧
    (takesIrq readyState.sampleIrq = false ∧ readyState.host = []) ∧
    takesIrq { readyState with irqLine := [true] }.sampleIrq = true :=
  ⟨⟨rfl, by decide⟩, ⟨rfl, by decide, rfl⟩, ⟨by decide, rfl⟩, ⟨by decide, rfl⟩, by decide⟩

/-- Also for `OperationInProgressNeverStops`, `AcceptedOperationEnds` and `StepKeepsBalance`. -/
theorem witness_StepKeepsInvariant :
    (BlockInvariant readyWithClear ∧ ∃ t, step readyWithClear = .next t) ∧
    (BlockInvariant (busyState (.wri 0x41#8) 0) ∧ ∃ t, step (busyState (.wri 0x41#8) 0) = .next t) ∧
    (BlockInvariant (busyState .shutdown 0) ∧ ∃ t, step (busyState .shutdown 0) = .next t) :=
  ⟨⟨witness_inv_readyWithClear, _, rfl⟩, ⟨witness_inv_busy, _, rfl⟩, ⟨witness_inv_cleanup, _, rfl⟩⟩

theorem witness_StepKeepsSeesLatches : SeesLatches readyWithClear ∧ ∃ t, step readyWithClear = .next t :=
  ⟨fun p => by cases p <;> decide, _, rfl⟩

theorem witness_StepKeepsBalance : BlockInvariant (busyState (.wri 0x41#8) 0) ∧ IrqAtBoundary (busyState (.wri 0x41#8) 0) ∧
    Balanced (busyState (.wri 0x41#8) 0) ∧ ∃ t, step (busyState (.wri 0x41#8) 0) = .next t :=
  ⟨witness_inv_busy, rfl, fun _ _ => by decide, _, rfl⟩

theorem witness_OperationInProgressNeverStops : BlockInvariant (busyState .shutdown 0) ∧ (busyState .shutdown 0).seq ≠ .idle :=
  ⟨witness_inv_cleanup, by decide⟩

/-- With the interrupt at boundaries, and between events. -/
theorem witness_AcceptedOperationEnds : (BlockInvariant lastInitState ∧ IrqAtBoundary lastInitState) ∧
    (BlockInvariant (atEvents (busyState (.wri 0x41#8) 0)) ∧ ¬ IrqAtBoundary (atEvents (busyState (.wri 0x41#8) 0))) :=
  ⟨⟨witness_inv_lastInit, rfl⟩,
    busy_inv rfl (fun p => by cases p <;> decide) (by decide) (by decide) (by decide) (by decide) (by decide), by decide⟩

theorem witness_ShutdownAlwaysEndsDown : BlockInvariant readyState ∧ Ready readyState ∧ Idle readyState :=
  ⟨witness_inv_ready, by decide, rfl⟩

theorem witness_DataStableWhileEnableHigh : BlockInvariant highState ∧ IrqAtBoundary highState ∧
    (∀ k, highState.seq ≠ .busy .shutdown k) ∧ highState.out.e = some .high ∧ ∃ t, step highState = .next t :=
  ⟨witness_inv_high, rfl, fun _ h => (nomatch h), rfl, _, rfl⟩

/-- The three ways: nothing performed, an event performed, an event failed. Also for `ParametersAndPendingStay`. -/
theorem witness_OnlyEventsChangePins : (∃ t, step readyState = .next t) ∧ (∃ t, step (busyState .clear 0) = .next t) ∧
    (nextOf (step (failing (busyState .clear 0) [.fail]))).map (fun t => t.trace.head?) = some (some ⟨.wr .rs .low, some .rs⟩) :=
  ⟨⟨_, rfl⟩, ⟨_, rfl⟩, by decide⟩

theorem witness_ParametersAndPendingStay : (∃ t, step { readyState with irqLine := [false] } = .next t) ∧
    (faultedState.fault ≠ .none ∧ ∃ t, step faultedState = .next t) :=
  ⟨⟨_, rfl⟩, by decide, _, rfl⟩

/-- The end of `INIT`, the end of the cleanup, and the fault; the cleanup also in progress and started by the interrupt. -/
theorem witness_OnlyThreeWaysChangePhase :
    (BlockInvariant lastInitState ∧ (nextOf (step lastInitState)).map (fun t => t.phase) = some .ready) ∧
    (BlockInvariant resetWithShutdown ∧ (nextOf (step resetWithShutdown)).map (fun t => t.phase) = some .down) ∧
    (BlockInvariant failingBusy ∧ (nextOf (step failingBusy)).map (fun t => t.phase) = some .faulted) ∧
    (nextOf (step (busyState .shutdown 19))).map (fun t => t.phase) = some .down ∧
    (nextOf (step { State.reset with irqPending := true })).map (fun t => t.phase) = some .down := by
  refine ⟨⟨witness_inv_lastInit, ?_⟩, ⟨witness_inv_resetWithShutdown, ?_⟩, ⟨witness_inv_failingBusy, ?_⟩, ?_, ?_⟩ <;> decide

theorem witness_FinalPhasesStay :
    (downState.seq = .idle ∧ downState.phase = .down ∧ downState.host = [] ∧ ∃ t, step downState = .next t) ∧
    (({ faultedState with host := [⟨0x500#12, []⟩] } : State).seq = .idle ∧
      ({ faultedState with host := [⟨0x500#12, []⟩] } : State).phase = .faulted ∧
      decodeHost ⟨0x500#12, []⟩ = .ok .clear ∧ Instr.clear ≠ .strobe) :=
  ⟨⟨rfl, rfl, rfl, _, rfl⟩, rfl, rfl, rfl, by decide⟩

theorem witness_AdmissionByPhase : State.reset.seq = .idle ∧ State.reset.phase = .uninit ∧ readyState.seq = .idle ∧
    readyState.phase = .ready ∧ downState.seq = .idle ∧ downState.phase = .down ∧ faultedState.seq = .idle ∧
    faultedState.phase = .faulted := by decide

theorem witness_RefusedByTheModel :
    ({ State.reset with params := { Config.defaultParams with pinE := 0 } } : State).seq = .idle ∧
    ({ Config.defaultParams with pinE := 0 } : Params).pinsDistinct = false ∧ isHostOperation .hs3 = false ∧
    isHostOperation (.instr 0#8) = false := by decide

/-- A first event, a later one, a last one, and one that fails. -/
theorem witness_InstructionFrame : (∃ t, exec .init State.reset = .next t) ∧ (∃ t, exec .clear (busyState .clear 3) = .next t) ∧
    (∃ t, exec .strobe (busyState .strobe 4) = .next t) ∧
    (nextOf (exec .clear (failing readyState [.fail]))).map (fun t => t.phase) = some .faulted :=
  ⟨⟨_, rfl⟩, ⟨_, rfl⟩, ⟨_, rfl⟩, by decide⟩

theorem witness_ShutdownFrame : (∃ t, exec .shutdown State.reset = .next t) ∧ (∃ t, exec .shutdown readyState = .next t) ∧
    ∃ t, exec .shutdown (busyState .shutdown 19) = .next t := ⟨⟨_, rfl⟩, ⟨_, rfl⟩, _, rfl⟩

/-! ### Completion -/

/-- Also for `InitLatches`. -/
theorem witness_InitCompletes : Fresh State.reset ∧ Idle State.reset ∧ State.reset.params.pinsDistinct = true ∧ IoReliable State.reset ∧
    IrqAtBoundary State.reset ∧ State.reset.trace = [] := by decide

/-- For `WriCompletes`, `WrcCompletes`, `ShowlineCompletes`, `ClearCompletes`, `ShutdownCompletes` and `ShowlineHasNoHiddenState`. -/
theorem witness_ready : readyState.phase = .ready ∧ readyState.dir = PinFile.all .output ∧ Idle readyState ∧ IoReliable readyState ∧
    IrqAtBoundary readyState ∧ State.reset.phase ≠ .ready ∧ Idle State.reset := by decide

/-- Also for its clause in UNINIT. -/
theorem witness_InterruptShutsDown : (({ readyState with irqPending := true } : State).phase = .ready ∧
    Idle { readyState with irqPending := true } ∧ IoReliable { readyState with irqPending := true } ∧
    IrqAtBoundary { readyState with irqPending := true } ∧ ({ readyState with irqPending := true } : State).irqPending = true ∧
    ({ readyState with irqPending := true } : State).dir = PinFile.all .output) ∧
    (({ State.reset with irqPending := true } : State).irqPending = true ∧ Idle { State.reset with irqPending := true } ∧
      ({ State.reset with irqPending := true } : State).phase = .uninit ∧
      ({ State.reset with irqPending := true } : State).dir = PinFile.all .unconfigured) := by decide

/-- `INIT` has claimed two pins and stands before `Cfg(PIN_D[2])`. -/
def halfConfigured : State :=
  { State.reset with
    dir := { State.reset.dir with d0 := .output, d1 := .output }
    out := { State.reset.out with d0 := some .low, d1 := some .low }
    seq := .busy .init 2 }

/-- In READY, and inside `INIT` with two pins claimed; the second test reads the outcome: the two are released, and no others (D17, R126). -/
theorem witness_InterruptAbandonsOperation :
    ((atEvents { busyState (.wri 0x80#8) 4 with irqPending := true }).seq = .busy (.wri 0x80#8) 4 ∧
      (atEvents { busyState (.wri 0x80#8) 4 with irqPending := true }).phase = .ready ∧
      (atEvents { busyState (.wri 0x80#8) 4 with irqPending := true }).dir = PinFile.all .output ∧
      IoReliable (atEvents { busyState (.wri 0x80#8) 4 with irqPending := true })) ∧
    ((atEvents { halfConfigured with irqPending := true }).phase = .uninit ∧
      IoReliable (atEvents { halfConfigured with irqPending := true }) ∧
      ([Pin.d0, .d1, .d2, .d3, .e, .rs].all fun p => decide (halfConfigured.dir.get p = .unconfigured → halfConfigured.out.get p = none)) =
        true) := by decide

theorem test_irq_inside_init : (nextOf (step (atEvents { halfConfigured with irqPending := true }))).map
    (fun t => (t.seq, t.trace.head?, t.dir.d0)) = some (.busy .shutdown 1, some ⟨.rel .d0, none⟩, .unconfigured) := by decide

/-- From acceptance with calls that can fail and do not, and in progress with the interrupt taken between events and none pending. -/
theorem witness_OperationRunsThroughItsEvents :
    (AtEvent .clear 0 (failing readyState (List.replicate 17 .ok)) ∧
      allAllowed (failing readyState []).dir (clearEvents Config.defaultParams) = true ∧
      CallsSucceed (clearEvents Config.defaultParams) (failing readyState (List.replicate 17 .ok)) ∧
      NotInterrupted 13 (failing readyState (List.replicate 17 .ok))) ∧
    (AtEvent .clear 12 (atEvents (busyState .clear 12)) ∧
      CallsSucceed ((clearEvents Config.defaultParams).drop 12) (atEvents (busyState .clear 12)) ∧
      NotInterrupted 1 (atEvents (busyState .clear 12))) :=
  ⟨⟨.inr ⟨rfl, rfl, .inr ⟨rfl, .inr (.inr (.inr rfl))⟩⟩, by decide, .inr ⟨[.ok, .ok, .ok, .ok], by decide⟩, .inl rfl⟩,
    .inl rfl, .inl rfl, .inr ⟨rfl, by decide⟩⟩

theorem witness_ShutdownByPhase : State.reset.phase = .uninit ∧ State.reset.dir = PinFile.all .unconfigured ∧ Idle State.reset ∧
    readyState.phase = .ready ∧ IoReliable readyState ∧ downState.phase = .down ∧ faultedState.phase = .faulted := by decide

theorem witness_StrobeCompletes : Idle State.reset ∧ (busyState .strobe 0).seq = .busy .strobe 0 ∧
    (busyState .strobe 0).dir.get .e = .output ∧ IoReliable (busyState .strobe 0) ∧ IrqAtBoundary (busyState .strobe 0) := by decide

/-- For `HandshakeWordsComplete`, `BusBytesComplete` and `ClearDisplayCompletes`: every bus word at its first event. -/
theorem witness_bus_words :
    ([Instr.hs3, .hs2, .functionSet, .displayOff, .clearDisplay, .entryMode, .displayOn, .setLine1, .setLine2, .char 0xFF#8,
      .instr 0#8].all fun i => decide ((busyState i 0).seq = .busy i 0 ∧ (busyState i 0).dir = PinFile.all .output ∧
        IoReliable (busyState i 0) ∧ IrqAtBoundary (busyState i 0))) = true := by decide

/-- For `ByteWritesLatch` and `ShowlineLatchesSixteen`, at the lengths 0, 16 and 17. -/
theorem witness_latching : Ready readyState ∧ Idle readyState ∧ SeesLatches readyState ∧ IoReliable readyState ∧
    IrqAtBoundary readyState ∧ ([] : Text).length ≤ 16 ∧ (List.replicate 16 0x41#8).length ≤ 16 ∧
    16 < (List.replicate 17 0x41#8).length :=
  ⟨by decide, rfl, fun p => by cases p <;> decide, rfl, rfl, by decide, by decide, by decide⟩

/-! ### Failures -/

/-- The first event at acceptance, of `WRI` and of `INIT`. -/
theorem witness_FailingCallTakesIoFault_accepted :
    (AtEvent (.wri 0x41#8) 0 (failing readyState [.fail]) ∧
      (eventsOf Config.defaultParams .ready (.wri 0x41#8))[0]? = some (.wr .rs .low) ∧
      (Event.wr .rs .low).allowed (failing readyState [.fail]).dir = true) ∧
    (AtEvent .init 0 (failing State.reset [.fail]) ∧ (Event.cfg .d0).allowed (failing State.reset [.fail]).dir = true) :=
  ⟨⟨.inr ⟨rfl, rfl, .inr ⟨rfl, .inl ⟨_, rfl⟩⟩⟩, rfl, by decide⟩, .inr ⟨rfl, rfl, .inl ⟨rfl, rfl, by decide⟩⟩, by decide⟩

theorem witness_FailingCallTakesIoFault :
    ((eventsOf Config.defaultParams .ready (.wrc 0x48#8))[11]? = some (.wr .e .low) ∧
      (Event.wr .e .low).allowed (failing (busyState (.wrc 0x48#8) 11) [.fail]).dir = true) ∧
    ((eventsOf Config.defaultParams .uninit .init)[0]? = some (.cfg .d0) ∧
      (Event.cfg .d0).allowed State.reset.dir = true) ∧
    (failing (busyState (.wrc 0x48#8) 11) [.fail]).params.ioCanFail = true := by decide

theorem witness_FailingPresentTakesIoFault :
    (eventsOf Config.defaultParams .ready (.wrc 0xFF#8))[1]? = some (.data 0xF#4) ∧
    ([[IoOutcome.fail], [.ok, .fail], [.ok, .ok, .fail], [.ok, .ok, .ok, .fail]].all fun a =>
      decide ((failing (busyState (.wrc 0xFF#8) 1) a).ioAnswers = a ∧ (failing (busyState (.wrc 0xFF#8) 1) a).params.ioCanFail = true ∧
        (failing (busyState (.wrc 0xFF#8) 1) a).dir = PinFile.all .output)) = true := by decide

/-- A failing release in the middle, and the last one; the first in UNINIT, at acceptance, with two pins claimed. -/
theorem witness_CleanupSkipsFailingRelease :
    (CleanupAtEvent 16 (failing (busyState .shutdown 16) [.fail]) ∧
      (shutdownEvents Config.defaultParams .ready)[16]? = some (.rel .d2) ∧
      (failing (busyState .shutdown 16) [.fail]).dir.get .d2 = .output) ∧
    ((shutdownEvents Config.defaultParams .ready)[19]? = some (.rel .rs) ∧
      (nextOf (exec .shutdown (failing (busyState .shutdown 19) [.fail]))).map (fun t => (t.phase, t.dir.rs)) = some (.down, .output)) ∧
    CleanupAtEvent 0 (failing { halfConfigured with seq := .idle } [.fail]) :=
  ⟨⟨⟨16, .inl rfl, Nat.le_refl _, fun _ h1 h2 => absurd h1 (Nat.not_le_of_lt h2)⟩, rfl, rfl⟩, ⟨rfl, by decide⟩,
    ⟨0, .inr ⟨rfl, rfl, .inl rfl⟩, Nat.le_refl _, fun _ _ h2 => absurd h2 (Nat.not_lt_zero _)⟩⟩

/-- A `Data` event of the clear, and the acceptance. -/
theorem witness_CleanupSwallowsFailure_data :
    (shutdownEvents Config.defaultParams .ready)[1]? = some (.data 0x0#4) ∧ (failing readyState [.fail]).seq = .idle ∧
    (failing readyState [.fail]).phase = .ready ∧ (failing readyState [.ok, .ok, .ok, .fail]).params.ioCanFail = true := by decide

/-- The first and the last write of the clear. -/
theorem witness_CleanupSwallowsFailure :
    (shutdownEvents Config.defaultParams .ready)[0]? = some (.wr .rs .low) ∧
    (shutdownEvents Config.defaultParams .ready)[11]? = some (.wr .e .low) ∧
    (failing (busyState .shutdown 11) [.fail]).ioAnswers = [.fail] ∧ (failing (busyState .shutdown 11) [.fail]).params.ioCanFail = true ∧
    (failing (busyState .shutdown 11) [.fail]).dir = PinFile.all .output := by decide

end Sys2Proof.Tests
end

section
/-! PROOFS. The statements of family 00_scope.md: what no step writes or clears (R6, R18, R19, R165), and the model's own two refusals (R5, R36). -/

namespace Sys2Proof.Safety

open Sys2Proof.Machine

/-- No instruction clears a recorded fault: the cleanup leaves it, and every other either leaves it or records one (R18, R170). -/
theorem exec_keeps_fault_recorded {i : Instr} {s t : State} (h : exec i s = .next t) (hf : s.fault ≠ .none) :
    t.fault ≠ .none := by
  by_cases hi : i = .shutdown
  · subst hi
    obtain ⟨-, hfault, -⟩ := exec_shutdown_next h
    rwa [hfault]
  · obtain ⟨k, e, -, -, ⟨u, hu, rfl⟩ | ⟨p, u, -, rfl⟩⟩ := exec_next hi h
    · obtain ⟨hkeep, -, -⟩ := performEvent_done hu
      simpa [hkeep.fault] using hf
    · simp

/-- A step that does not wait runs an instruction; the state it runs from has the parameters and the fault as before the step, and the
interrupt sampled (R17, R165). -/
theorem step_next_wait_or_exec {s t : State} (h : step s = .next t) :
    t = s.sampleIrq ∨
    ∃ i u, exec i u = .next t ∧ u.params = s.params ∧ u.fault = s.fault ∧ u.irqPending = s.sampleIrq.irqPending ∧
      u.irqLine = s.sampleIrq.irqLine := by
  rcases step_next h with ⟨-, -, -, rfl⟩ | ⟨-, hx⟩ | ⟨-, op, k, -, hx⟩ | ⟨-, -, c, rest, i, -, -, hx⟩
  · exact .inl rfl
  · exact .inr ⟨_, _, hx, by simp, by simp, rfl, rfl⟩
  · exact .inr ⟨_, _, hx, by simp, by simp, rfl, rfl⟩
  · exact .inr ⟨_, _, hx, by simp, by simp, rfl, rfl⟩

/-- Settles O25: the interrupt is sampled once at the head of the step, and what runs after it keeps all four. -/
theorem parametersAndPendingStay : Obligations.ParametersAndPendingStay := by
  intro s t h
  rcases step_next_wait_or_exec h with rfl | ⟨i, u, hx, hparams, hfault, hpending, hline⟩
  · simp
  · obtain ⟨kparams, -, kline, kpending⟩ := exec_keeps hx
    refine ⟨kparams.trans hparams, ?_, ?_, fun hf => exec_keeps_fault_recorded hx (by rwa [hfault])⟩
    · rw [kpending, hpending, State.sampleIrq_irqPending]
    · rw [kline, hline, State.sampleIrq_irqLine]

/-- A PinMap with two equal identifiers is what keeps `INIT` out of an uninitialised block (R5). -/
theorem admission_init_notDistinct {P : Params} (h : P.pinsDistinct = false) :
    admission P .uninit .init = some .pinMapNotDistinct := by
  simp [admission, admitInit, h]

/-- What is no host operation and not the bare strobe is a bus word, which the port admits in no phase (R36, R54). -/
theorem admission_busWord (P : Params) (ph : Phase) {i : Instr} (hi : isHostOperation i = false) (hs : i ≠ .strobe) :
    admission P ph i = some .busWordAtPort := by
  cases i with
  | init | wri | wrc | showline | clear | shutdown => simp [isHostOperation] at hi
  | strobe => exact absurd rfl hs
  | hs3 | hs2 | functionSet | displayOff | clearDisplay | entryMode | displayOn | setLine1 | setLine2 | char | instr => rfl

/-- Settles O28: with the sequencer idle an instruction that is not admitted is refused. -/
theorem refusedByTheModel : Obligations.RefusedByTheModel := by
  intro s hidle
  constructor
  · intro hphase hpins
    exact exec_idle_refused .init s _ hidle (by rw [hphase]; exact admission_init_notDistinct hpins)
  · intro i hi hs
    exact exec_idle_refused i s _ hidle (admission_busWord s.params s.phase hi hs)

end Sys2Proof.Safety
end

section
/-! PROOFS. Family 10_state.md, the rules its proofs share: what the next step is (R17, R56, R167), the event sequences (R90, R115), and where one
step of the sequencer leaves the block. -/

namespace Sys2Proof.Safety

open Sys2Proof.Machine

/-! ### What the next step is -/

/-- An interrupt that is to be taken comes first (R167, D17). -/
theorem step_interrupt {s : State} (ht : takesIrq s.sampleIrq = true) :
    step s = exec .shutdown (s.sampleIrq.setSeq .idle) := by
  simp [step, nextAction, ht]

/-- Else the operation in progress goes on (R17). -/
theorem step_inProgress {s : State} {op : Instr} {k : Nat} (hs : s.seq = .busy op k) (ht : takesIrq s.sampleIrq = false) :
    step s = exec op s.sampleIrq := by
  simp [step, nextAction, ht, hs]

/-- Else the port is asked (R56). -/
theorem nextAction_atPort {s : State} (hs : s.seq = .idle) (ht : takesIrq s.sampleIrq = false) :
    nextAction s = nextCommand s.sampleIrq := by
  simp [nextAction, ht, hs]

theorem step_command {s : State} {c : HostCommand} {rest : List HostCommand} {i : Instr} (hs : s.seq = .idle)
    (ht : takesIrq s.sampleIrq = false) (hh : s.host = c :: rest) (hd : decodeHost c = .ok i) :
    step s = exec i { s.sampleIrq with host := rest } := by
  simp [step, nextAction_atPort hs ht, nextCommand, hh, hd]

theorem step_undecodable {s : State} {c : HostCommand} {rest : List HostCommand} {r : Reject} (hs : s.seq = .idle)
    (ht : takesIrq s.sampleIrq = false) (hh : s.host = c :: rest) (hd : decodeHost c = .error r) :
    step s = .refused (.undecodable r) := by
  simp [step, nextAction_atPort hs ht, nextCommand, hh, hd]

theorem step_waits {s : State} (hs : s.seq = .idle) (ht : takesIrq s.sampleIrq = false) (hh : s.host = []) :
    step s = .next s.sampleIrq := by
  simp [step, nextAction_atPort hs ht, nextCommand, hh]

/-- The interrupt is taken in UNINIT and READY only (R168). -/
theorem takesIrq_phase {s : State} (h : takesIrq s = true) : s.phase = .uninit ∨ s.phase = .ready := by
  cases hp : s.phase <;> simp_all [takesIrq, servesIrq, admitShutdown]

theorem takesIrq_final {s : State} (h : s.phase = .down ∨ s.phase = .faulted) : takesIrq s = false := by
  by_contra hc
  rcases takesIrq_phase (by simpa using hc) with hp | hp <;> simp [hp] at h

/-- It is taken between events only where the granularity is `event`, and never inside the cleanup (R170, D17). -/
theorem takesIrq_busy {s : State} {op : Instr} {k : Nat} (hs : s.seq = .busy op k) (h : takesIrq s = true) :
    s.params.irqGranularity = .event ∧ op ≠ .shutdown := by
  simp only [takesIrq, hs, Bool.and_eq_true, decide_eq_true_eq] at h
  exact h.2

/-! ### The event sequences -/

/-- `INIT` alone changes the phase at its end (R102). -/
theorem endsIn_eq {i : Instr} (hi : i ≠ .shutdown) (ph : Phase) : endsIn i ph = if i = .init then .ready else ph := by
  cases i with
  | shutdown => exact absurd rfl hi
  | _ => rfl

/-- An event that leaves every direction alone: no `Cfg` and no `Rel` (R70). -/
def KeepsDir (e : Event) : Prop := ∀ d, e.dirAfter d = d

theorem keepsDir_sendEvents (c : LcdCommand) : ∀ e ∈ sendEvents c, KeepsDir e := by
  simp [sendEvents, nibEvents, strobeEvents, KeepsDir, Event.dirAfter]

theorem keepsDir_nibEvents (n : Nibble) : ∀ e ∈ nibEvents n, KeepsDir e := by
  simp [nibEvents, strobeEvents, KeepsDir, Event.dirAfter]

theorem keepsDir_clearEvents (P : Params) : ∀ e ∈ clearEvents P, KeepsDir e := by
  intro e he
  rcases List.mem_append.1 he with he | he
  · exact keepsDir_sendEvents _ e he
  · obtain rfl := List.mem_singleton.1 he
    exact fun _ => rfl

theorem keepsDir_showlineEvents (line : Line) (text : Text) : ∀ e ∈ showlineEvents line text, KeepsDir e := by
  intro e he
  rcases List.mem_append.1 he with he | he
  · exact keepsDir_sendEvents _ e he
  · obtain ⟨c, -, he⟩ := List.mem_flatMap.1 he
    exact keepsDir_sendEvents _ e he

/-- Only `INIT` and the cleanup claim or release pins (R96, R126). -/
theorem keepsDir_eventsOf (P : Params) (ph : Phase) {i : Instr} (h1 : i ≠ .init) (h2 : i ≠ .shutdown) :
    ∀ e ∈ eventsOf P ph i, KeepsDir e := by
  cases i with
  | init => exact absurd rfl h1
  | shutdown => exact absurd rfl h2
  | strobe => simp [eventsOf, strobeEvents, KeepsDir, Event.dirAfter]
  | showline line text => exact keepsDir_showlineEvents line text
  | clear | clearDisplay => exact keepsDir_clearEvents P
  | hs3 | hs2 => exact keepsDir_nibEvents _
  | wri | wrc | functionSet | displayOff | entryMode | displayOn | setLine1 | setLine2 | char | instr => exact keepsDir_sendEvents _

theorem length_initEvents (P : Params) : (initEvents P).length = 98 := rfl

theorem length_shutdownEvents_le (P : Params) (ph : Phase) : (shutdownEvents P ph).length ≤ 20 := by
  cases ph with
  | ready => exact Nat.le_refl 20
  | uninit | down | faulted => exact show 6 ≤ 20 by decide

theorem length_showlineEvents (line : Line) (text : Text) : (showlineEvents line text).length = 221 := by
  rw [showlineEvents, List.length_append, length_flatMap_wrcEvents, fit16_length]
  rfl

/-- The longest operation is `SHOWLINE` (R90, R104, R115, R131). -/
theorem length_eventsOf_le (P : Params) (ph : Phase) (i : Instr) : (eventsOf P ph i).length ≤ 221 := by
  cases i with
  | init => exact (length_initEvents P).trans_le (by decide)
  | showline line text => exact (length_showlineEvents line text).le
  | shutdown => exact (length_shutdownEvents_le P ph).trans (by decide)
  | strobe => exact show 5 ≤ 221 by decide
  | hs3 | hs2 => exact show 6 ≤ 221 by decide
  | clear | clearDisplay => exact show 14 ≤ 221 by decide
  | wri | wrc | functionSet | displayOff | entryMode | displayOn | setLine1 | setLine2 | char | instr =>
    exact show 13 ≤ 221 by decide

/-! ### Where one step of the sequencer leaves the block -/

/-- An operation's event leaves it one position on, or at its end, or at the fault (R17, R160). -/
theorem performAt_leaves {op : Instr} {es : List Event} {f : Phase → Phase} {k : Nat} {s t : State}
    (h : performAt op es f k s = .next t) :
    (k + 1 < es.length ∧ t.seq = .busy op (k + 1) ∧ t.phase = s.phase) ∨
    (k + 1 = es.length ∧ t.seq = .idle ∧ t.phase = f s.phase) ∨
    (t.seq = .idle ∧ t.phase = .faulted ∧ ∃ p, t.fault = .ioFault p) := by
  obtain ⟨e, he, ⟨u, hu, rfl⟩ | ⟨p, u, -, rfl⟩⟩ := performAt_next h
  · obtain ⟨hkeep, -, -⟩ := performEvent_done hu
    by_cases hk : k + 1 < es.length
    · exact .inl ⟨hk, by simp [State.advance_more _ _ _ hk], by simp [State.advance_more _ _ _ hk, hkeep.phase]⟩
    · obtain ⟨hlt, -⟩ := List.getElem?_eq_some_iff.1 he
      exact .inr (.inl ⟨by omega, by simp [State.advance_last _ _ _ hk], by simp [State.advance_last _ _ _ hk, hkeep.phase]⟩)
  · exact .inr (.inr ⟨rfl, rfl, p, rfl⟩)

theorem lt_cleanupResume (n k : Nat) : k < cleanupResume n k := by
  unfold cleanupResume
  split <;> omega

/-- The cleanup sent to a position goes on there or behind it, or it has ended in DOWN (R126). -/
theorem cleanupTo_leaves (s : State) (es : List Event) (k : Nat) :
    ((s.cleanupTo es k).phase = s.phase ∧ ∃ j, k ≤ j ∧ (s.cleanupTo es k).seq = .busy .shutdown j) ∨
    ((s.cleanupTo es k).seq = .idle ∧ (s.cleanupTo es k).phase = .down) := by
  rcases State.cleanupTo_cases s es k with ⟨-, heq⟩ | ⟨-, heq⟩ <;> rw [heq]
  · exact .inl ⟨rfl, _, by omega, rfl⟩
  · exact .inr ⟨rfl, rfl⟩

/-- Behind the last event the cleanup has ended (R126). -/
theorem cleanupTo_end (s : State) {es : List Event} {k : Nat} (h : es.length ≤ k) :
    s.cleanupTo es k = (s.setSeq .idle).setPhase .down := by
  rcases State.cleanupTo_cases s es k with ⟨hlt, -⟩ | ⟨-, heq⟩
  · omega
  · exact heq

/-- A step of the cleanup leaves it at a later position in the same phase, or idle in DOWN (R17, R126). -/
theorem cleanupAt_leaves {k : Nat} {s t : State} (h : cleanupAt k s = .next t) :
    (t.phase = s.phase ∧ ∃ j, k < j ∧ t.seq = .busy .shutdown j) ∨ (t.seq = .idle ∧ t.phase = .down) := by
  have leaves (u : State) (es : List Event) (j : Nat) (hu : u.phase = s.phase) (hj : k < j) :
      ((u.cleanupTo es j).phase = s.phase ∧ ∃ j', k < j' ∧ (u.cleanupTo es j).seq = .busy .shutdown j') ∨
      ((u.cleanupTo es j).seq = .idle ∧ (u.cleanupTo es j).phase = .down) := by
    rcases cleanupTo_leaves u es j with ⟨hp, j', hj', hs⟩ | hend
    · exact .inl ⟨hp.trans hu, j', by omega, hs⟩
    · exact .inr hend
  rcases cleanupAt_next h with ⟨hnone, rfl⟩ | ⟨e, -, ⟨u, hu, rfl⟩ | ⟨p, u, hu, rfl⟩⟩
  · rw [cleanupTo_end s (List.getElem?_eq_none_iff.1 hnone)]
    exact .inr ⟨rfl, rfl⟩
  · obtain ⟨hkeep, -, -⟩ := performEvent_done hu
    exact leaves _ _ _ hkeep.phase (by omega)
  · obtain ⟨-, hkeep, -, -⟩ := performEvent_failed hu
    exact leaves _ _ _ hkeep.phase (Nat.lt_of_le_of_lt (by omega) (lt_cleanupResume _ _))

end Sys2Proof.Safety
end

section
/-! PROOFS. Family 10_state.md, what a step of a state with the block invariant is, and that it leaves the invariant (R17, R77, R126). -/

namespace Sys2Proof.Safety

open Sys2Proof.Machine

/-! ### The cleanup before a position (R126) -/

/-- What the cleanup needs at position `k`, be it at its acceptance, in progress, or between two of its events: it runs in UNINIT or READY,
without a fault, and all pins are outputs until its clear is done. -/
structure CleanupReady (k : Nat) (s : State) : Prop where
  undriven : ∀ p, s.dir.get p = .unconfigured → s.out.get p = none
  phase : s.phase = .uninit ∨ s.phase = .ready
  noFault : s.fault = .none
  clear : k < (cleanupClearEvents s.params s.phase).length → s.dir = PinFile.all .output

/-- The event the cleanup performs next finds its precondition met: one of the clear, or the release of a claimed pin. -/
theorem CleanupReady.allowed {k : Nat} {s : State} (h : CleanupReady k s) {e : Event}
    (he : (shutdownEvents s.params s.phase)[k + unclaimedReleases s.dir ((shutdownEvents s.params s.phase).drop k)]? = some e) :
    e.allowed s.dir = true := by
  rcases shutdownEvents_get he with ⟨hlt, hmem⟩ | ⟨-, p, rfl⟩
  · rw [h.clear (by omega)]
    exact (cleanupClear_events _ _ e hmem).2.1
  · rw [← List.getElem?_drop] at he
    simpa [Event.allowed] using unclaimedReleases_stop _ _ _ he p rfl

/-- An idle state in DOWN, without a fault. -/
theorem BlockInvariant.of_down {s : State} (hs : s.seq = .idle) (hp : s.phase = .down) (hf : s.fault = .none)
    (hu : ∀ p, s.dir.get p = .unconfigured → s.out.get p = none) : BlockInvariant s where
  undriven := hu
  faulted := by simp [hp, hf]
  reliable := fun _ => hf
  final := fun _ => hs
  fresh := by simp [hp]
  ready := by simp [hp]
  working := by simp [hs]
  cleaning := by simp [hs]

/-- The cleanup in progress, before an event whose precondition is met. -/
theorem CleanupReady.invariant {k : Nat} {s : State} (h : CleanupReady k s) (hs : s.seq = .busy .shutdown k) {e : Event}
    (he : (shutdownEvents s.params s.phase)[k]? = some e) (ha : e.allowed s.dir = true) : BlockInvariant s where
  undriven := h.undriven
  faulted := by rcases h.phase with hp | hp <;> simp [hp, h.noFault]
  reliable := fun _ => h.noFault
  final := by rcases h.phase with hp | hp <;> simp [hp]
  fresh := by simp [hs]
  ready := by simp [hs]
  working := by
    intro op k' hs' hop
    obtain ⟨rfl, -⟩ : op = .shutdown ∧ k' = k := by simpa [hs] using hs'.symm
    exact absurd rfl hop
  cleaning := by
    intro k' hs'
    obtain rfl : k' = k := by simpa [hs] using hs'.symm
    exact ⟨⟨e, he, ha⟩, h.clear⟩

/-- Sent to a position, the cleanup stands before an event it may perform, or it has ended (R126). -/
theorem CleanupReady.cleanupTo {k : Nat} {s : State} (h : CleanupReady k s) :
    BlockInvariant (s.cleanupTo (shutdownEvents s.params s.phase) k) := by
  rcases State.cleanupTo_cases s (shutdownEvents s.params s.phase) k with ⟨hlt, heq⟩ | ⟨-, heq⟩ <;> rw [heq]
  · have he := List.getElem?_eq_getElem hlt
    have hlater : CleanupReady (k + unclaimedReleases s.dir ((shutdownEvents s.params s.phase).drop k)) (s.setSeq (.busy .shutdown
        (k + unclaimedReleases s.dir ((shutdownEvents s.params s.phase).drop k)))) :=
      ⟨h.undriven, h.phase, h.noFault, fun hc => h.clear (Nat.lt_of_le_of_lt (Nat.le_add_right _ _) hc)⟩
    exact hlater.invariant rfl he (h.allowed he)
  · exact .of_down rfl rfl h.noFault h.undriven

/-- An event of the cleanup that succeeds: an event of the clear changes no direction. -/
theorem CleanupReady.performed {j : Nat} {s u : State} {e : Event} (h : CleanupReady j s)
    (he : (shutdownEvents s.params s.phase)[j]? = some e) (ha : e.allowed s.dir = true) (hu : performEvent e s = .done u) :
    CleanupReady (j + 1) (u.record e none) := by
  obtain ⟨hkeep, hdir, hout⟩ := performEvent_done hu
  refine ⟨?_, by simpa [hkeep.phase] using h.phase, by simpa [hkeep.fault] using h.noFault, fun hlt => ?_⟩
  · simpa [hdir, hout] using undriven_after ha h.undriven
  · simp only [State.record_params, State.record_phase, hkeep.params, hkeep.phase] at hlt
    rcases shutdownEvents_get he with ⟨hj, hmem⟩ | ⟨hge, -⟩
    · rw [State.record_dir, hdir, (cleanupClear_events _ _ e hmem).2.2, h.clear hj]
    · omega

/-- A swallowed failure leaves the clear behind (R126, R170). -/
theorem CleanupReady.swallowed {j : Nat} {s u : State} {e : Event} {p : Pin} (h : CleanupReady j s) (ha : e.allowed s.dir = true)
    (hu : performEvent e s = .failed p u) :
    CleanupReady (cleanupResume (cleanupClearEvents s.params s.phase).length j) (u.record e (some p)) := by
  obtain ⟨-, hkeep, hdir, hout⟩ := performEvent_failed hu
  refine ⟨?_, by simpa [hkeep.phase] using h.phase, by simpa [hkeep.fault] using h.noFault, fun hlt => ?_⟩
  · simpa [hdir, hout] using undriven_failed p ha h.undriven
  · simp only [State.record_params, State.record_phase, hkeep.params, hkeep.phase, cleanupResume] at hlt
    split at hlt <;> omega

/-- A later position asks for less. -/
theorem CleanupReady.mono {k j : Nat} {s : State} (h : CleanupReady k s) (hkj : k ≤ j) : CleanupReady j s :=
  ⟨h.undriven, h.phase, h.noFault, fun hlt => h.clear (by omega)⟩

/-- A step of the cleanup leaves the block invariant. -/
theorem CleanupReady.cleanupAt_keeps {k : Nat} {s t : State} (h : CleanupReady k s) (ht : cleanupAt k s = .next t) :
    BlockInvariant t := by
  have hj := h.mono (Nat.le_add_right k (unclaimedReleases s.dir ((shutdownEvents s.params s.phase).drop k)))
  rcases cleanupAt_next ht with ⟨-, rfl⟩ | ⟨e, he, ⟨u, hu, rfl⟩ | ⟨p, u, hu, rfl⟩⟩
  · exact hj.cleanupTo
  · obtain ⟨hkeep, -, -⟩ := performEvent_done hu
    simpa [hkeep.params, hkeep.phase] using (hj.performed he (h.allowed he) hu).cleanupTo
  · obtain ⟨-, hkeep, -, -⟩ := performEvent_failed hu
    simpa [hkeep.params, hkeep.phase] using (hj.swallowed (h.allowed he) hu).cleanupTo

/-- The cleanup is never refused half way (R126, R170). -/
theorem CleanupReady.cleanupAt_answers {k : Nat} {s : State} (h : CleanupReady k s) : ∃ t, cleanupAt k s = .next t := by
  unfold cleanupAt
  dsimp only
  split
  · exact ⟨_, rfl⟩
  · next e he =>
    split
    · exact ⟨_, rfl⟩
    · exact ⟨_, rfl⟩
    · next r hr => exact absurd hr (performEvent_not_refused e s r (h.allowed he))

/-! ### Any other operation before a position (R17, R77) -/

/-- What an operation of the host's other than the cleanup needs before event `k`, at its acceptance or in progress: its phase, no fault, and
a clean rest of its events. -/
structure OperationReady (op : Instr) (k : Nat) (s : State) : Prop where
  undriven : ∀ p, s.dir.get p = .unconfigured → s.out.get p = none
  noFault : s.fault = .none
  notShutdown : op ≠ .shutdown
  hosts : isHostOperation op = true
  position : k < (eventsOf s.params s.phase op).length
  phase : (op = .init ∧ s.phase = .uninit) ∨ (op ≠ .init ∧ s.phase = .ready)
  clean : cleanFrom s.dir s.out.e ((eventsOf s.params s.phase op).drop k) = true

/-- The next event finds its precondition met, and what is left after it is clean. -/
theorem OperationReady.next_event {op : Instr} {k : Nat} {s : State} (h : OperationReady op k s) :
    ∃ e, (eventsOf s.params s.phase op)[k]? = some e ∧ e.allowed s.dir = true ∧
      cleanFrom (e.dirAfter s.dir) (e.outAfter s.out).e ((eventsOf s.params s.phase op).drop (k + 1)) = true := by
  refine ⟨_, List.getElem?_eq_getElem h.position, ?_⟩
  have hclean := h.clean
  rw [List.drop_eq_getElem_cons h.position] at hclean
  obtain ⟨hallowed, hrest, hrel⟩ := clean_cons hclean
  exact ⟨hallowed, by rwa [outAfter_enable _ _ hrel]⟩

/-- With the sequencer inside the operation, what it needs is the block invariant. -/
theorem OperationReady.invariant {op : Instr} {k : Nat} {s : State} (h : OperationReady op k s) (hs : s.seq = .busy op k) :
    BlockInvariant s where
  undriven := h.undriven
  faulted := by rcases h.phase with ⟨-, hp⟩ | ⟨-, hp⟩ <;> simp [hp, h.noFault]
  reliable := fun _ => h.noFault
  final := by rcases h.phase with ⟨-, hp⟩ | ⟨-, hp⟩ <;> simp [hp]
  fresh := by simp [hs]
  ready := by simp [hs]
  working := by
    intro op' k' hs' _
    obtain ⟨rfl, rfl⟩ : op' = op ∧ k' = k := by simpa [hs] using hs'.symm
    exact ⟨h.hosts, h.position, h.phase, h.clean⟩
  cleaning := by
    intro k' hs'
    obtain ⟨rfl, -⟩ : op = .shutdown ∧ k = k' := by simpa [hs] using hs'
    exact absurd rfl h.notShutdown

/-- Every operation but the cleanup ends in READY (R102). -/
theorem OperationReady.ends_ready {op : Instr} {k : Nat} {s : State} (h : OperationReady op k s) : endsIn op s.phase = .ready := by
  rw [endsIn_eq h.notShutdown]
  rcases h.phase with ⟨rfl, -⟩ | ⟨hop, hp⟩
  · rfl
  · rw [if_neg hop, hp]

/-- An idle state in READY, with all pins outputs and `E` LOW. -/
theorem BlockInvariant.of_ready {s : State} (hs : s.seq = .idle) (hp : s.phase = .ready) (hf : s.fault = .none)
    (hd : s.dir = PinFile.all .output) (he : s.out.e = some .low) : BlockInvariant s where
  undriven := by simp [hd]
  faulted := by simp [hp, hf]
  reliable := fun _ => hf
  final := fun _ => hs
  fresh := by simp [hp]
  ready := fun _ _ => ⟨hd, he⟩
  working := by simp [hs]
  cleaning := by simp [hs]

/-- The fault taken, where calls can fail (R160, R161). -/
theorem BlockInvariant.of_raised {s : State} (p : Pin) (hio : s.params.ioCanFail = true)
    (hu : ∀ q, s.dir.get q = .unconfigured → s.out.get q = none) : BlockInvariant (raiseIoFault p s) where
  undriven := hu
  faulted := by simp
  reliable := by simp [hio]
  final := fun _ => rfl
  fresh := by simp
  ready := by simp
  working := by simp
  cleaning := by simp

/-- A step of the operation leaves the block invariant. -/
theorem OperationReady.performAt_keeps {op : Instr} {k : Nat} {s t : State} (h : OperationReady op k s)
    (ht : performAt op (eventsOf s.params s.phase op) (endsIn op) k s = .next t) : BlockInvariant t := by
  obtain ⟨e, he, hallowed, hrest⟩ := h.next_event
  obtain ⟨e', he', hend⟩ := performAt_next ht
  obtain rfl : e = e' := Option.some.inj (he.symm.trans he')
  rcases hend with ⟨u, hu, rfl⟩ | ⟨p, u, hu, rfl⟩
  · obtain ⟨hkeep, hdir, hout⟩ := performEvent_done hu
    rw [← hdir, ← hout] at hrest
    by_cases hk : k + 1 < (eventsOf s.params s.phase op).length
    · rw [State.advance_more _ _ _ hk]
      have hnext : OperationReady op (k + 1) ((u.record e none).setSeq (.busy op (k + 1))) :=
        { undriven := by simpa [hdir, hout] using undriven_after hallowed h.undriven
          noFault := by simpa [hkeep.fault] using h.noFault
          notShutdown := h.notShutdown
          hosts := h.hosts
          position := by simpa [hkeep.params, hkeep.phase] using hk
          phase := by simpa [hkeep.phase] using h.phase
          clean := by simpa [hkeep.params, hkeep.phase] using hrest }
      exact hnext.invariant rfl
    · rw [State.advance_last _ _ _ hk]
      rw [List.drop_eq_nil_of_le (by omega)] at hrest
      obtain ⟨hall, hlow⟩ : u.dir = PinFile.all .output ∧ u.out.e = some .low := by simpa [cleanFrom] using hrest
      exact .of_ready rfl (by simpa [hkeep.phase] using h.ends_ready) (by simpa [hkeep.fault] using h.noFault) hall hlow
  · obtain ⟨-, hkeep, hdir, hout⟩ := performEvent_failed hu
    refine .of_raised p ?_ (by simpa [hdir, hout] using undriven_failed p hallowed h.undriven)
    by_contra hio
    exact performEvent_not_failed e s u p (by simpa [hkeep.params] using hio) hu

/-- The operation is never refused half way (R17, R71, R73). -/
theorem OperationReady.performAt_answers {op : Instr} {k : Nat} {s : State} (h : OperationReady op k s) :
    ∃ t, performAt op (eventsOf s.params s.phase op) (endsIn op) k s = .next t := by
  obtain ⟨e, he, hallowed, -⟩ := h.next_event
  unfold performAt
  rw [he]
  dsimp only
  split
  · exact ⟨_, rfl⟩
  · exact ⟨_, rfl⟩
  · next r hr => exact absurd hr (performEvent_not_refused e s r hallowed)

/-! ### What the invariant says of what comes next -/

/-- The two states are the same block: they differ in the position, the interrupt, the port, the trace and the answers at most. -/
structure SameBlock (s u : State) : Prop where
  dir : u.dir = s.dir
  out : u.out = s.out
  phase : u.phase = s.phase
  fault : u.fault = s.fault
  params : u.params = s.params

/-- A clean sequence without `Cfg` and `Rel` starts with all pins outputs, as it ends with them. -/
theorem all_output_of_clean {es : List Event} (hes : ∀ e ∈ es, KeepsDir e) :
    ∀ {d : PinFile Dir} {l : Option Level}, cleanFrom d l es = true → d = PinFile.all .output := by
  induction es with
  | nil =>
    intro d l h
    obtain ⟨hd, -⟩ : d = PinFile.all .output ∧ l = some .low := by simpa [cleanFrom] using h
    exact hd
  | cons e es ih =>
    intro d l h
    obtain ⟨-, hrest, -⟩ := clean_cons h
    have hd := ih (fun x hx => hes x (List.mem_cons_of_mem e hx)) hrest
    rwa [hes e List.mem_cons_self] at hd

/-- Outside the cleanup in progress, all pins are outputs in READY (R77). -/
theorem BlockInvariant.ready_dir {s : State} (h : BlockInvariant s) (hp : s.phase = .ready) (hn : ∀ k, s.seq ≠ .busy .shutdown k) :
    s.dir = PinFile.all .output := by
  cases hs : s.seq with
  | idle => exact (h.ready hp hs).1
  | busy op k =>
    have hop : op ≠ .shutdown := by
      rintro rfl
      exact hn k hs
    obtain ⟨-, -, ⟨-, hp'⟩ | ⟨hinit, -⟩, hclean⟩ := h.working op k hs hop
    · simp [hp] at hp'
    · exact all_output_of_clean (fun e he => keepsDir_eventsOf _ _ hinit hop e (List.mem_of_mem_drop he)) hclean

/-- Wherever the cleanup is started, it may perform its first event (R126, D17). -/
theorem BlockInvariant.cleanupReady {s u : State} (h : BlockInvariant s) (hu : SameBlock s u)
    (hp : s.phase = .uninit ∨ s.phase = .ready) (hn : ∀ k, s.seq ≠ .busy .shutdown k) : CleanupReady 0 u where
  undriven := by rw [hu.dir, hu.out]; exact h.undriven
  phase := by rwa [hu.phase]
  noFault := by rw [hu.fault]; exact h.noFault hp
  clear := by
    intro hlt
    rcases hp with hp | hp
    · simp [hu.phase, hp, cleanupClearEvents] at hlt
    · rw [hu.dir]
      exact h.ready_dir hp hn

theorem BlockInvariant.cleanupReady_inProgress {s u : State} {k : Nat} (h : BlockInvariant s) (hu : SameBlock s u)
    (hs : s.seq = .busy .shutdown k) : CleanupReady k u where
  undriven := by rw [hu.dir, hu.out]; exact h.undriven
  phase := by rw [hu.phase]; exact h.busy_phase (by simp [hs])
  noFault := by rw [hu.fault]; exact h.noFault (h.busy_phase (by simp [hs]))
  clear := by rw [hu.params, hu.phase, hu.dir]; exact (h.cleaning k hs).2

theorem BlockInvariant.operationReady_inProgress {s u : State} {op : Instr} {k : Nat} (h : BlockInvariant s) (hu : SameBlock s u)
    (hs : s.seq = .busy op k) (hop : op ≠ .shutdown) : OperationReady op k u := by
  obtain ⟨hhost, hk, hphase, hclean⟩ := h.working op k hs hop
  exact
    { undriven := by rw [hu.dir, hu.out]; exact h.undriven
      noFault := by rw [hu.fault]; exact h.noFault (h.busy_phase (by simp [hs]))
      notShutdown := hop
      hosts := hhost
      position := by rwa [hu.params, hu.phase]
      phase := by rwa [hu.phase]
      clean := by rwa [hu.dir, hu.out, hu.params, hu.phase] }

theorem eventsOf_length_pos (P : Params) (ph : Phase) (i : Instr) : 0 < (eventsOf P ph i).length := by
  cases i with
  | shutdown => cases ph <;> exact Nat.succ_pos _
  | _ => exact Nat.succ_pos _

/-- An admitted operation may run: `INIT` from unclaimed pins without a value, every other from outputs with `E` LOW (R77, R96, R185). -/
theorem BlockInvariant.operationReady_accepted {s u : State} {op : Instr} (h : BlockInvariant s) (hu : SameBlock s u)
    (hs : s.seq = .idle) (hop : op ≠ .shutdown) (ha : admission u.params u.phase op = none) : OperationReady op 0 u := by
  obtain ⟨hhost, hphase⟩ := admission_none ha
  have hphase : (op = .init ∧ u.phase = .uninit) ∨ (op ≠ .init ∧ u.phase = .ready) := by
    rcases hphase with hinit | ⟨hinit, -, hp⟩ | ⟨hshut, -⟩
    · exact .inl hinit
    · exact .inr ⟨hinit, hp⟩
    · exact absurd hshut hop
  have hclean : cleanFrom u.dir u.out.e (eventsOf u.params u.phase op) = true := by
    rcases hphase with ⟨rfl, hp⟩ | ⟨hinit, hp⟩
    · have hd := h.fresh (hu.phase.symm.trans hp) hs
      have he : s.out.e = none := h.undriven .e (by simp [hd])
      rw [hu.dir, hu.out, hd, he]
      exact clean_initEvents _
    · obtain ⟨hd, he⟩ := h.ready (hu.phase.symm.trans hp) hs
      rw [hu.dir, hu.out, hd, he]
      exact clean_hostOperation _ _ _ hhost hinit hop
  have hf : u.phase = .uninit ∨ u.phase = .ready := hphase.imp And.right And.right
  exact
    { undriven := by rw [hu.dir, hu.out]; exact h.undriven
      noFault := by rw [hu.fault]; exact h.noFault (by rwa [← hu.phase])
      notShutdown := hop
      hosts := hhost
      position := eventsOf_length_pos _ _ _
      phase := hphase
      clean := hclean }

theorem sameBlock_sampled (s : State) : SameBlock s s.sampleIrq := by constructor <;> simp

theorem sameBlock_interrupted (s : State) : SameBlock s (s.sampleIrq.setSeq .idle) := by constructor <;> simp

theorem sameBlock_fetched (s : State) (rest : List HostCommand) : SameBlock s { s.sampleIrq with host := rest } := by
  constructor <;> simp

/-- At its acceptance in UNINIT or READY the cleanup performs its first event (R126, R127). -/
theorem exec_shutdown_accepted {s : State} (hs : s.seq = .idle) (hp : s.phase = .uninit ∨ s.phase = .ready) :
    exec .shutdown s = cleanupAt 0 s := by
  rcases hp with hp | hp <;> simp [exec_shutdown, runCleanup, hs, hp, admitShutdown]

theorem exec_shutdown_inProgress {s : State} {k : Nat} (hs : s.seq = .busy .shutdown k) : exec .shutdown s = cleanupAt k s := by
  simp [exec_shutdown, runCleanup, hs]

/-- A command at an idle block is refused, or its first event is performed from a state that is ready for it (R17, R56). -/
theorem BlockInvariant.command_cases {s u : State} (h : BlockInvariant s) (hu : SameBlock s u) (hs : s.seq = .idle)
    (hseq : u.seq = .idle) (i : Instr) :
    (∃ r, exec i u = .refused r) ∨
    (i = .shutdown ∧ CleanupReady 0 u ∧ exec i u = cleanupAt 0 u) ∨
    (OperationReady i 0 u ∧ exec i u = performAt i (eventsOf u.params u.phase i) (endsIn i) 0 u) := by
  cases ha : admission u.params u.phase i with
  | some r => exact .inl ⟨r, exec_idle_refused i u r hseq ha⟩
  | none =>
    by_cases hi : i = .shutdown
    · subst hi
      have hp : u.phase = .uninit ∨ u.phase = .ready := by
        obtain ⟨-, ⟨hc, -⟩ | ⟨-, hc, -⟩ | ⟨-, hp⟩⟩ := admission_none ha
        · cases hc
        · exact absurd rfl hc
        · exact hp
      exact .inr (.inl ⟨rfl, h.cleanupReady hu (by rwa [← hu.phase]) (by simp [hs]), exec_shutdown_accepted hseq hp⟩)
    · exact .inr (.inr ⟨h.operationReady_accepted hu hs hi ha, exec_idle i u hi hseq ha⟩)

/-- The cleanup's step: it is in progress at `k`, or it starts, by the interrupt or by the host's `SHUTDOWN` (R126, R167). -/
def CleanupStep (k : Nat) (s : State) : Prop :=
  s.seq = .busy .shutdown k ∨
    k = 0 ∧ (takesIrq s.sampleIrq = true ∨ s.seq = .idle ∧ ∃ c rest, s.host = c :: rest ∧ decodeHost c = .ok .shutdown)

/-- WHAT A STEP IS under the block invariant (R17, R56, R167): with the sequencer idle a wait or a refusal, else one event of the cleanup or of
another operation, from a state that is ready for it. -/
theorem BlockInvariant.step_cases {s : State} (h : BlockInvariant s) :
    (s.seq = .idle ∧ (step s = .next s.sampleIrq ∨ ∃ r, step s = .refused r)) ∨
    (∃ k u, SameBlock s u ∧ CleanupReady k u ∧ CleanupStep k s ∧ step s = cleanupAt k u) ∨
    (∃ op k u, SameBlock s u ∧ OperationReady op k u ∧ (s.seq = .busy op k ∨ s.seq = .idle ∧ k = 0) ∧
      step s = performAt op (eventsOf u.params u.phase op) (endsIn op) k u) := by
  have hsampled := sameBlock_sampled s
  cases ht : takesIrq s.sampleIrq with
  | true =>
    have hp : s.phase = .uninit ∨ s.phase = .ready := by simpa using takesIrq_phase ht
    have hn : ∀ k, s.seq ≠ .busy .shutdown k := fun k hs => (takesIrq_busy ((State.sampleIrq_seq s).trans hs) ht).2 rfl
    exact .inr (.inl ⟨0, _, sameBlock_interrupted s, h.cleanupReady (sameBlock_interrupted s) hp hn, .inr ⟨rfl, .inl ht⟩,
      (step_interrupt ht).trans (exec_shutdown_accepted rfl (by simpa using hp))⟩)
  | false =>
    cases hs : s.seq with
    | busy op k =>
      have hseq : s.sampleIrq.seq = .busy op k := by simpa using hs
      by_cases hop : op = .shutdown
      · subst hop
        exact .inr (.inl ⟨k, _, hsampled, h.cleanupReady_inProgress hsampled hs, .inl hs,
          (step_inProgress hs ht).trans (exec_shutdown_inProgress hseq)⟩)
      · exact .inr (.inr ⟨op, k, _, hsampled, h.operationReady_inProgress hsampled hs hop, .inl rfl,
          (step_inProgress hs ht).trans (exec_busy op _ k hop hseq)⟩)
    | idle =>
      cases hh : s.host with
      | nil => exact .inl ⟨rfl, .inl (step_waits hs ht hh)⟩
      | cons c rest =>
        cases hd : decodeHost c with
        | error r => exact .inl ⟨rfl, .inr ⟨_, step_undecodable hs ht hh hd⟩⟩
        | ok i =>
          rw [step_command hs ht hh hd]
          rcases h.command_cases (sameBlock_fetched s rest) hs (by simpa using hs) i with hr | ⟨rfl, hready, hexec⟩ | ⟨hready, hexec⟩
          · exact .inl ⟨rfl, .inr hr⟩
          · exact .inr (.inl ⟨0, _, sameBlock_fetched s rest, hready, .inr ⟨rfl, .inr ⟨hs, c, rest, hh, hd⟩⟩, hexec⟩)
          · exact .inr (.inr ⟨i, 0, _, sameBlock_fetched s rest, hready, .inr ⟨rfl, rfl⟩, hexec⟩)

end Sys2Proof.Safety
end

section
/-! PROOFS. Family 10_state.md, O16, O19, O24 and O20: the block invariant is kept, no operation stops, what changes the phase, and how long an
operation lasts. -/

namespace Sys2Proof.Safety

open Sys2Proof.Machine

theorem SameBlock.keeps {s u : State} (hu : SameBlock s u) (h : BlockInvariant s) (hs : u.seq = s.seq) : BlockInvariant u :=
  h.of_fields hu.dir hu.out hu.phase hs hu.fault hu.params

/-- Settles O16: a wait changes nothing the invariant reads, and an event is performed from a state that is ready for it. -/
theorem stepKeepsInvariant : Obligations.StepKeepsInvariant := by
  intro s t h ht
  rcases h.step_cases with ⟨-, hs | ⟨r, hs⟩⟩ | ⟨k, u, -, hu, -, hs⟩ | ⟨op, k, u, -, hu, -, hs⟩ <;> rw [hs] at ht
  · obtain rfl : s.sampleIrq = t := by simpa using ht
    exact (sameBlock_sampled s).keeps h (by simp)
  · simp at ht
  · exact hu.cleanupAt_keeps ht
  · exact hu.performAt_keeps ht

/-- Settles O19: the only refusals are at the port, where the sequencer is idle. -/
theorem operationInProgressNeverStops : Obligations.OperationInProgressNeverStops := by
  intro s h hbusy
  rcases h.step_cases with ⟨hidle, -⟩ | ⟨k, u, -, hu, -, hs⟩ | ⟨op, k, u, -, hu, -, hs⟩
  · exact absurd hidle hbusy
  · rw [hs]
    exact hu.cleanupAt_answers
  · rw [hs]
    exact hu.performAt_answers

/-- Only `INIT` ends in another phase than the one it runs in, after event 97 (R95, R102). -/
theorem OperationReady.phase_at_end {op : Instr} {k : Nat} {s : State} (h : OperationReady op k s)
    (hk : k + 1 = (eventsOf s.params s.phase op).length) :
    endsIn op s.phase = s.phase ∨ (op = .init ∧ k = 97 ∧ s.phase = .uninit) := by
  rcases h.phase with ⟨rfl, hp⟩ | ⟨-, hp⟩
  · have hlen : k + 1 = 98 := hk.trans (length_initEvents _)
    exact .inr ⟨rfl, by omega, hp⟩
  · exact .inl (h.ends_ready.trans hp.symm)

/-- Settles O24: where each kind of step leaves the phase. -/
theorem onlyThreeWaysChangePhase : Obligations.OnlyThreeWaysChangePhase := by
  intro s t h ht
  rcases h.step_cases with ⟨-, hs | ⟨r, hs⟩⟩ | ⟨k, u, hsame, hu, horigin, hs⟩ | ⟨op, k, u, hsame, hu, hat, hs⟩ <;> rw [hs] at ht
  · obtain rfl : s.sampleIrq = t := by simpa using ht
    exact .inl (by simp)
  · simp at ht
  · rcases cleanupAt_leaves ht with ⟨hp, -⟩ | ⟨hidle, hdown⟩
    · exact .inl (hp.trans hsame.phase)
    · refine .inr ⟨hidle, .inr (.inl ⟨hsame.phase ▸ hu.phase, hdown, ?_⟩)⟩
      exact horigin.imp (fun hk => ⟨k, hk⟩) And.right
  · rcases performAt_leaves ht with ⟨-, -, hp⟩ | ⟨hk, hidle, hp⟩ | ⟨hidle, hp, hfault⟩
    · exact .inl (hp.trans hsame.phase)
    · rcases hu.phase_at_end hk with hsamePhase | ⟨rfl, rfl, huninit⟩
      · exact .inl ((hp.trans hsamePhase).trans hsame.phase)
      · have hseq : s.seq = .busy .init 97 := hat.resolve_right (by simp)
        exact .inr ⟨hidle, .inl ⟨hsame.phase ▸ huninit, hseq, hp⟩⟩
    · have hphase : u.phase = .uninit ∨ u.phase = .ready := hu.phase.imp And.right And.right
      exact .inr ⟨hidle, .inr (.inr ⟨hsame.phase ▸ hphase, hp, hfault⟩)⟩

/-! ### How long an operation can last -/

/-- The steps of a cleanup that may still abandon the operation in progress (D17, log entry 15). -/
def abandonSteps (g : IrqGranularity) (op : Instr) : Nat := if g = .event ∧ op ≠ .shutdown then 20 else 0

/-- A bound on the steps to the end of what is in progress: its events from the position on, and a cleanup that may abandon it. -/
def stepsLeft (s : State) : Nat :=
  match s.seq with
  | .idle => 0
  | .busy op k => (eventsOf s.params s.phase op).length - k + abandonSteps s.params.irqGranularity op

theorem stepsLeft_idle {s : State} (hs : s.seq = .idle) : stepsLeft s = 0 := by simp [stepsLeft, hs]

theorem stepsLeft_busy {s : State} {op : Instr} {k : Nat} (hs : s.seq = .busy op k) :
    stepsLeft s = (eventsOf s.params s.phase op).length - k + abandonSteps s.params.irqGranularity op := by
  simp [stepsLeft, hs]

theorem stepsLeft_cleanup {s : State} {k : Nat} (hs : s.seq = .busy .shutdown k) :
    stepsLeft s = (shutdownEvents s.params s.phase).length - k := by
  simp [stepsLeft_busy hs, abandonSteps, eventsOf]

theorem stepsLeft_le (s : State) : stepsLeft s ≤ 241 ∧ (IrqAtBoundary s → stepsLeft s ≤ 221) := by
  cases hs : s.seq with
  | idle => simp [stepsLeft_idle hs]
  | busy op k =>
    have hlen := length_eventsOf_le s.params s.phase op
    have hcleanup : abandonSteps s.params.irqGranularity op ≤ 20 := by
      unfold abandonSteps
      split <;> omega
    rw [stepsLeft_busy hs]
    refine ⟨by omega, fun hg => ?_⟩
    have hnone : abandonSteps s.params.irqGranularity op = 0 := by simp [abandonSteps, show s.params.irqGranularity = .command from hg]
    omega

/-- Under the block invariant an operation in progress has events left. -/
theorem BlockInvariant.position_lt {s : State} {op : Instr} {k : Nat} (h : BlockInvariant s) (hs : s.seq = .busy op k) :
    k < (eventsOf s.params s.phase op).length := by
  by_cases hop : op = .shutdown
  · subst hop
    obtain ⟨⟨e, he, -⟩, -⟩ := h.cleaning k hs
    exact (List.getElem?_eq_some_iff.1 he).1
  · exact (h.working op k hs hop).2.1

theorem BlockInvariant.stepsLeft_pos {s : State} (h : BlockInvariant s) (hbusy : s.seq ≠ .idle) : 0 < stepsLeft s := by
  cases hs : s.seq with
  | idle => exact absurd hs hbusy
  | busy op k =>
    have hlt := h.position_lt hs
    rw [stepsLeft_busy hs]
    omega

/-- Each step brings the end nearer: the position goes up, or the cleanup that abandons the operation begins (R17, D17). -/
theorem BlockInvariant.stepsLeft_step {s t : State} (h : BlockInvariant s) (hbusy : s.seq ≠ .idle) (ht : step s = .next t) :
    stepsLeft t < stepsLeft s := by
  have hpos := h.stepsLeft_pos hbusy
  have hparams := (parametersAndPendingStay s t ht).1
  rcases h.step_cases with ⟨hidle, -⟩ | ⟨k, u, hsame, -, horigin, hs⟩ | ⟨op, k, u, hsame, -, hat, hs⟩
  · exact absurd hidle hbusy
  · rw [hs] at ht
    rcases cleanupAt_leaves ht with ⟨hp, j, hj, hseq⟩ | ⟨hidle, -⟩
    · rw [stepsLeft_cleanup hseq, hparams, hp, hsame.phase]
      rcases horigin with hk | ⟨rfl, htakes | ⟨hidle, -⟩⟩
      · have hlt : k < (shutdownEvents s.params s.phase).length := h.position_lt hk
        rw [stepsLeft_cleanup hk]
        omega
      · cases hop : s.seq with
        | idle => exact absurd hop hbusy
        | busy op k0 =>
          have hlen := length_shutdownEvents_le s.params s.phase
          have htaken := takesIrq_busy ((State.sampleIrq_seq s).trans hop) htakes
          rw [State.sampleIrq_params] at htaken
          have habandon : abandonSteps s.params.irqGranularity op = 20 := if_pos htaken
          rw [stepsLeft_busy hop]
          omega
      · exact absurd hidle hbusy
    · rw [stepsLeft_idle hidle]
      exact hpos
  · rw [hs] at ht
    rcases performAt_leaves ht with ⟨-, hseq, hp⟩ | ⟨-, hidle, -⟩ | ⟨hidle, -⟩
    · have hk : s.seq = .busy op k := hat.resolve_right fun hc => hbusy hc.1
      have hlt := h.position_lt hk
      rw [stepsLeft_busy hseq, stepsLeft_busy hk, hparams, hp, hsame.phase]
      omega
    · rw [stepsLeft_idle hidle]
      exact hpos
    · rw [stepsLeft_idle hidle]
      exact hpos

/-- The block comes to rest within the bound. -/
theorem BlockInvariant.run_to_idle (n : Nat) :
    ∀ {s : State}, BlockInvariant s → stepsLeft s ≤ n → ∃ m t, m ≤ n ∧ run m s = .next t ∧ t.seq = .idle := by
  induction n with
  | zero =>
    intro s h hn
    refine ⟨0, s, Nat.le_refl 0, rfl, ?_⟩
    by_contra hbusy
    have hpos := h.stepsLeft_pos hbusy
    omega
  | succ n ih =>
    intro s h hn
    by_cases hidle : s.seq = .idle
    · exact ⟨0, s, Nat.zero_le _, rfl, hidle⟩
    · obtain ⟨u, hu⟩ := operationInProgressNeverStops s h hidle
      have hless := h.stepsLeft_step hidle hu
      obtain ⟨m, t, hm, hrun, ht⟩ := ih (stepKeepsInvariant s u h hu) (by omega)
      exact ⟨m + 1, t, by omega, (run_succ_of_step hu).trans hrun, ht⟩

/-- Settles O20: the bound on the steps left is 221, or 241 where a cleanup may abandon the operation. -/
theorem acceptedOperationEnds : Obligations.AcceptedOperationEnds := by
  intro s h
  obtain ⟨hbound, hboundary⟩ := stepsLeft_le s
  obtain ⟨n, t, hn, hrun, hidle⟩ := h.run_to_idle (stepsLeft s) (Nat.le_refl _)
  exact ⟨n, t, hn.trans hbound, fun hg => hn.trans (hboundary hg), hrun, hidle⟩

end Sys2Proof.Safety
end

section
/-! PROOFS. Family 10_state.md, O26, O29, O55, O13 and O50: the final phases, the frame of an instruction, its completion, the next step, the
status word. -/

namespace Sys2Proof.Safety

open Sys2Proof.Machine

/-! ### The final phases -/

/-- The refusal of a host command in a final phase, by the phase's name (R127, R128, D15). -/
theorem admission_final {P : Params} {ph : Phase} {i : Instr} (hp : ph = .down ∨ ph = .faulted) (hi : isHostOperation i = true) :
    admission P ph i = some (if ph = .down then .afterShutdown else .afterFault) := by
  cases i with
  | init | wri | wrc | showline | clear | shutdown => rcases hp with rfl | rfl <;> rfl
  | strobe | hs3 | hs2 | functionSet | displayOff | clearDisplay | entryMode | displayOn | setLine1 | setLine2 | char | instr =>
    simp [isHostOperation] at hi

theorem step_final_refused {s : State} {c : HostCommand} {rest : List HostCommand} {i : Instr} (hs : s.seq = .idle)
    (hp : s.phase = .down ∨ s.phase = .faulted) (hh : s.host = c :: rest) (hd : decodeHost c = .ok i) (hi : i ≠ .strobe) :
    step s = .refused (if s.phase = .down then .afterShutdown else .afterFault) := by
  rw [step_command hs (takesIrq_final (by simpa using hp)) hh hd]
  refine exec_idle_refused i _ _ (by simpa using hs) ?_
  have hadm := admission_final (P := s.params) hp ((decodeHost_not_busWord hd).resolve_right hi)
  simpa using hadm

/-- Settles O26: no interrupt is taken there, and every command is refused, `STROBE` by its own name. -/
theorem finalPhasesStay : Obligations.FinalPhasesStay := by
  intro s hs hp
  have htakes : takesIrq s.sampleIrq = false := takesIrq_final (by simpa using hp)
  refine ⟨step_waits hs htakes, fun c rest i hh hd hi => step_final_refused hs hp hh hd hi, fun t ht => ?_⟩
  rcases step_next ht with ⟨-, -, -, rfl⟩ | ⟨hc, -⟩ | ⟨-, op, k, hbusy, -⟩ | ⟨-, -, c, rest, i, hh, hd, hexec⟩
  · simp
  · simp [htakes] at hc
  · simp [hs] at hbusy
  · by_cases hi : i = .strobe
    · subst hi
      rw [exec_idle_refused .strobe _ .bareStrobe (by simpa using hs) rfl] at hexec
      simp at hexec
    · rw [step_final_refused hs hp hh hd hi] at ht
      simp at ht

/-! ### The frame of an instruction -/

theorem dirAfter_other {e : Event} {p : Pin} (h : p ∉ e.pins) (d : PinFile Dir) : (e.dirAfter d).get p = d.get p := by
  cases e with
  | cfg q | rel q => exact PinFile.get_set_other _ _ (by simpa [Event.pins] using h)
  | wr | data | dly => rfl

theorem outAfter_other {e : Event} {p : Pin} (h : p ∉ e.pins) (o : PinFile (Option Level)) : (e.outAfter o).get p = o.get p := by
  cases e with
  | cfg q | wr q _ | rel q => exact PinFile.get_set_other _ _ (by simpa [Event.pins] using h)
  | data n =>
    obtain ⟨h0, h1, h2, h3⟩ : p ≠ .d0 ∧ p ≠ .d1 ∧ p ≠ .d2 ∧ p ≠ .d3 := by simpa [Event.pins] using h
    simp [Event.outAfter, presentOut, PinFile.get_set, h0, h1, h2, h3]
  | dly => rfl

theorem outFailed_other {e : Event} {p : Pin} (q : Pin) (h : p ∉ e.pins) (o : PinFile (Option Level)) :
    (e.outFailed q o).get p = o.get p := by
  cases e with
  | wr => exact PinFile.get_set_other _ _ (by simpa [Event.pins] using h)
  | data n =>
    obtain ⟨h0, h1, h2, h3⟩ : p ≠ .d0 ∧ p ≠ .d1 ∧ p ≠ .d2 ∧ p ≠ .d3 := by simpa [Event.pins] using h
    cases q <;> simp [Event.outFailed, presentFailedOut, PinFile.get_set, h0, h1, h2, h3]
  | cfg | rel | dly => rfl

/-- Settles O29: `exec_next` says what the step is, and each event leaves the pins it does not name. -/
theorem instructionFrame : Obligations.InstructionFrame := by
  intro i s t hi h
  obtain ⟨hparams, hhost, hline, hpending⟩ := exec_keeps h
  obtain ⟨k, e, hat, he, hend⟩ := exec_next hi h
  have hmem : e ∈ eventsOf s.params s.phase i := List.mem_of_getElem? he
  have hat' : (s.seq = .idle ∧ k = 0) ∨ s.seq = .busy i k := hat.imp_left fun ⟨hidle, _, hk⟩ => ⟨hidle, hk⟩
  refine ⟨k, e, hat', he, ?_⟩
  rcases hend with ⟨u, hu, rfl⟩ | ⟨p, u, hu, rfl⟩
  · obtain ⟨hkeep, hdir, hout⟩ := performEvent_done hu
    refine ⟨fun p hp => ?_, fun hinit => ?_, hparams, hhost, hline, hpending, .inl ⟨?_, ?_, ?_⟩⟩
    · simp [hdir, hout, dirAfter_other hp, outAfter_other hp]
    · simp [hdir, keepsDir_eventsOf _ _ hinit hi e hmem s.dir]
    · simp [hkeep.fault]
    · simp [hkeep.trace]
    · by_cases hk : k + 1 < (eventsOf s.params s.phase i).length
      · exact .inl ⟨hk, by simp [State.advance_more _ _ _ hk, hkeep.phase]⟩
      · have hlt := (List.getElem?_eq_some_iff.1 he).1
        refine .inr ⟨by omega, by simp [State.advance_last _ _ _ hk], fun hinit => ?_⟩
        simp [State.advance_last _ _ _ hk, hkeep.phase, endsIn_eq hi, hinit]
  · obtain ⟨hp, hkeep, hdir, hout⟩ := performEvent_failed hu
    refine ⟨fun q hq => ?_, fun _ => ?_, hparams, hhost, hline, hpending, .inr ⟨p, hp, rfl, ?_, rfl, rfl⟩⟩
    · simp [hdir, hout, outFailed_other p hq]
    · simp [hdir]
    · simp [hkeep.trace]

/-! ### An operation runs through its events -/

/-- What an operation leaves that performed `es` from `s` on, to its end (R17, R70). -/
structure RanThrough (op : Instr) (es : List Event) (s t : State) : Prop where
  seq : t.seq = .idle
  phase : t.phase = endsIn op s.phase
  dir : t.dir = dirAfterAll es s.dir
  out : t.out = outAfterAll es s.out
  fault : t.fault = s.fault
  params : t.params = s.params
  host : t.host = s.host
  trace : t.trace = (es.map fun e => ⟨e, none⟩).reverse ++ s.trace

/-- The events of an operation, taken one at a time. -/
theorem RanThrough.cons {op : Instr} {e : Event} {es : List Event} {s u t : State} (h : RanThrough op es u t)
    (hphase : u.phase = s.phase) (hdir : u.dir = e.dirAfter s.dir) (hout : u.out = e.outAfter s.out) (hfault : u.fault = s.fault)
    (hparams : u.params = s.params) (hhost : u.host = s.host) (htrace : u.trace = ⟨e, none⟩ :: s.trace) :
    RanThrough op (e :: es) s t where
  seq := h.seq
  phase := by rw [h.phase, hphase]
  dir := by rw [h.dir, hdir]; rfl
  out := by rw [h.out, hout]; rfl
  fault := h.fault.trans hfault
  params := h.params.trans hparams
  host := h.host.trans hhost
  trace := by rw [h.trace, htrace]; simp

theorem CallsSucceed.of_eq {es : List Event} {s t : State} (h : CallsSucceed es s) (hp : t.params = s.params)
    (ha : t.ioAnswers = s.ioAnswers) : CallsSucceed es t := by
  rw [CallsSucceed, hp, ha]
  exact h

theorem NotInterrupted.of_eq {m : Nat} {s t : State} (h : NotInterrupted m s) (hp : t.params = s.params)
    (hi : t.irqPending = s.irqPending) (hl : t.irqLine = s.irqLine) : NotInterrupted m t := by
  rw [NotInterrupted, hp, hi, hl]
  exact h

/-- After one step the samples that are left are quiet too. -/
theorem NotInterrupted.sampled {m : Nat} {s : State} (h : NotInterrupted (m + 1) s) : NotInterrupted m s.sampleIrq := by
  rcases h with hg | ⟨hpending, hquiet⟩
  · exact .inl (by simpa using hg)
  · refine .inr ?_
    cases hl : s.irqLine with
    | nil => simp [hl, hpending]
    | cons b rest =>
      simp only [hl, List.take_succ_cons, List.mem_cons, forall_eq_or_imp] at hquiet
      simpa [hl, hpending] using hquiet

/-- Between two events of an operation nothing else is done: the rest is `exec` again, from the sampled state. -/
theorem run_inProgress {op : Instr} {k n : Nat} {s : State} (hs : s.seq = .busy op k) (h : NotInterrupted (n + 1) s) :
    run (n + 1) s = execThenRun op n s.sampleIrq := by
  rw [run_succ, step_notInterrupted h hs]
  rfl

/-- An event whose calls succeed, performed at its position. -/
theorem performAt_succeeds {op : Instr} {events es : List Event} {f : Phase → Phase} {k : Nat} {s : State} {e : Event}
    (he : events[k]? = some e) (ha : e.allowed s.dir = true) (hc : CallsSucceed (e :: es) s) :
    ∃ u, KeepsControl s u ∧ u.dir = e.dirAfter s.dir ∧ u.out = e.outAfter s.out ∧ CallsSucceed es u ∧
      performAt op events f k s = .next ((u.record e none).advance op events.length k f) := by
  obtain ⟨u, hu, hcalls⟩ := performEvent_succeeds ha hc
  obtain ⟨hkeep, hdir, hout⟩ := performEvent_done hu
  exact ⟨u, hkeep, hdir, hout, hcalls, by simp [performAt, he, hu]⟩

/-- From a state that performs the first of the events that are left, `exec` and one step for each further event perform them all. -/
theorem execThenRun_ranThrough {op : Instr} (hop : op ≠ .shutdown) (e : Event) (es : List Event) :
    ∀ {k : Nat} {s : State}, exec op s = performAt op (eventsOf s.params s.phase op) (endsIn op) k s →
      (eventsOf s.params s.phase op).drop k = e :: es → allAllowed s.dir (e :: es) = true → CallsSucceed (e :: es) s →
      NotInterrupted es.length s → ∃ t, execThenRun op es.length s = .next t ∧ RanThrough op (e :: es) s t := by
  induction es generalizing e with
  | nil =>
    intro k s hexec hdrop hallowed hcalls _
    have he : e.allowed s.dir = true := by simpa [allAllowed] using hallowed
    have hk : (eventsOf s.params s.phase op)[k]? = some e := by
      rw [← List.head?_drop, hdrop]
      rfl
    have hlen : (eventsOf s.params s.phase op).length - k = 1 := by simpa using congrArg List.length hdrop
    obtain ⟨u, hkeep, hdir, hout, -, hperform⟩ := performAt_succeeds (op := op) (f := endsIn op) hk he hcalls
    rw [State.advance_last _ _ _ (by omega)] at hperform
    refine ⟨_, execThenRun_of_exec (hexec.trans hperform), ?_⟩
    constructor <;> simp [hdir, hout, hkeep.phase, hkeep.fault, hkeep.params, hkeep.host, hkeep.trace, dirAfterAll, outAfterAll]
  | cons e' es ih =>
    intro k s hexec hdrop hallowed hcalls hquiet
    obtain ⟨he, hrest⟩ : e.allowed s.dir = true ∧ allAllowed (e.dirAfter s.dir) (e' :: es) = true := by
      simpa only [allAllowed, Bool.and_eq_true] using hallowed
    have hk : (eventsOf s.params s.phase op)[k]? = some e := by
      rw [← List.head?_drop, hdrop]
      rfl
    have hlen : (eventsOf s.params s.phase op).length - k = es.length + 2 := by simpa using congrArg List.length hdrop
    obtain ⟨u, hkeep, hdir, hout, hcalls', hperform⟩ := performAt_succeeds (op := op) (f := endsIn op) hk he hcalls
    rw [State.advance_more _ _ _ (by omega)] at hperform
    have hquiet' : NotInterrupted (es.length + 1) ((u.record e none).setSeq (.busy op (k + 1))) :=
      hquiet.of_eq (by simp [hkeep.params]) (by simp [hkeep.irqPending]) (by simp [hkeep.irqLine])
    have hdrop' : (eventsOf s.params s.phase op).drop (k + 1) = e' :: es := by
      rw [← List.tail_drop, hdrop]
      rfl
    obtain ⟨t, hrun, ht⟩ := ih e' (k := k + 1) (s := ((u.record e none).setSeq (.busy op (k + 1))).sampleIrq)
      (exec_busy op _ _ hop (by simp)) (by simpa [hkeep.params, hkeep.phase] using hdrop') (by simpa [hdir] using hrest)
      (hcalls'.of_eq (by simp) (by simp)) hquiet'.sampled
    refine ⟨t, ?_, ht.cons ?_ ?_ ?_ ?_ ?_ ?_ ?_⟩
    · rw [execThenRun_of_exec (hexec.trans hperform)]
      exact (run_inProgress rfl hquiet').trans hrun
    all_goals simp [hdir, hout, hkeep.phase, hkeep.fault, hkeep.params, hkeep.host, hkeep.trace]

/-- Settles O55: at acceptance or in progress, `exec` performs the first of the events that are left. -/
theorem operationRunsThroughItsEvents : Obligations.OperationRunsThroughItsEvents := by
  intro op k s es hop hat hes hne hallowed hcalls hquiet
  cases es with
  | nil => exact absurd rfl hne
  | cons e es =>
    obtain ⟨t, hrun, ht⟩ := execThenRun_ranThrough hop e es (exec_atEvent hop hat) hes.symm hallowed hcalls hquiet
    exact ⟨t, hrun, ht.seq, ht.phase.trans (endsIn_eq hop _), ht.dir, ht.out, ht.fault, ht.params, ht.host, ht.trace⟩

/-! ### The next step, and the status word -/

/-- Settles O13: one rule for each thing the next step can be. -/
theorem stepRunsTheNextInstruction : Obligations.StepRunsTheNextInstruction :=
  ⟨fun _ _ _ => step_inProgress, fun _ _ _ _ => step_command, fun _ _ _ _ => step_undecodable, fun _ => step_waits,
    fun _ => step_interrupt⟩

/-- The three fields of the status word, for every code (R21). -/
theorem statusFields (f b : BitVec 1) (p : BitVec 2) :
    ((f ++ p ++ b : BitVec 4).getLsbD 0 = b.getLsbD 0) ∧ ((f ++ p ++ b : BitVec 4).extractLsb' 1 2 = p) ∧
      ((f ++ p ++ b : BitVec 4).getLsbD 3 = f.getLsbD 0) := by
  revert f b p
  decide

theorem busyBit_set_iff (q : Seq) : (busyBit q).getLsbD 0 = true ↔ q ≠ .idle := by
  cases q <;> simp [busyBit]

theorem faultCode_set_iff (f : FaultRecord) : (faultCode f).getLsbD 0 = true ↔ f ≠ .none := by
  cases f <;> simp [faultCode]

/-- Settles O50: the word is the concatenation of the codes of the three fields. -/
theorem statusWordLayout : Obligations.StatusWordLayout := by
  refine ⟨rfl, fun s => ?_⟩
  obtain ⟨hbusy, hphase, hfault⟩ := statusFields (faultCode s.fault) (busyBit s.seq) (phaseCode s.phase)
  refine ⟨?_, hphase.trans ?_, ?_⟩
  · rw [← busyBit_set_iff, ← hbusy]
    rfl
  · cases s.phase <;> rfl
  · rw [← faultCode_set_iff, ← hfault]
    rfl

end Sys2Proof.Safety
end

section
/-! PROOFS. Family 20_memory.md, O9: the order in which nibbles, characters and bits go out (R35). -/

namespace Sys2Proof.Safety

open Sys2Proof.Machine

section
variable {p : Event → Bool} (hdata : ∀ n, p (.data n) = true) (hwr : ∀ q v, p (.wr q v) = false) (hdly : ∀ d, p (.dly d) = false)
include hdata hwr hdly

/-- A nibble is presented once, before its strobe (R76). -/
theorem filter_data_nibEvents (n : Nibble) : (nibEvents n).filter p = [.data n] := by
  simp [nibEvents, strobeEvents, hdata, hwr, hdly]

/-- A byte's high nibble is presented before its low one (R85). -/
theorem filter_data_sendEvents (c : LcdCommand) :
    (sendEvents c).filter p = [.data (hiNibble c.value), .data (loNibble c.value)] := by
  rw [sendEvents, List.filter_cons_of_neg (by simp [hwr]), List.filter_append, filter_data_nibEvents hdata hwr hdly,
    filter_data_nibEvents hdata hwr hdly]
  rfl

end

/-- The characters of a line follow its base, each sent as one byte with `RS` HIGH (R112). -/
theorem showlineEvents_eq_sendEvents (line : Line) (text : Text) :
    showlineEvents line text = sendEvents ⟨.low, lineBase line⟩ ++ (fit16 text).flatMap fun c => sendEvents ⟨.high, c⟩ :=
  rfl

/-- One presentation puts bit `i` on line `i`, for the four lines at once (R74). -/
theorem presentOut_eq (n : Nibble) (o : PinFile (Option Level)) :
    presentOut n o =
      { o with
        d0 := some (levelOfBit (n.getLsbD 0))
        d1 := some (levelOfBit (n.getLsbD 1))
        d2 := some (levelOfBit (n.getLsbD 2))
        d3 := some (levelOfBit (n.getLsbD 3)) } := by
  simp only [presentOut, PinFile.set, nibbleLevel]

/-- Settles O9: the presentations of a byte, the bytes of a line, and the lines of a presentation. -/
theorem transferOrder : Obligations.TransferOrder := by
  refine ⟨fun c => ?_, showlineEvents_eq_sendEvents, fun n o => ?_⟩
  · exact filter_data_sendEvents (fun _ => rfl) (fun _ _ => rfl) (fun _ => rfl) c
  · exact presentOut_eq n o

end Sys2Proof.Safety
end

section
/-! PROOFS. Family 30_encoding.md, O3, O4, O5, O1 and O2: the words of the three formats and the instructions they stand for (R52 to R60). -/

namespace Sys2Proof

/-! ### Host words: the rows of R58 by fields -/

/-- The rows of R58: the two fields of the word, the text beside it, the command. -/
inductive HostRow : BitVec 4 → Byte → Text → Instr → Prop where
  | init : HostRow 0x0#4 0#8 [] .init
  | wri (b : Byte) : HostRow 0x1#4 b [] (.wri b)
  | wrc (b : Byte) : HostRow 0x2#4 b [] (.wrc b)
  | strobe : HostRow 0x3#4 0#8 [] .strobe
  | showline (line : Line) (text : Text) : HostRow 0x4#4 (lineArg line) text (.showline line text)
  | clear : HostRow 0x5#4 0#8 [] .clear
  | shutdown : HostRow 0x6#4 0#8 [] .shutdown

theorem noArg_ok {a : Byte} {i j : Instr} (h : noArg a j = .ok i) : a = 0#8 ∧ j = i := by
  unfold noArg at h
  split at h
  · exact ⟨‹_›, Except.ok.inj h⟩
  · cases h

theorem hostRow_of_decodePlain {op : BitVec 4} {a : Byte} {i : Instr} (h : decodePlain op a = .ok i) : HostRow op a [] i := by
  unfold decodePlain at h
  split_ifs at h with h0 h1 h2 h3 h5 h6
  · obtain ⟨rfl, rfl⟩ := noArg_ok h
    exact h0 ▸ .init
  · cases h
    exact h1 ▸ .wri a
  · cases h
    exact h2 ▸ .wrc a
  · obtain ⟨rfl, rfl⟩ := noArg_ok h
    exact h3 ▸ .strobe
  · obtain ⟨rfl, rfl⟩ := noArg_ok h
    exact h5 ▸ .clear
  · obtain ⟨rfl, rfl⟩ := noArg_ok h
    exact h6 ▸ .shutdown

theorem hostRow_of_decodeShowline {a : Byte} {t : Text} {i : Instr} (h : decodeShowline a t = .ok i) : HostRow 0x4#4 a t i := by
  unfold decodeShowline at h
  split_ifs at h with h1 h2
  · cases h
    exact h1 ▸ .showline .line1 t
  · cases h
    exact h2 ▸ .showline .line2 t

theorem HostRow.decodes {op : BitVec 4} {a : Byte} {t : Text} {i : Instr} (h : HostRow op a t i) :
    decodeHost ⟨hostWord op a, t⟩ = .ok i := by
  rw [decodeHost_hostWord]
  cases h with
  | showline line text => cases line <;> rfl
  | init | wri | wrc | strobe | clear | shutdown => rfl

theorem decodeHost_ok_iff {op : BitVec 4} {a : Byte} {t : Text} {i : Instr} :
    decodeHost ⟨hostWord op a, t⟩ = .ok i ↔ HostRow op a t i := by
  refine ⟨fun h => ?_, HostRow.decodes⟩
  rw [decodeHost_hostWord] at h
  split_ifs at h with hop ht
  · exact hop ▸ hostRow_of_decodeShowline h
  · exact ht ▸ hostRow_of_decodePlain h

theorem HostRow.encodes {op : BitVec 4} {a : Byte} {t : Text} {i : Instr} (h : HostRow op a t i) (P : Params) :
    encode P i = .host ⟨hostWord op a, t⟩ := by
  cases h <;> rfl

/-! ### The masks of R58 by fields -/

theorem hostWord_eq_iff (op k : BitVec 4) (a b : Byte) : hostWord op a = hostWord k b ↔ op = k ∧ a = b := by
  refine ⟨fun h => ⟨?_, ?_⟩, fun ⟨hop, harg⟩ => by rw [hop, harg]⟩
  · simpa only [opField_hostWord] using congrArg opField h
  · simpa only [argField_hostWord] using congrArg argField h

theorem hostWord_and (op k : BitVec 4) (a b : Byte) : hostWord op a &&& hostWord k b = hostWord (op &&& k) (a &&& b) :=
  BitVec.and_append

/-- The mask of a row with a byte operand reads the operation field alone. -/
theorem hostWord_opMask_iff (op k : BitVec 4) (a : Byte) : hostWord op a &&& 0xF00#12 = hostWord k 0#8 ↔ op = k := by
  have hmask : hostWord op a &&& 0xF00#12 = hostWord (op &&& 0xF#4) (a &&& 0#8) := hostWord_and op 0xF#4 a 0#8
  rw [hmask, BitVec.and_zero, hostWord_eq_iff, and_iff_left rfl, show op &&& 0xF#4 = op from BitVec.and_allOnes]

/-- Bits 7:1 of the argument are 0 exactly where it selects a line (R59). -/
theorem lineArg_mask_iff (a : Byte) : a &&& 0xFE#8 = 0#8 ↔ ∃ line, a = lineArg line := by
  have hline : a &&& 0xFE#8 = 0#8 ↔ a = lineArg .line1 ∨ a = lineArg .line2 := by
    revert a
    decide
  rw [hline]
  refine ⟨?_, fun ⟨line, h⟩ => ?_⟩
  · rintro (h | h)
    exacts [⟨_, h⟩, ⟨_, h⟩]
  · cases line with
    | line1 => exact .inl h
    | line2 => exact .inr h

/-- The mask of `SHOWLINE` leaves the line free. -/
theorem hostWord_lineMask_iff (op : BitVec 4) (a : Byte) :
    hostWord op a &&& 0xFFE#12 = 0x400#12 ↔ op = 0x4#4 ∧ ∃ line, a = lineArg line := by
  have hmask : hostWord op a &&& 0xFFE#12 = hostWord (op &&& 0xF#4) (a &&& 0xFE#8) := hostWord_and op 0xF#4 a 0xFE#8
  rw [hmask, show 0x400#12 = hostWord 0x4#4 0#8 from rfl, hostWord_eq_iff, show op &&& 0xF#4 = op from BitVec.and_allOnes,
    lineArg_mask_iff]

/-! ### Bus words -/

theorem decodeBus5_ok_iff {w : BitVec 5} {i : Instr} :
    decodeBus5 w = .ok i ↔ (w = 0x03#5 ∧ i = .hs3) ∨ (w = 0x02#5 ∧ i = .hs2) := by
  unfold decodeBus5
  split_ifs with h3 h2 <;> simp [*, eq_comm]

/-- The instruction read from a byte is encoded as that byte, whichever row it is (R54). -/
theorem encode_decodeInstrByte (P : Params) (b : Byte) : encode P (decodeInstrByte P b) = .bus9 (bus9Word 0#1 b) := by
  unfold decodeInstrByte
  split_ifs <;> simp only [encode, *]

theorem encode_decodeBus9 (P : Params) (w : BitVec 9) : encode P (decodeBus9 P w) = .bus9 w := by
  conv_rhs => rw [← bus9Word_fields w]
  unfold decodeBus9
  cases hrs : w.getLsbD 8 with
  | true => rfl
  | false => exact encode_decodeInstrByte P _

/-- Where the seven named bytes differ, each is read as its own row (R54). -/
theorem decodeInstrByte_named {P : Params} (h : P.namedBytes.Nodup) :
    P.namedBytes.map (decodeInstrByte P) =
      [.functionSet, .displayOff, .clearDisplay, .entryMode, .displayOn, .setLine1, .setLine2] := by
  have hlater : P.namedBytes.Pairwise fun earlier later => ¬ later = earlier := h.imp Ne.symm
  simp only [Params.namedBytes, List.pairwise_cons, List.mem_cons, forall_eq_or_imp] at hlater
  simp [Params.namedBytes, decodeInstrByte, hlater]

theorem decodeInstrByte_unnamed {P : Params} {b : Byte} (h : b ∉ P.namedBytes) : decodeInstrByte P b = .instr b := by
  simp only [Params.namedBytes, List.mem_cons, not_or] at h
  simp only [decodeInstrByte, h, if_false]

/-! ### The statements -/

/-- Settles O3: a host command by its row of R58, a named bus byte by the order of its row in R54. -/
theorem decodeEncodeAgree : Obligations.DecodeEncodeAgree := by
  intro P i hi
  cases i with
  | init | wri | wrc | strobe | showline | clear | shutdown => exact HostRow.decodes (by constructor)
  | hs3 | hs2 => rfl
  | functionSet | displayOff | clearDisplay | entryMode | displayOn | setLine1 | setLine2 =>
    have hnamed := decodeInstrByte_named (of_decide_eq_true hi)
    simp only [Params.namedBytes, List.map_cons, List.cons.injEq] at hnamed
    simp only [encode, decode, decodeBus9_instruction, hnamed]
  | char c => exact congrArg Except.ok (decodeBus9_character P c)
  | instr b =>
    have hb : b ∉ P.namedBytes := by simpa [Instr.wellFormed] using hi
    exact congrArg Except.ok ((decodeBus9_instruction P b).trans (decodeInstrByte_unnamed hb))

/-- Settles O4: by the format of the word. -/
theorem encodeDecodeAgree : Obligations.EncodeDecodeAgree := by
  intro P t i h
  cases t with
  | host c =>
    obtain ⟨w, text⟩ := c
    have hrow : HostRow (opField w) (argField w) text i := by
      rw [← decodeHost_ok_iff, hostWord_fields]
      exact h
    rw [hrow.encodes P, hostWord_fields]
  | bus5 w =>
    rcases decodeBus5_ok_iff.1 h with ⟨rfl, rfl⟩ | ⟨rfl, rfl⟩ <;> rfl
  | bus9 w =>
    obtain rfl : decodeBus9 P w = i := Except.ok.inj h
    exact encode_decodeBus9 P w

/-- Settles O5: the rows of R58 by fields are the rows under their masks. -/
theorem hostDecodingFollowsTheRows : Obligations.HostDecodingFollowsTheRows := by
  rintro ⟨w, text⟩
  rw [← hostWord_fields w]
  generalize opField w = op, argField w = a
  simp only [decodeHost_ok_iff]
  constructor
  · rintro ⟨i, hrow⟩
    cases hrow with
    | init => exact .inr ⟨rfl, .inl rfl⟩
    | wri => exact .inr ⟨rfl, .inr (.inl ((hostWord_opMask_iff _ 0x1#4 _).2 rfl))⟩
    | wrc => exact .inr ⟨rfl, .inr (.inr (.inl ((hostWord_opMask_iff _ 0x2#4 _).2 rfl)))⟩
    | strobe => exact .inr ⟨rfl, .inr (.inr (.inr (.inl rfl)))⟩
    | showline line => exact .inl ((hostWord_lineMask_iff _ _).2 ⟨rfl, line, rfl⟩)
    | clear => exact .inr ⟨rfl, .inr (.inr (.inr (.inr (.inl rfl))))⟩
    | shutdown => exact .inr ⟨rfl, .inr (.inr (.inr (.inr (.inr rfl))))⟩
  · rintro (hw | ⟨rfl, hw | hw | hw | hw | hw | hw⟩)
    · obtain ⟨rfl, line, rfl⟩ := (hostWord_lineMask_iff op a).1 hw
      exact ⟨_, .showline line text⟩
    · obtain ⟨rfl, rfl⟩ := (hostWord_eq_iff op 0x0#4 a 0#8).1 hw
      exact ⟨_, .init⟩
    · obtain rfl := (hostWord_opMask_iff op 0x1#4 a).1 hw
      exact ⟨_, .wri a⟩
    · obtain rfl := (hostWord_opMask_iff op 0x2#4 a).1 hw
      exact ⟨_, .wrc a⟩
    · obtain ⟨rfl, rfl⟩ := (hostWord_eq_iff op 0x3#4 a 0#8).1 hw
      exact ⟨_, .strobe⟩
    · obtain ⟨rfl, rfl⟩ := (hostWord_eq_iff op 0x5#4 a 0#8).1 hw
      exact ⟨_, .clear⟩
    · obtain ⟨rfl, rfl⟩ := (hostWord_eq_iff op 0x6#4 a 0#8).1 hw
      exact ⟨_, .shutdown⟩

/-- Settles O1: each word is a row of R58 with its fields written out. -/
theorem hostWordsDecode : Obligations.HostWordsDecode :=
  ⟨HostRow.init.decodes, (HostRow.wri 0x80#8).decodes, (HostRow.wrc 0x41#8).decodes, HostRow.strobe.decodes,
    (HostRow.showline .line2 [0x4E#8]).decodes, HostRow.clear.decodes, HostRow.shutdown.decodes⟩

theorem decodeBus9_of_encode {P : Params} {i : Instr} {w : BitVec 9} (h : i.wellFormed P = true) (hw : encode P i = .bus9 w) :
    decodeBus9 P w = i := by
  have hdecode := decodeEncodeAgree P i h
  rw [hw] at hdecode
  exact Except.ok.inj hdecode

/-- Settles O2: each word is the encoding of its row with the default bytes. -/
theorem busWordsDecode : Obligations.BusWordsDecode := by
  refine ⟨rfl, rfl, ?_, ?_, ?_, ?_, ?_, ?_⟩
  all_goals exact decodeBus9_of_encode (by decide) rfl

end Sys2Proof
end

section
/-! PROOFS. Family 30_encoding.md, O41: the bus words that are one byte are sent as that byte (R54, R91). -/

namespace Sys2Proof.Safety

open Sys2Proof.Machine

/-- The events of one byte, in R91's order. -/
theorem sendEvents_eq_byteTrace (c : LcdCommand) : sendEvents c = byteTrace c.mode c.value := rfl

theorem length_sendEvents (c : LcdCommand) : (sendEvents c).length = 13 := rfl

theorem dirAfterAll_sendEvents (c : LcdCommand) (d : PinFile Dir) : dirAfterAll (sendEvents c) d = d := rfl

/-- Sending a byte writes all six pins. -/
theorem outAfterAll_sendEvents (c : LcdCommand) (o : PinFile (Option Level)) : outAfterAll (sendEvents c) o = pinsAfterByte c := rfl

theorem allAllowed_sendEvents (c : LcdCommand) : allAllowed (.all .output) (sendEvents c) = true := rfl

section
variable {op : Instr} {c : LcdCommand} {s : State} (hevents : eventsOf s.params s.phase op = sendEvents c) (hop : op ≠ .shutdown)
  (hs : s.seq = .busy op 0) (hd : s.dir = PinFile.all .output) (hio : IoReliable s)
include hevents hop hs hd hio

/-- The first event of an operation that sends one byte drives `RS` to the byte's mode (R85). -/
theorem exec_sendsByte_first :
    exec op s = .next
      { s with
        out := { s.out with rs := some c.mode }
        seq := .busy op 1
        trace := ⟨.wr .rs c.mode, none⟩ :: s.trace } := by
  have hallowed : (Event.wr .rs c.mode).allowed s.dir = true := by rw [hd]; rfl
  rw [exec_busy op s 0 hop hs, hevents, performAt_reliable (e := .wr .rs c.mode) rfl hio hallowed,
    State.advance_more _ _ _ (by simp [length_sendEvents])]
  rfl

/-- An operation that sends one byte, from its first event to its end (R91). -/
theorem execThenRun_sendsByte (hg : IrqAtBoundary s) (hends : endsIn op = samePhase) :
    execThenRun op 12 s = .next (ended s (byteTrace c.mode c.value) 12 s.dir (pinsAfterByte c) s.phase) := by
  have hallowed : allAllowed s.dir (sendEvents c) = true := by rw [hd, allAllowed_sendEvents]
  have hrun := execThenRun_sequenced hop hevents hs (by simp [length_sendEvents]) hio hg hallowed
  rwa [finished, dirAfterAll_sendEvents, outAfterAll_sendEvents, sendEvents_eq_byteTrace, hends] at hrun

end

/-- Settles O41: the eight bus words are the operations whose events send one byte. -/
theorem busBytesComplete : Obligations.BusBytesComplete := by
  intro i mode b s hi hs hd hio hg
  obtain ⟨hop, hevents, hends⟩ :
      i ≠ .shutdown ∧ eventsOf s.params s.phase i = sendEvents ⟨mode, b⟩ ∧ endsIn i = samePhase := by
    rcases hi with ⟨rfl, rfl, rfl⟩ | ⟨rfl, rfl, rfl⟩ | ⟨rfl, rfl, rfl⟩ | ⟨rfl, rfl, rfl⟩ | ⟨rfl, rfl, rfl⟩ | ⟨rfl, rfl, rfl⟩ |
      ⟨rfl, rfl⟩ | ⟨rfl, rfl⟩ <;> exact ⟨nofun, rfl, rfl⟩
  exact ⟨exec_sendsByte_first hevents hop hs hd hio, execThenRun_sendsByte hevents hop hs hd hio hg hends⟩

end Sys2Proof.Safety
end

section
/-! PROOFS. Family 40_primitives.md, O17, O23, O22 and O48: what one event does to the pins and to the trace (R70 to R74), so what the controller
sees (R79) and what holds still while `E` is HIGH (R77). -/

namespace Sys2Proof.Safety

open Sys2Proof.Machine

/-! ### One event, performed -/

/-- From `s` to `t` one pin event was performed, and nothing else touched the pins or the trace (R70). -/
inductive Performs (e : Event) (s t : State) : Prop where
  /-- it succeeded -/
  | done (allowed : e.allowed s.dir = true) (trace : t.trace = ⟨e, none⟩ :: s.trace) (dir : t.dir = e.dirAfter s.dir)
    (out : t.out = e.outAfter s.out)
  /-- it failed at pin `p` -/
  | failed (p : Pin) (own : p ∈ e.pins) (trace : t.trace = ⟨e, some p⟩ :: s.trace) (dir : t.dir = s.dir)
    (out : t.out = e.outFailed p s.out)

/-- The pins and the trace stay. -/
structure KeepsPins (s t : State) : Prop where
  trace : t.trace = s.trace
  dir : t.dir = s.dir
  out : t.out = s.out

theorem performs_of_done {e : Event} {s u t : State} (hu : performEvent e s = .done u) (htrace : t.trace = ⟨e, none⟩ :: u.trace)
    (hdir : t.dir = u.dir) (hout : t.out = u.out) : Performs e s t := by
  obtain ⟨hkeep, hdir', hout'⟩ := performEvent_done hu
  exact .done (performEvent_done_allowed hu) (by rw [htrace, hkeep.trace]) (hdir.trans hdir') (hout.trans hout')

theorem performs_of_failed {e : Event} {p : Pin} {s u t : State} (hu : performEvent e s = .failed p u)
    (htrace : t.trace = ⟨e, some p⟩ :: u.trace) (hdir : t.dir = u.dir) (hout : t.out = u.out) : Performs e s t := by
  obtain ⟨hown, hkeep, hdir', hout'⟩ := performEvent_failed hu
  exact .failed p hown (by rw [htrace, hkeep.trace]) (hdir.trans hdir') (hout.trans hout')

/-- An operation's step performs the event at its position (R17). -/
theorem performAt_performs {op : Instr} {es : List Event} {f : Phase → Phase} {k : Nat} {s t : State}
    (h : performAt op es f k s = .next t) : ∃ e, es[k]? = some e ∧ Performs e s t := by
  obtain ⟨e, he, ⟨u, hu, rfl⟩ | ⟨p, u, hu, rfl⟩⟩ := performAt_next h
  · exact ⟨e, he, performs_of_done hu (by simp) (by simp) (by simp)⟩
  · exact ⟨e, he, performs_of_failed hu (by simp) (by simp) (by simp)⟩

/-- The cleanup's step performs one event, or there is none left (R126). -/
theorem cleanupAt_performs {k : Nat} {s t : State} (h : cleanupAt k s = .next t) : KeepsPins s t ∨ ∃ e, Performs e s t := by
  rcases cleanupAt_next h with ⟨-, rfl⟩ | ⟨e, -, ⟨u, hu, rfl⟩ | ⟨p, u, hu, rfl⟩⟩
  · exact .inl ⟨by simp, by simp, by simp⟩
  · exact .inr ⟨e, performs_of_done hu (by simp) (by simp) (by simp)⟩
  · exact .inr ⟨e, performs_of_failed hu (by simp) (by simp) (by simp)⟩

theorem exec_performs {i : Instr} {s t : State} (h : exec i s = .next t) : KeepsPins s t ∨ ∃ e, Performs e s t := by
  by_cases hi : i = .shutdown
  · subst hi
    obtain ⟨k, -, h⟩ := runCleanup_next h
    exact cleanupAt_performs h
  · rw [exec_eq_runOperation i s hi] at h
    obtain ⟨k, -, h⟩ := runOperation_next h
    obtain ⟨e, -, h⟩ := performAt_performs h
    exact .inr ⟨e, h⟩

theorem KeepsPins.performs {e : Event} {s u t : State} (hu : KeepsPins s u) (h : Performs e u t) : Performs e s t := by
  cases h with
  | done allowed trace dir out =>
    exact .done (hu.dir ▸ allowed) (trace.trans (by rw [hu.trace])) (dir.trans (by rw [hu.dir])) (out.trans (by rw [hu.out]))
  | failed p own trace dir out =>
    exact .failed p own (trace.trans (by rw [hu.trace])) (dir.trans hu.dir) (out.trans (by rw [hu.out]))

theorem KeepsPins.trans {s u t : State} (hu : KeepsPins s u) (h : KeepsPins u t) : KeepsPins s t :=
  ⟨h.trace.trans hu.trace, h.dir.trans hu.dir, h.out.trans hu.out⟩

/-- WHAT A STEP DOES TO THE PINS, in every state: nothing, or one event of R70's table; sampling the interrupt and taking a command touch
neither a pin nor the trace. -/
theorem step_performs {s t : State} (h : step s = .next t) : KeepsPins s t ∨ ∃ e, Performs e s t := by
  have fromExec {i : Instr} {u : State} (hu : KeepsPins s u) (hx : exec i u = .next t) : KeepsPins s t ∨ ∃ e, Performs e s t :=
    (exec_performs hx).imp hu.trans fun ⟨e, he⟩ => ⟨e, hu.performs he⟩
  rcases step_next h with ⟨-, -, -, rfl⟩ | ⟨-, hx⟩ | ⟨-, op, k, -, hx⟩ | ⟨-, -, c, rest, i, -, -, hx⟩
  · exact .inl ⟨by simp, by simp, by simp⟩
  · exact fromExec ⟨by simp, by simp, by simp⟩ hx
  · exact fromExec ⟨by simp, by simp, by simp⟩ hx
  · exact fromExec ⟨by simp, by simp, by simp⟩ hx

/-! ### What the controller sees (R79) -/

theorem linesSeen_of_trace {x : Entry} {s t : State} (h : t.trace = x :: s.trace) : t.linesSeen = linesAfter x s.linesSeen := by
  simp [State.linesSeen, State.history, h, linesThrough_snoc]

theorem KeepsPins.seesLatches {s t : State} (h : KeepsPins s t) (hs : SeesLatches s) : SeesLatches t := by
  intro p hp
  have hlines : t.linesSeen = s.linesSeen := by simp [State.linesSeen, State.history, h.trace]
  rw [hlines, h.out]
  exact hs p (h.dir ▸ hp)

theorem Performs.seesLatches {e : Event} {s t : State} (h : Performs e s t) (hs : SeesLatches s) : SeesLatches t := by
  cases h with
  | done allowed trace dir out =>
    rw [SeesLatches, linesSeen_of_trace trace, dir, out]
    exact lines_done allowed hs
  | failed p own trace dir out =>
    rw [SeesLatches, linesSeen_of_trace trace, dir, out]
    exact lines_failed own hs

/-- Settles O17: the walk's next entry is the event the step performed, and it gives each driven pin what its latch got. -/
theorem stepKeepsSeesLatches : Obligations.StepKeepsSeesLatches := by
  intro s t hs h
  rcases step_performs h with hkeep | ⟨e, he⟩
  · exact hkeep.seesLatches hs
  · exact he.seesLatches hs

/-- Settles O23: the three things a step can do to the pins. -/
theorem onlyEventsChangePins : Obligations.OnlyEventsChangePins := by
  intro s t h
  rcases step_performs h with hkeep | ⟨e, ⟨-, htrace, hdir, hout⟩ | ⟨p, hown, htrace, hdir, hout⟩⟩
  · exact .inl ⟨hkeep.trace, hkeep.dir, hkeep.out⟩
  · exact .inr (.inl ⟨e, htrace, hdir, hout⟩)
  · exact .inr (.inr ⟨e, p, hown, htrace, hdir, hout⟩)

/-! ### While `E` is HIGH (R77) -/

/-- An event, performed or failed, leaves the latch of a pin it does not name. -/
theorem Performs.out_other {e : Event} {s t : State} {p : Pin} (h : Performs e s t) (hp : p ∉ e.pins) : t.out.get p = s.out.get p := by
  cases h with
  | done _ _ _ out => rw [out, outAfter_other hp]
  | failed q _ _ _ out => rw [out, outFailed_other q hp]

/-- With `E` HIGH the next event of a clean sequence is a delay or lowers `E`, or it still configures a pin. -/
theorem clean_cons_high {d : PinFile Dir} {e : Event} {es : List Event} (h : cleanFrom d (some .high) (e :: es) = true) :
    (∀ p ∈ e.pins, p = .e) ∨ ∃ p, e = .cfg p := by
  cases e with
  | cfg p => exact .inr ⟨p, rfl⟩
  | wr p v => cases p <;> cases v <;> simp [cleanFrom, Event.pins] at h ⊢
  | data n => simp [cleanFrom] at h
  | rel p => simp [cleanFrom] at h
  | dly x => exact .inl (by simp [Event.pins])

/-- Configuring the other pins leaves the level of `E` as it is. -/
theorem clean_after_configuring {l : Option Level} {rest : List Event} (ps : List Pin) :
    ∀ {d : PinFile Dir}, d.get .e = .output → cleanFrom d l (ps.map .cfg ++ rest) = true → ∃ d', cleanFrom d' l rest = true := by
  induction ps with
  | nil => exact fun _ h => ⟨_, h⟩
  | cons p ps ih =>
    intro d hd h
    obtain ⟨hp, h⟩ : d.get p = .unconfigured ∧
        cleanFrom (d.set p .output) (if p = .e then some .low else l) (ps.map .cfg ++ rest) = true := by
      simpa [cleanFrom] using h
    have hother : .e ≠ p := by
      rintro rfl
      simp [hd] at hp
    rw [if_neg hother.symm] at h
    exact ih (by rwa [PinFile.get_set_other _ _ hother]) h

/-- `INIT` configures pins with its first six events alone (R96). -/
theorem initEvents_cfg_position {P : Params} {k : Nat} {p : Pin} (h : (initEvents P)[k]? = some (.cfg p)) : k < 6 := by
  by_contra hk
  rw [initEvents, List.getElem?_append_right (by simpa [configureEvents, pinOrder] using hk)] at h
  simpa [handshakeEvents, Config.hsRepeat, hs3Events, hs2Events, configurationEvents, functionSetEvents, displayOffEvents,
    clearDisplayEvents, entryModeEvents, displayOnEvents, wriEvents, sendEvents, nibEvents, strobeEvents, List.replicate]
    using List.mem_of_getElem? h

/-- While `INIT` configures the pins, a driven `E` is LOW: `RS` is written next, which asks for `E` LOW (R77, R98). -/
theorem clean_configuring_low {P : Params} {k : Nat} {d : PinFile Dir} {l : Option Level} (hk : k < 6) (hd : d.get .e = .output)
    (h : cleanFrom d l ((initEvents P).drop k) = true) : l = some .low := by
  rw [initEvents, List.drop_append_of_le_length (by simpa [configureEvents, pinOrder] using hk.le), configureEvents,
    ← List.map_drop] at h
  obtain ⟨d', h⟩ := clean_after_configuring _ hd h
  obtain ⟨⟨-, hlow⟩, -⟩ := by simpa [cleanFrom, handshakeEvents] using h
  exact hlow

theorem not_keepsDir_cfg (p : Pin) : ¬ KeepsDir (.cfg p) := by
  intro h
  have hp := congrArg (PinFile.get · p) (h (.all .unconfigured))
  simp [Event.dirAfter] at hp

/-- An operation that stands before an event with `E` HIGH names no pin but `E` in it (R77). -/
theorem OperationReady.pins_of_enable_high {op : Instr} {k : Nat} {s : State} {e : Event} (h : OperationReady op k s)
    (he : (eventsOf s.params s.phase op)[k]? = some e) (hhigh : s.out.e = some .high) : ∀ p ∈ e.pins, p = .e := by
  have hclean := h.clean
  rw [hhigh] at hclean
  have hcons := hclean
  rw [List.drop_eq_getElem_cons h.position, (List.getElem?_eq_some_iff.1 he).2] at hcons
  rcases clean_cons_high hcons with hpins | ⟨p, rfl⟩
  · exact hpins
  · have hop : op = .init := by
      by_contra hop
      exact not_keepsDir_cfg p (keepsDir_eventsOf _ _ hop h.notShutdown _ (List.mem_of_getElem? he))
    subst hop
    have hdriven : s.dir.get .e = .output := by
      cases hd : s.dir.get .e with
      | output => rfl
      | unconfigured => simp [show s.out.e = none from h.undriven .e hd] at hhigh
    have hlow := clean_configuring_low (initEvents_cfg_position he) hdriven hclean
    simp at hlow

/-- At a boundary in UNINIT or READY, `E` is not HIGH (R14, R77). -/
theorem BlockInvariant.enable_not_high {s : State} (h : BlockInvariant s) (hs : s.seq = .idle)
    (hp : s.phase = .uninit ∨ s.phase = .ready) : s.out.e ≠ some .high := by
  rcases hp with hp | hp
  · have hundriven : s.out.e = none := h.undriven .e (by simp [h.fresh hp hs])
    simp [hundriven]
  · simp [(h.ready hp hs).2]

/-- With the interrupt at boundaries, a cleanup that is not in progress starts from an idle block (R167). -/
theorem CleanupStep.idle {k : Nat} {s : State} (h : CleanupStep k s) (hg : IrqAtBoundary s) (hn : ∀ k, s.seq ≠ .busy .shutdown k) :
    s.seq = .idle := by
  rcases h with hk | ⟨-, ht | ⟨hs, -⟩⟩
  · exact absurd hk (hn k)
  · cases hs : s.seq with
    | idle => rfl
    | busy op j =>
      have hevent := (takesIrq_busy ((State.sampleIrq_seq s).trans hs) ht).1
      rw [State.sampleIrq_params, show s.params.irqGranularity = .command from hg] at hevent
      simp at hevent
  · exact hs

/-- Settles O22: the cleanup does not start with `E` HIGH, and the next event of any other operation names no pin but `E`. -/
theorem dataStableWhileEnableHigh : Obligations.DataStableWhileEnableHigh := by
  intro s t h hg hn hhigh ht
  suffices hother : ∀ p, p ≠ .e → t.out.get p = s.out.get p from
    ⟨hother .d0 nofun, hother .d1 nofun, hother .d2 nofun, hother .d3 nofun, hother .rs nofun⟩
  rcases h.step_cases with ⟨-, hs | ⟨r, hs⟩⟩ | ⟨k, u, hsame, hu, hstart, -⟩ | ⟨op, k, u, hsame, hu, -, hs⟩
  · obtain rfl : s.sampleIrq = t := by simpa [hs] using ht
    simp
  · simp [hs] at ht
  · exact absurd hhigh (h.enable_not_high (hstart.idle hg hn) (hsame.phase ▸ hu.phase))
  · rw [hs] at ht
    obtain ⟨e, he, hperforms⟩ := performAt_performs ht
    intro p hp
    rw [hperforms.out_other fun hmem => hp (hu.pins_of_enable_high he (hsame.out ▸ hhigh) p hmem), hsame.out]

/-! ### A presentation that fails (R74, R160) -/

/-- The first failing answer among the four fails the presentation at its line. -/
theorem performEvent_data_fails {n : Nibble} (j : Nat) {p : Pin} {s : State} {rest : List IoOutcome}
    (hp : (Event.data n).pins[j]? = some p) (hd : s.dir = PinFile.all .output) (hio : s.params.ioCanFail = true)
    (ha : s.ioAnswers = List.replicate j .ok ++ .fail :: rest) : ∃ u, performEvent (.data n) s = .failed p u := by
  have hpin (q : Pin) : s.dir.get q = .output := by simp [hd]
  match j with
  | 0 | 1 | 2 | 3 =>
    cases hp
    simp [performEvent, present, Performed.andThen, writePin, State.drawIo, State.setOut, hpin, hio, ha, List.replicate]
  | j + 4 => simp [Event.pins] at hp

/-- An operation in progress whose event fails takes the fault; the pins are as the failed event leaves them (R81, R160). -/
theorem exec_takes_fault {i : Instr} {k : Nat} {e : Event} {p : Pin} {s u : State} (hi : i ≠ .shutdown) (hs : s.seq = .busy i k)
    (he : (eventsOf s.params s.phase i)[k]? = some e) (hu : performEvent e s = .failed p u) :
    ∃ t, exec i s = .next t ∧ t.fault = .ioFault p ∧ t.phase = .faulted ∧ t.seq = .idle ∧ t.out = e.outFailed p s.out ∧
      t.dir = s.dir := by
  obtain ⟨-, -, hdir, hout⟩ := performEvent_failed hu
  refine ⟨raiseIoFault p (u.record e (some p)), ?_, rfl, rfl, rfl, hout, hdir⟩
  simp [exec_busy i s k hi hs, performAt, he, hu]

/-- Settles O48: one failing line after `j` that were written, for `j` from 0 to 3. -/
theorem failingPresentTakesIoFault : Obligations.FailingPresentTakesIoFault := by
  intro i k n s rest hi hs he hd hio
  have fails (j : Nat) (p : Pin) (hp : (Event.data n).pins[j]? = some p)
      (ha : s.ioAnswers = List.replicate j .ok ++ .fail :: rest) :
      ∃ t, exec i s = .next t ∧ t.fault = .ioFault p ∧ t.phase = .faulted ∧ t.seq = .idle ∧
        t.out = presentFailedOut n p s.out ∧ t.dir = s.dir := by
    obtain ⟨u, hu⟩ := performEvent_data_fails j hp hd hio ha
    exact exec_takes_fault hi hs he hu
  refine ⟨fails 0 .d0 rfl, fails 1 .d1 rfl, fails 2 .d2 rfl, fun ha => ?_⟩
  obtain ⟨t, hexec, hfault, hphase, hseq, hout, hdir⟩ := fails 3 .d3 rfl ha
  exact ⟨t, hexec, hfault, hphase, hseq, hdir, hout⟩

end Sys2Proof.Safety
end

section
/-! PROOFS. Family 40_primitives.md, O18, O10 and O39: how often each event occurs in an operation (R78, R90, R204), that the count law of nibbles
and strobes is kept, and the strobe by itself (R75). -/

namespace Sys2Proof.Safety

open Sys2Proof.Machine

/-! ### The count law of a sequence of events (R78, R90, R23) -/

/-- One strobe for each nibble, the edges of `E` in equal number, strobes in pairs. -/
structure BalancedEvents (es : List Event) : Prop where
  strobes : countPresent es = countEvent (.wr .e .low) es
  edges : countEvent (.wr .e .high) es = countEvent (.wr .e .low) es
  pairs : countEvent (.wr .e .low) es % 2 = 0

theorem BalancedEvents.append {a b : List Event} (ha : BalancedEvents a) (hb : BalancedEvents b) : BalancedEvents (a ++ b) := by
  obtain ⟨ha1, ha2, ha3⟩ := ha
  obtain ⟨hb1, hb2, hb3⟩ := hb
  constructor <;> simp only [countPresent, countEvent, List.countP_append] at * <;> omega

theorem BalancedEvents.perm {a b : List Event} (h : a.Perm b) (ha : BalancedEvents a) : BalancedEvents b := by
  obtain ⟨h1, h2, h3⟩ := ha
  constructor <;> simp only [countPresent, countEvent, ← h.countP_eq] <;> assumption

theorem balanced_sendEvents (c : LcdCommand) : BalancedEvents (sendEvents c) where
  strobes := rfl
  edges := rfl
  pairs := by rw [show countEvent (.wr .e .low) (sendEvents c) = 2 from rfl]

theorem balanced_clearEvents (P : Params) : BalancedEvents (clearEvents P) := (balanced_sendEvents _).append ⟨rfl, rfl, rfl⟩

theorem balanced_characters (x : Text) : BalancedEvents (x.flatMap wrcEvents) := by
  induction x with
  | nil => exact ⟨rfl, rfl, rfl⟩
  | cons c x ih => exact (balanced_sendEvents _).append ih

/-- The handshake is four nibbles (R98), the configuration five bytes (R100). -/
theorem balanced_initEvents (P : Params) : BalancedEvents (initEvents P) := by
  have hconfiguration : BalancedEvents (configurationEvents P) :=
    (balanced_sendEvents _).append ((balanced_sendEvents _).append ((balanced_clearEvents P).append
      ((balanced_sendEvents _).append (balanced_sendEvents _))))
  have hhandshake : BalancedEvents (.dly .pwr :: handshakeEvents) := ⟨rfl, rfl, rfl⟩
  exact .append ⟨rfl, rfl, rfl⟩ (hhandshake.append hconfiguration)

/-- Every operation of the host's but the cleanup is balanced by itself. -/
theorem balanced_eventsOf (P : Params) (ph : Phase) {i : Instr} (hi : isHostOperation i = true) (hs : i ≠ .shutdown) :
    BalancedEvents (eventsOf P ph i) := by
  cases i with
  | init => exact balanced_initEvents P
  | wri | wrc => exact balanced_sendEvents _
  | showline line text => exact (balanced_sendEvents _).append (balanced_characters _)
  | clear => exact balanced_clearEvents P
  | shutdown => exact absurd rfl hs
  | strobe | hs3 | hs2 | functionSet | displayOff | clearDisplay | entryMode | displayOn | setLine1 | setLine2 | char | instr =>
    simp [isHostOperation] at hi

/-! ### The count law of a state -/

/-- The events of a trace that succeeded. -/
def succeededEvents (tr : List Entry) : List Event := (tr.filter fun t => t.failed.isNone).map Entry.event

theorem countEvent_succeededEvents (e : Event) (tr : List Entry) : countEvent e (succeededEvents tr) = countDone e tr := by
  rw [countEvent, succeededEvents, List.countP_map, List.countP_filter, countDone]
  refine List.countP_congr fun ⟨x, failed⟩ _ => ?_
  cases failed <;> simp

theorem countPresent_succeededEvents (tr : List Entry) : countPresent (succeededEvents tr) = countData tr := by
  rw [countPresent, succeededEvents, List.countP_map, List.countP_filter, countData]
  refine List.countP_congr fun ⟨x, failed⟩ _ => ?_
  cases failed <;> cases x <;> simp

/-- The balance of a state is that of the events performed and still to be performed. -/
theorem balanced_iff (s : State) :
    Balanced s ↔ ((s.phase = .uninit ∨ s.phase = .ready) → (∀ k, s.seq ≠ .busy .shutdown k) →
      BalancedEvents (succeededEvents s.trace ++ remaining s)) := by
  have hcounts : BalancedEvents (succeededEvents s.trace ++ remaining s) ↔
      countData s.trace + countPresent (remaining s) = countDone (.wr .e .low) s.trace + countEvent (.wr .e .low) (remaining s) ∧
      countDone (.wr .e .high) s.trace + countEvent (.wr .e .high) (remaining s) =
        countDone (.wr .e .low) s.trace + countEvent (.wr .e .low) (remaining s) ∧
      (countDone (.wr .e .low) s.trace + countEvent (.wr .e .low) (remaining s)) % 2 = 0 := by
    simp only [← countEvent_succeededEvents, ← countPresent_succeededEvents, countEvent, countPresent, ← List.countP_append]
    exact ⟨fun ⟨h1, h2, h3⟩ => ⟨h1, h2, h3⟩, fun ⟨h1, h2, h3⟩ => ⟨h1, h2, h3⟩⟩
  rw [Balanced, hcounts]

theorem remaining_idle {s : State} (hs : s.seq = .idle) : remaining s = [] := by simp [remaining, hs]

theorem remaining_busy {s : State} {op : Instr} {k : Nat} (hs : s.seq = .busy op k) :
    remaining s = (eventsOf s.params s.phase op).drop k := by simp [remaining, hs]

/-- The law reads the phase, the position, the parameters and the trace only. -/
theorem Balanced.of_fields {s t : State} (h : Balanced s) (hphase : t.phase = s.phase) (hseq : t.seq = s.seq)
    (hparams : t.params = s.params) (htrace : t.trace = s.trace) : Balanced t := by
  rw [Balanced, remaining, hphase, hseq, hparams, htrace]
  exact h

/-- The law says nothing of the cleanup and of what it leaves. -/
theorem balanced_of_exec_shutdown {s t : State} (h : exec .shutdown s = .next t) : Balanced t := by
  obtain ⟨hend, -, hgoes⟩ := exec_shutdown_next h
  intro hp hn
  cases hs : t.seq with
  | idle => simp [hend hs] at hp
  | busy op k =>
    obtain ⟨rfl, -⟩ := hgoes op k hs
    exact absurd hs (hn k)

/-- What an operation has still to do before its event `k`, at its acceptance or in progress, balances what was done. -/
theorem BlockInvariant.balancedBefore {s : State} {i : Instr} {k : Nat} (h : BlockInvariant s) (hb : Balanced s) (hi : i ≠ .shutdown)
    (hk : (s.seq = .idle ∧ admission s.params s.phase i = none ∧ k = 0) ∨ s.seq = .busy i k) :
    BalancedEvents (succeededEvents s.trace ++ (eventsOf s.params s.phase i).drop k) := by
  rw [balanced_iff] at hb
  rcases hk with ⟨hs, hadm, rfl⟩ | hs
  · obtain ⟨hhost, hphase⟩ := admission_none hadm
    have hp : s.phase = .uninit ∨ s.phase = .ready := by
      rcases hphase with ⟨-, hp⟩ | ⟨-, -, hp⟩ | ⟨-, hp⟩
      exacts [.inl hp, .inr hp, hp]
    have hdone := hb hp (by simp [hs])
    rw [remaining_idle hs, List.append_nil] at hdone
    exact hdone.append (balanced_eventsOf _ _ hhost hi)
  · rw [← remaining_busy hs]
    exact hb (h.busy_phase (by simp [hs])) (by simp [hs, hi])

/-- An event that is performed goes from what is still to do to what was done; after a fault the law says nothing. -/
theorem BlockInvariant.exec_keeps_balanced {s t : State} {i : Instr} (h : BlockInvariant s) (hb : Balanced s)
    (ht : exec i s = .next t) : Balanced t := by
  by_cases hi : i = .shutdown
  · subst hi
    exact balanced_of_exec_shutdown ht
  obtain ⟨k, e, hk, he, ⟨u, hu, rfl⟩ | ⟨p, u, -, rfl⟩⟩ := exec_next hi ht
  · obtain ⟨hkeep, -, -⟩ := performEvent_done hu
    obtain ⟨hlt, rfl⟩ := List.getElem?_eq_some_iff.1 he
    have hbefore := h.balancedBefore hb hi hk
    rw [List.drop_eq_getElem_cons hlt] at hbefore
    have hafter := hbefore.perm List.perm_middle
    rw [balanced_iff]
    intro _ _
    by_cases hmore : k + 1 < (eventsOf s.params s.phase i).length
    · rw [State.advance_more _ _ _ hmore, remaining_busy rfl]
      simpa [hkeep.params, hkeep.phase, hkeep.trace, succeededEvents] using hafter
    · rw [List.drop_eq_nil_of_le (by omega)] at hafter
      rw [State.advance_last _ _ _ hmore, remaining_idle rfl]
      simpa [hkeep.trace, succeededEvents] using hafter
  · simp [Balanced]

/-- Settles O18: a wait changes nothing the law reads, and an instruction runs from a state that is the same to it. -/
theorem stepKeepsBalance : Obligations.StepKeepsBalance := by
  intro s t h _ hb ht
  have hsampled : Balanced s.sampleIrq := hb.of_fields (by simp) (by simp) (by simp) (by simp)
  rcases step_next ht with ⟨-, -, -, rfl⟩ | ⟨-, hx⟩ | ⟨-, op, k, -, hx⟩ | ⟨-, -, c, rest, i, -, -, hx⟩
  · exact hsampled
  · exact balanced_of_exec_shutdown hx
  · exact ((sameBlock_sampled s).keeps h (by simp)).exec_keeps_balanced hsampled hx
  · exact ((sameBlock_fetched s rest).keeps h (by simp)).exec_keeps_balanced (hsampled.of_fields rfl rfl rfl rfl) hx

/-! ### The events, strobes and delays of each operation (R204) -/

/-- So many events, strobes and delays. -/
def Counts (events strobes delays : Nat) (es : List Event) : Prop :=
  es.length = events ∧ countEvent (.wr .e .low) es = strobes ∧ countDelays es = delays

theorem Counts.append {n m k n' m' k' : Nat} {a b : List Event} (ha : Counts n m k a) (hb : Counts n' m' k' b) :
    Counts (n + n') (m + m') (k + k') (a ++ b) := by
  obtain ⟨rfl, rfl, rfl⟩ := ha
  obtain ⟨rfl, rfl, rfl⟩ := hb
  exact ⟨List.length_append, List.countP_append, List.countP_append⟩

/-- No count depends on the byte sent. -/
theorem counts_sendEvents (c : LcdCommand) : Counts 13 2 6 (sendEvents c) := ⟨rfl, rfl, rfl⟩

theorem counts_clearEvents (P : Params) : Counts 14 2 7 (clearEvents P) :=
  (counts_sendEvents _).append (n' := 1) (m' := 0) (k' := 1) ⟨rfl, rfl, rfl⟩

theorem counts_characters (x : Text) : Counts (13 * x.length) (2 * x.length) (6 * x.length) (x.flatMap wrcEvents) := by
  induction x with
  | nil => exact ⟨rfl, rfl, rfl⟩
  | cons c x ih =>
    simp only [List.length_cons, Nat.mul_add_one]
    rw [Nat.add_comm (13 * _), Nat.add_comm (2 * _), Nat.add_comm (6 * _)]
    exact (counts_sendEvents _).append ih

/-- The line's base, then 16 characters (R112). -/
theorem counts_showlineEvents (line : Line) (text : Text) : Counts 221 34 102 (showlineEvents line text) := by
  have hcharacters := counts_characters (fit16 text)
  rw [fit16_length] at hcharacters
  exact (counts_sendEvents _).append hcharacters

/-- Six pins, the power-on delay, `RS` with the four nibbles of the handshake, and the configuration's five bytes with the settle delay
(R95 to R100). -/
theorem counts_initEvents (P : Params) : Counts 98 14 44 (initEvents P) := by
  have hconfigure : Counts 6 0 0 configureEvents := ⟨rfl, rfl, rfl⟩
  have hhandshake : Counts (1 + 25) 4 (1 + 12) (.dly .pwr :: handshakeEvents) := ⟨rfl, rfl, rfl⟩
  have hconfiguration : Counts (13 + (13 + (14 + (13 + 13)))) 10 31 (configurationEvents P) :=
    (counts_sendEvents _).append ((counts_sendEvents _).append ((counts_clearEvents P).append
      ((counts_sendEvents _).append (counts_sendEvents _))))
  exact hconfigure.append (hhandshake.append hconfiguration)

/-- The clear, then six releases (R126). -/
theorem counts_shutdownEvents_ready (P : Params) : Counts 20 2 7 (shutdownEvents P .ready) :=
  (counts_clearEvents P).append (n' := 6) (m' := 0) (k' := 0) ⟨rfl, rfl, rfl⟩

/-- Settles O10: each operation is built from byte writes; which delay each one is, is read off the fixed sequences. -/
theorem eventCounts : Obligations.EventCounts := by
  refine ⟨⟨rfl, rfl, rfl⟩, fun n => ⟨rfl, rfl, rfl⟩, fun b => counts_sendEvents _, fun b => counts_sendEvents _, fun P => ?_,
    counts_showlineEvents, fun P => ?_, counts_shutdownEvents_ready⟩
  · obtain ⟨hlength, hstrobes, hdelays⟩ := counts_clearEvents P
    exact ⟨hlength, hstrobes, hdelays, rfl⟩
  · obtain ⟨hlength, hstrobes, hdelays⟩ := counts_initEvents P
    exact ⟨hlength, hstrobes, hdelays, rfl, rfl, rfl⟩

/-! ### The strobe by itself (R75, R129) -/

/-- The five events need `E` alone. -/
theorem allAllowed_strobeEvents {d : PinFile Dir} (hd : d.get .e = .output) : allAllowed d strobeEvents = true := by
  simp [allAllowed, strobeEvents, Event.allowed, Event.dirAfter, hd]

/-- Settles O39: at the port it is not admitted; in the sequencer it runs through its events, which write `E` alone. -/
theorem strobeCompletes : Obligations.StrobeCompletes := by
  refine fun s => ⟨fun hidle => exec_idle_refused .strobe s .bareStrobe hidle rfl, fun hs hd hio hg => ⟨?_, ?_⟩⟩
  · rw [exec_busy .strobe s 0 nofun hs, performAt_reliable (e := .dly .strobe) rfl hio rfl]
    rfl
  · exact execThenRun_sequenced (op := .strobe) (es := strobeEvents) nofun rfl hs (by decide) hio hg (allAllowed_strobeEvents hd)

end Sys2Proof.Safety
end

section
/-! PROOFS. Family 41_byte_writes.md, O8, O32, O33 and O43: the arithmetic of a byte, the two byte writes from their word to their end, and what the
controller latches of them (R79, R85 to R88, R91, R117). -/

namespace Sys2Proof.Safety

open Sys2Proof.Machine

/-! ### Bytes and nibbles (R88, R120) -/

theorem toNat_trunc8 (v : Nat) : (trunc8 v).toNat = v % 256 := BitVec.toNat_ofNat v 8

theorem trunc8_mod (v : Nat) : trunc8 (v % 256) = trunc8 v :=
  BitVec.eq_of_toNat_eq (by rw [toNat_trunc8, toNat_trunc8, Nat.mod_mod])

/-- A command's bits above the low 8 count for nothing (R51, R88). -/
theorem lcdCommand_mod (m : Level) (v : Nat) : lcdCommand m (v % 256) = lcdCommand m v := by
  rw [lcdCommand, trunc8_mod, lcdCommand]

theorem toNat_hiNibble (b : Byte) : (hiNibble b).toNat = b.toNat / 16 := by
  have hb : b.toNat < 256 := b.isLt
  rw [hiNibble, BitVec.extractLsb'_toNat, Nat.shiftRight_eq_div_pow]
  omega

theorem toNat_loNibble (b : Byte) : (loNibble b).toNat = b.toNat % 16 := BitVec.extractLsb'_toNat 0 4 b

/-- A nibble is the sum of its four bits, weighted, over the 16 nibbles (R120). -/
theorem toNat_nibble (n : Nibble) :
    n.toNat = (levelBit (nibbleLevel n 0)).toNat + 2 * (levelBit (nibbleLevel n 1)).toNat +
      4 * (levelBit (nibbleLevel n 2)).toNat + 8 * (levelBit (nibbleLevel n 3)).toNat := by
  revert n
  decide

/-- Settles O8: the command itself is that of the value mod 256, so its events are. -/
theorem byteAndNibbleArithmetic : Obligations.ByteAndNibbleArithmetic := by
  have hmod : ∀ (m : Level) (v : Nat), sendEvents (lcdCommand m v) = sendEvents (lcdCommand m (v % 256)) :=
    fun m v => by rw [lcdCommand_mod]
  exact ⟨toNat_trunc8, hmod, fun m => hmod m 0x141, fun b => ⟨toNat_hiNibble b, toNat_loNibble b⟩, toNat_nibble⟩

/-! ### An operation that begins with one byte, at acceptance or where it stands (R85, R91) -/

/-- A command that needs an initialised block, at its acceptance in READY (R16, R56). -/
theorem atEvent_accepted {i : Instr} {s : State} (hidle : Idle s) (hp : s.phase = .ready)
    (hi : (∃ b, i = .wri b) ∨ (∃ b, i = .wrc b) ∨ (∃ l x, i = .showline l x) ∨ i = .clear) : AtEvent i 0 s :=
  .inr ⟨hidle, rfl, .inr ⟨hp, hi⟩⟩

/-- Sending a byte needs all pins to be outputs and leaves them so. -/
theorem allAllowed_sendEvents_append (c : LcdCommand) (rest : List Event) :
    allAllowed (.all .output) (sendEvents c ++ rest) = allAllowed (.all .output) rest := rfl

section
variable {op : Instr} {c : LcdCommand} {rest : List Event} {s : State} (hop : op ≠ .shutdown)
  (hevents : eventsOf s.params s.phase op = sendEvents c ++ rest) (hat : AtEvent op 0 s) (hd : s.dir = PinFile.all .output)
  (hio : IoReliable s)
include hop hevents hat hd hio

/-- The first event drives `RS` to the byte's mode (R85). -/
theorem exec_firstByte :
    exec op s = .next
      { s with
        out := { s.out with rs := some c.mode }
        seq := .busy op 1
        trace := ⟨.wr .rs c.mode, none⟩ :: s.trace } := by
  have hallowed : (Event.wr .rs c.mode).allowed s.dir = true := by rw [hd]; rfl
  rw [exec_atEvent hop hat, hevents, performAt_reliable (e := .wr .rs c.mode) rfl hio hallowed,
    State.advance_more _ _ _ (by rw [List.length_append, length_sendEvents]; omega)]
  rfl

/-- The byte, and what follows it where all pins are outputs. -/
theorem execThenRun_firstByte (hg : IrqAtBoundary s) (hrest : allAllowed (.all .output) rest = true) :
    execThenRun op (12 + rest.length) s = .next (finished s (sendEvents c ++ rest) (12 + rest.length) (endsIn op)) := by
  have hlength : (sendEvents c ++ rest).length - 1 = 12 + rest.length := by
    rw [List.length_append, length_sendEvents]
    omega
  have hallowed : allAllowed s.dir (sendEvents c ++ rest) = true := by rwa [hd, allAllowed_sendEvents_append]
  rw [← hlength]
  exact execThenRun_of_first hop hevents (hevents ▸ exec_atEvent hop hat) (by omega) hio hg hallowed

end

/-- One byte sent to its end: R91's events, and R85's pins. -/
theorem finished_sendEvents (s : State) (c : LcdCommand) (m : Nat) :
    finished s (sendEvents c) m samePhase = ended s (byteTrace c.mode c.value) m s.dir (pinsAfterByte c) s.phase := rfl

/-! ### `WRI` and `WRC` -/

/-- What needs an initialised block is not admitted outside READY (R16, R103). -/
theorem admitInReady_refuses {ph : Phase} (h : ph ≠ .ready) : ∃ r, admitInReady ph = some r := by
  cases ph with
  | ready => exact absurd rfl h
  | uninit | down | faulted => exact ⟨_, rfl⟩

section
variable {op : Instr} {c : LcdCommand} {s : State} (hidle : Idle s)
include hidle

theorem exec_refused_outside_ready (hadmission : admission s.params s.phase op = admitInReady s.phase) (hp : s.phase ≠ .ready) :
    ∃ r, exec op s = .refused r := by
  obtain ⟨r, hr⟩ := admitInReady_refuses hp
  exact ⟨r, exec_idle_refused op s r hidle (hadmission.trans hr)⟩

/-- `WRI` and `WRC` in READY: acceptance drives `RS`, and 12 steps later the byte is sent (R85, R91). -/
theorem byteWrite_completes (hwrite : op = .wri c.value ∧ c.mode = .low ∨ op = .wrc c.value ∧ c.mode = .high) (hp : s.phase = .ready)
    (hd : s.dir = PinFile.all .output) (hio : IoReliable s) (hg : IrqAtBoundary s) :
    exec op s = .next
      { s with
        out := { s.out with rs := some c.mode }
        seq := .busy op 1
        trace := ⟨.wr .rs c.mode, none⟩ :: s.trace } ∧
    execThenRun op 12 s = .next (ended s (byteTrace c.mode c.value) 12 s.dir (pinsAfterByte c) .ready) := by
  obtain ⟨mode, b⟩ := c
  obtain ⟨hop, hevents, hends, hat⟩ : op ≠ .shutdown ∧ eventsOf s.params s.phase op = sendEvents ⟨mode, b⟩ ++ [] ∧
      endsIn op = samePhase ∧ AtEvent op 0 s := by
    rcases hwrite with ⟨rfl, rfl⟩ | ⟨rfl, rfl⟩
    · exact ⟨nofun, rfl, rfl, atEvent_accepted hidle hp (.inl ⟨b, rfl⟩)⟩
    · exact ⟨nofun, rfl, rfl, atEvent_accepted hidle hp (.inr (.inl ⟨b, rfl⟩))⟩
  have hrun := execThenRun_firstByte hop hevents hat hd hio hg rfl
  rw [List.append_nil, hends, finished_sendEvents, hp] at hrun
  exact ⟨exec_firstByte hop hevents hat hd hio, hrun⟩

end

/-- Settles O32: the row of `WRI`, and the byte `b` sent with `RS` LOW. -/
theorem wriCompletes : Obligations.WriCompletes := fun b _ =>
  ⟨(HostRow.wri b).decodes, fun hidle => exec_refused_outside_ready hidle rfl,
    fun hp hd hidle => byteWrite_completes (c := ⟨.low, b⟩) hidle (.inl ⟨rfl, rfl⟩) hp hd⟩

/-- Settles O33: the row of `WRC`, and the byte `b` sent with `RS` HIGH. -/
theorem wrcCompletes : Obligations.WrcCompletes := fun b _ =>
  ⟨(HostRow.wrc b).decodes, fun hidle => exec_refused_outside_ready hidle rfl,
    fun hp hd hidle => byteWrite_completes (c := ⟨.high, b⟩) hidle (.inr ⟨rfl, rfl⟩) hp hd⟩

/-! ### What the controller latches of a byte (R79) -/

/-- A nibble write has one falling edge of `E`, which finds the nibble on the data lines and `RS` as it stands (R76, R79). -/
theorem latchedFrom_nibEvents {l : PinFile (Option Level)} {m : Level} (n : Nibble) (hrs : l.rs = some m) :
    latchedFrom l ((nibEvents n).map fun e => ⟨e, none⟩) = [transfer m n] := by
  rw [← busWord_nibble n m (some .high), ← hrs]
  rfl

/-- A byte is latched as its two nibbles at its mode, whatever the lines were: it writes `RS` and the data lines, and raises `E`, itself. -/
theorem latchedFrom_sendEvents (l : PinFile (Option Level)) (c : LcdCommand) :
    latchedFrom l ((sendEvents c).map fun e => ⟨e, none⟩) = byteTransfers c.mode c.value := by
  have hmode : latchedFrom l ((sendEvents c).map fun e => ⟨e, none⟩) =
      latchedFrom (l.set .rs (some c.mode)) ((nibEvents (hiNibble c.value) ++ nibEvents (loNibble c.value)).map fun e => ⟨e, none⟩) := rfl
  rw [hmode, List.map_append, latchedFrom_append, latchedFrom_nibEvents (m := c.mode) _ rfl, latchedFrom_nibEvents (m := c.mode) _ rfl]
  rfl

/-- Settles O43: each of the three sends one byte, and after `CLEAR`'s there is a delay, which latches nothing. -/
theorem byteWritesLatch : Obligations.ByteWritesLatch := by
  intro i n mode b s hi hready hidle _ hio hg
  obtain ⟨hp, hd, -⟩ := hready
  obtain ⟨rest, hop, hevents, hat, rfl, hrest, hlatches⟩ : ∃ rest, i ≠ .shutdown ∧
      eventsOf s.params s.phase i = sendEvents ⟨mode, b⟩ ++ rest ∧ AtEvent i 0 s ∧ n = 12 + rest.length ∧
      allAllowed (.all .output) rest = true ∧ ∀ l, latchedFrom l (rest.map fun e => ⟨e, none⟩) = [] := by
    rcases hi with ⟨rfl, rfl, rfl⟩ | ⟨rfl, rfl, rfl⟩ | ⟨rfl, rfl, rfl, rfl⟩
    · exact ⟨[], nofun, rfl, atEvent_accepted hidle hp (.inl ⟨b, rfl⟩), rfl, rfl, fun _ => rfl⟩
    · exact ⟨[], nofun, rfl, atEvent_accepted hidle hp (.inr (.inl ⟨b, rfl⟩)), rfl, rfl, fun _ => rfl⟩
    · exact ⟨[.dly .settle], nofun, rfl, atEvent_accepted hidle hp (.inr (.inr (.inr rfl))), rfl, rfl, fun _ => rfl⟩
  refine ⟨_, execThenRun_firstByte hop hevents hat hd hio hg hrest, rfl, ?_⟩
  rw [finished, latched_ended, List.map_append, latchedFrom_append, latchedFrom_sendEvents, hlatches, List.append_nil]

end Sys2Proof.Safety
end

section
/-! PROOFS. Family 42 (`INIT`), O31 and O44: `INIT` from acceptance to its end, and what the controller latches of it (R95 to R106). -/

namespace Sys2Proof.Safety

open Sys2Proof.Machine

/-! ### The pins after `INIT` (R96, R102) -/

/-- Every event of a clean sequence finds its precondition met, and all pins are outputs after it. -/
theorem allAllowed_and_dirAfterAll_of_clean {es : List Event} :
    ∀ {d : PinFile Dir} {l : Option Level}, cleanFrom d l es = true → allAllowed d es = true ∧ dirAfterAll es d = .all .output := by
  induction es with
  | nil =>
    intro d l h
    obtain ⟨hd, -⟩ : d = PinFile.all .output ∧ l = some .low := by simpa [cleanFrom] using h
    exact ⟨rfl, hd⟩
  | cons e es ih =>
    intro d l h
    obtain ⟨hallowed, hrest, -⟩ := clean_cons h
    obtain ⟨hall, hdir⟩ := ih hrest
    exact ⟨by rw [allAllowed, hallowed, hall]; rfl, hdir⟩

/-- The last operation of `INIT` is one byte write, which writes all six pins (R100, R102). -/
theorem outAfterAll_initEvents (P : Params) (o : PinFile (Option Level)) :
    outAfterAll (initEvents P) o = pinsAfterByte ⟨.low, P.iDisplayOn⟩ := rfl

/-- The sequence of `INIT`, event by event (R106). -/
theorem initEvents_eq_initTrace (P : Params) : initEvents P = initTrace P := rfl

/-! ### From acceptance to READY -/

section
variable {s : State} (hfresh : Fresh s) (hidle : Idle s) (hpins : s.params.pinsDistinct = true)
include hfresh hidle hpins

/-- `INIT` at its acceptance (R16, R95). -/
theorem atEvent_init : AtEvent .init 0 s := by
  obtain ⟨hp, -, -⟩ := hfresh
  exact .inr ⟨hidle, rfl, .inl ⟨rfl, hp, hpins⟩⟩

variable (hio : IoReliable s)
include hio

/-- The first event claims `PIN_D[0]` and leaves it LOW (R96). -/
theorem exec_init_first :
    exec .init s = .next
      { s with
        dir := { s.dir with d0 := .output }
        out := { s.out with d0 := some .low }
        seq := .busy .init 1
        trace := ⟨.cfg .d0, none⟩ :: s.trace } := by
  have hat := atEvent_init hfresh hidle hpins
  obtain ⟨-, hd, -⟩ := hfresh
  have hallowed : (Event.cfg .d0).allowed s.dir = true := by rw [hd]; rfl
  rw [exec_atEvent (i := .init) nofun hat, performAt_reliable (e := .cfg .d0) rfl hio hallowed,
    State.advance_more _ _ _ (by simp [eventsOf, length_initEvents])]
  rfl

/-- 97 steps after its acceptance `INIT` has ended in READY (R102). -/
theorem execThenRun_init (hg : IrqAtBoundary s) :
    execThenRun .init 97 s = .next
      (ended s (initTrace s.params) 97 (PinFile.all .output) (pinsAfterByte ⟨.low, s.params.iDisplayOn⟩) .ready) := by
  have hat := atEvent_init hfresh hidle hpins
  obtain ⟨-, hd, -⟩ := hfresh
  obtain ⟨hallowed, hdir⟩ := allAllowed_and_dirAfterAll_of_clean (clean_initEvents s.params)
  rw [← hd] at hallowed hdir
  have hrun := execThenRun_of_first (op := .init) (es := initEvents s.params) nofun rfl
    (exec_atEvent (i := .init) nofun hat) (by simp [length_initEvents]) hio hg hallowed
  rwa [finished, hdir, outAfterAll_initEvents, length_initEvents, initEvents_eq_initTrace] at hrun

end

/-- Settles O31: `INIT` is admitted in UNINIT, and its sequence is clean from unclaimed pins. -/
theorem initCompletes : Obligations.InitCompletes := fun _ hfresh hidle hpins hio hg =>
  ⟨exec_init_first hfresh hidle hpins hio, execThenRun_init hfresh hidle hpins hio hg⟩

/-! ### What the controller latches of `INIT` (R79, R98, R105) -/

/-- Performed from whatever lines, the events add these words to the latched sequence. -/
def Latches (es : List Event) (words : List (Option (BitVec 5))) : Prop :=
  ∀ l, latchedFrom l (es.map fun e => ⟨e, none⟩) = words

theorem Latches.append {a b : List Event} {v w : List (Option (BitVec 5))} (ha : Latches a v) (hb : Latches b w) :
    Latches (a ++ b) (v ++ w) := fun l => by rw [List.map_append, latchedFrom_append, ha, hb]

theorem latches_sendEvents (c : LcdCommand) : Latches (sendEvents c) (byteTransfers c.mode c.value) :=
  fun l => latchedFrom_sendEvents l c

theorem latches_dly (d : Delay) : Latches [.dly d] [] := fun _ => rfl

theorem latches_configureEvents : Latches configureEvents [] := fun _ => rfl

theorem linesThrough_nibEvents_rs (n : Nibble) (l : PinFile (Option Level)) :
    (linesThrough l ((nibEvents n).map fun e => ⟨e, none⟩)).rs = l.rs := rfl

/-- Nibbles that follow one another are latched in order, with `RS` as it stands (R76, R79). -/
theorem latchedFrom_nibbles {m : Level} (ns : List Nibble) :
    ∀ {l : PinFile (Option Level)}, l.rs = some m →
      latchedFrom l ((ns.flatMap nibEvents).map fun e => ⟨e, none⟩) = ns.map (transfer m) := by
  induction ns with
  | nil => exact fun _ => rfl
  | cons n ns ih =>
    intro l hrs
    rw [List.flatMap_cons, List.map_append, latchedFrom_append, latchedFrom_nibEvents n hrs,
      ih ((linesThrough_nibEvents_rs n l).trans hrs)]
    rfl

/-- The handshake writes `RS` LOW itself, so its four nibbles are latched with it whatever came before (R98). -/
theorem latches_handshakeEvents : Latches handshakeEvents [some 0x03#5, some 0x03#5, some 0x03#5, some 0x02#5] := fun l =>
  latchedFrom_nibbles (l := l.set .rs (some .low)) (m := .low) [0x3#4, 0x3#4, 0x3#4, 0x2#4] rfl

/-- Five bytes, the settle delay after the third (R100). -/
theorem latches_configurationEvents (P : Params) :
    Latches (configurationEvents P)
      (byteTransfers .low P.iFunctionSet ++ (byteTransfers .low P.iDisplayOff ++ ((byteTransfers .low P.iClear ++ []) ++
        (byteTransfers .low P.iEntryMode ++ byteTransfers .low P.iDisplayOn)))) :=
  (latches_sendEvents _).append ((latches_sendEvents _).append (((latches_sendEvents _).append (latches_dly _)).append
    ((latches_sendEvents _).append (latches_sendEvents _))))

theorem latches_initEvents (P : Params) :
    Latches (initEvents P)
      ([some 0x03#5, some 0x03#5, some 0x03#5, some 0x02#5] ++ byteTransfers .low P.iFunctionSet ++
        byteTransfers .low P.iDisplayOff ++ byteTransfers .low P.iClear ++ byteTransfers .low P.iEntryMode ++
        byteTransfers .low P.iDisplayOn) := by
  have hinit : Latches (initEvents P) _ := latches_configureEvents.append
    ((latches_dly .pwr).append (latches_handshakeEvents.append (latches_configurationEvents P)))
  simpa only [List.append_assoc, List.nil_append] using hinit

/-- Settles O44: the run of O31, with the walk over its events. -/
theorem initLatches : Obligations.InitLatches := by
  intro s hfresh hidle hpins htrace hio hg
  refine ⟨_, execThenRun_init hfresh hidle hpins hio hg, rfl, ?_⟩
  have hbefore : s.latched = [] := by rw [State.latched, State.history, htrace]; rfl
  rw [latched_ended, hbefore, List.nil_append, ← initEvents_eq_initTrace, latches_initEvents]

end Sys2Proof.Safety
end

section
/-! PROOFS. Family 42 (`INIT`), O40, O42 and O27: the bus words of the handshake and of the clear as operations of the sequencer (R98, R100),
and which phase admits which command (R103). -/

namespace Sys2Proof.Safety

open Sys2Proof.Machine

/-! ### One nibble as an operation (R76, R98) -/

theorem length_nibEvents (n : Nibble) : (nibEvents n).length = 6 := rfl

theorem allAllowed_nibEvents (n : Nibble) : allAllowed (.all .output) (nibEvents n) = true := rfl

/-- One nibble sent to its end: the data lines hold it, `E` is LOW, and `RS` is as before. -/
theorem finished_nibEvents (s : State) (n : Nibble) (m : Nat) :
    finished s (nibEvents n) m samePhase =
      ended s (nibbleTrace n) m s.dir
        { s.out with
          d0 := some (nibbleLevel n 0), d1 := some (nibbleLevel n 1), d2 := some (nibbleLevel n 2), d3 := some (nibbleLevel n 3)
          e := some .low } s.phase := rfl

/-- The first event presents the nibble on the data lines (R74). -/
theorem exec_sendsNibble_first {op : Instr} {n : Nibble} {s : State} (hevents : eventsOf s.params s.phase op = nibEvents n)
    (hop : op ≠ .shutdown) (hs : s.seq = .busy op 0) (hd : s.dir = PinFile.all .output) (hio : IoReliable s) :
    exec op s = .next
      { s with
        out := (Event.data n).outAfter s.out
        seq := .busy op 1
        trace := ⟨.data n, none⟩ :: s.trace } := by
  have hallowed : (Event.data n).allowed s.dir = true := by rw [hd]; rfl
  rw [exec_busy op s 0 hop hs, hevents, performAt_reliable (e := .data n) rfl hio hallowed,
    State.advance_more _ _ _ (by simp [length_nibEvents])]
  rfl

/-- Settles O40: both words are the operations whose events send one nibble. -/
theorem handshakeWordsComplete : Obligations.HandshakeWordsComplete := by
  intro i n s hi hs hd hio hg
  obtain ⟨hop, hevents, hends⟩ : i ≠ .shutdown ∧ eventsOf s.params s.phase i = nibEvents n ∧ endsIn i = samePhase := by
    rcases hi with ⟨rfl, rfl⟩ | ⟨rfl, rfl⟩ <;> exact ⟨nofun, rfl, rfl⟩
  have hallowed : allAllowed s.dir (nibEvents n) = true := by rw [hd, allAllowed_nibEvents]
  have hrun := execThenRun_sequenced hop hevents hs (by simp [length_nibEvents]) hio hg hallowed
  rw [hends, finished_nibEvents] at hrun
  exact ⟨exec_sendsNibble_first hevents hop hs hd hio, hrun⟩

/-! ### The clear (R100, R117) -/

/-- One byte and the settle delay, to their end: the delay leaves the pins as the byte left them. -/
theorem finished_sendEvents_settle (s : State) (c : LcdCommand) (m : Nat) :
    finished s (sendEvents c ++ [.dly .settle]) m samePhase =
      ended s (byteTrace c.mode c.value ++ [.dly .settle]) m s.dir (pinsAfterByte c) s.phase := rfl

/-- Settles O42: the operation begins with the byte `I_CLEAR`, and the delay needs no pin. -/
theorem clearDisplayCompletes : Obligations.ClearDisplayCompletes := by
  intro s hs hd hio hg
  have hevents : eventsOf s.params s.phase .clearDisplay = sendEvents ⟨.low, s.params.iClear⟩ ++ [.dly .settle] := rfl
  have hrun := execThenRun_firstByte (op := .clearDisplay) nofun hevents (.inl hs) hd hio hg rfl
  exact ⟨exec_firstByte (op := .clearDisplay) nofun hevents (.inl hs) hd hio,
    hrun.trans (congrArg _ (finished_sendEvents_settle s _ _))⟩

/-! ### Admission by phase (R16, R103) -/

/-- The writing commands are admitted alike. -/
theorem admission_writing {P : Params} {ph : Phase} {i : Instr}
    (hi : (∃ b, i = .wri b) ∨ (∃ b, i = .wrc b) ∨ (∃ l x, i = .showline l x) ∨ i = .clear) : admission P ph i = admitInReady ph := by
  rcases hi with ⟨b, rfl⟩ | ⟨b, rfl⟩ | ⟨l, x, rfl⟩ | rfl <;> rfl

/-- The cleanup is not refused where the event it performs next finds its precondition met (R126, R170). -/
theorem cleanupAt_answers_of_allowed {k : Nat} {s : State}
    (hallowed : ∀ e,
      (shutdownEvents s.params s.phase)[k + unclaimedReleases s.dir ((shutdownEvents s.params s.phase).drop k)]? = some e →
        e.allowed s.dir = true) : ∃ t, cleanupAt k s = .next t := by
  unfold cleanupAt
  dsimp only
  split
  · exact ⟨_, rfl⟩
  · next e he =>
    split
    · exact ⟨_, rfl⟩
    · exact ⟨_, rfl⟩
    · next r hr => exact absurd hr (performEvent_not_refused e s r (hallowed e he))

/-- In UNINIT the cleanup is releases only, and it leaves out those of pins that are not claimed (R126, R127). -/
theorem cleanupAt_uninit_answers {k : Nat} {s : State} (hp : s.phase = .uninit) : ∃ t, cleanupAt k s = .next t := by
  refine cleanupAt_answers_of_allowed fun e he => ?_
  rcases shutdownEvents_get he with ⟨-, hmem⟩ | ⟨-, p, rfl⟩
  · simp [hp, cleanupClearEvents] at hmem
  · rw [← List.getElem?_drop] at he
    simpa [Event.allowed] using unclaimedReleases_stop _ _ _ he p rfl

/-- Settles O27: what is not admitted is refused by its phase's name. -/
theorem admissionByPhase : Obligations.AdmissionByPhase := by
  intro s hidle
  have refused {i : Instr} {ph : Phase} {r : Refusal} (hadmission : admission s.params ph i = some r) (hp : s.phase = ph) :
      exec i s = .refused r := exec_idle_refused i s r hidle (hp ▸ hadmission)
  refine ⟨fun i hi => ?_, refused rfl, fun hp => ⟨refused rfl hp, refused rfl hp⟩, fun hp => ⟨refused rfl hp, refused rfl hp⟩,
    fun hp => ?_⟩
  · exact ⟨refused (admission_writing hi), refused (admission_writing hi), refused (admission_writing hi)⟩
  · rw [exec_shutdown_accepted hidle (.inl hp)]
    exact cleanupAt_uninit_answers hp

end Sys2Proof.Safety
end

section
/-! PROOFS. Family 43_render.md, O7 and O6: the operands of `SHOWLINE`: the text fitted to a line (R110) and the two lines (R111). -/

namespace Sys2Proof.Safety

open Sys2Proof.Machine

/-! ### The fitted text (R110) -/

/-- A text that just fills the line needs no padding, so padding covers it too (R114). -/
theorem fit16_padded {t : Text} (h : t.length ≤ 16) : fit16 t = t ++ List.replicate (16 - t.length) Config.padChar := by
  rcases h.lt_or_eq with hlt | heq
  · exact fit16_short hlt
  · rw [fit16_long heq.ge, ← heq, List.take_length, Nat.sub_self, List.replicate_zero, List.append_nil]

theorem fit16_fit16 (t : Text) : fit16 (fit16 t) = fit16 t := by
  rw [fit16_long (fit16_length t).ge, List.take_of_length_le (fit16_length t).le]

/-- A text of any length keeps its bytes in the line's cells that it reaches. -/
theorem fit16_getElem?_text {t : Text} {i : Nat} (ht : i < t.length) (hi : i < 16) : (fit16 t)[i]? = t[i]? := by
  by_cases h : 16 ≤ t.length
  · rw [fit16_long h, List.getElem?_take_of_lt hi]
  · rw [fit16_short (Nat.not_le.1 h), List.getElem?_append_left ht]

/-- The line's cells behind the text show the pad byte. -/
theorem fit16_getElem?_pad {t : Text} {i : Nat} (ht : t.length ≤ i) (hi : i < 16) : (fit16 t)[i]? = some Config.padChar := by
  rw [fit16_short (ht.trans_lt hi), List.getElem?_append_right ht, List.getElem?_replicate_of_lt (by omega)]

/-- Settles O7: the two cases of `fit16`, and what each cell of the line holds. -/
theorem fit16PadsOrTruncates : Obligations.Fit16PadsOrTruncates := fun t =>
  ⟨fit16_long, fit16_short, fit16_length t, fit16_fit16 t,
    fun _ hi => fit16_getElem?_text (hi.trans_le (Nat.min_le_left _ _)) (hi.trans_le (Nat.min_le_right _ _)),
    fun _ => fit16_getElem?_pad⟩

/-! ### The two lines (R111) -/

theorem line_eq_line1_or_line2 (l : Line) : l = .line1 ∨ l = .line2 := by
  cases l with
  | line1 => exact .inl rfl
  | line2 => exact .inr rfl

/-- Settles O6: the bases are R5's constants. -/
theorem lineBases : Obligations.LineBases := ⟨rfl, rfl, rfl, rfl, nofun, line_eq_line1_or_line2⟩

end Sys2Proof.Safety
end

section
/-! PROOFS. Family 43_render.md, O34, O35, O45 and O46: `SHOWLINE` and `CLEAR` from acceptance to their end, and what the controller latches of a
line (R112 to R121). -/

namespace Sys2Proof.Safety

open Sys2Proof.Machine

/-! ### The characters of a line (R112, R121) -/

/-- Of a row of characters the pins show the last, whatever they were before: each character writes all six. -/
theorem outAfterAll_characters {x : Text} (hx : x ≠ []) (o : PinFile (Option Level)) :
    outAfterAll (x.flatMap wrcEvents) o = pinsAfterByte ⟨.high, x.getLast hx⟩ := by
  have hlast : x.flatMap wrcEvents = x.dropLast.flatMap wrcEvents ++ wrcEvents (x.getLast hx) := by
    conv_lhs => rw [← List.dropLast_concat_getLast hx, List.flatMap_append, List.flatMap_singleton]
  rw [hlast, outAfterAll, List.foldl_append]
  exact outAfterAll_sendEvents ⟨.high, x.getLast hx⟩ _

/-- A line leaves its sixteenth character on the pins (R121). -/
theorem outAfterAll_showlineEvents (line : Line) (text : Text) (o : PinFile (Option Level)) :
    outAfterAll (showlineEvents line text) o = pinsAfterByte ⟨.high, (fit16 text).getD 15 0#8⟩ := by
  have hlength := fit16_length text
  have hne : fit16 text ≠ [] := List.ne_nil_of_length_pos (by omega)
  have hlast : (fit16 text).getLast hne = (fit16 text).getD 15 0#8 := by
    rw [List.getLast_eq_getElem, List.getD_eq_getElem _ _ (by omega)]
    simp only [hlength]
  rw [← hlast, showlineEvents, outAfterAll, List.foldl_append]
  exact outAfterAll_characters hne _

/-- Characters are latched in order with `RS` HIGH (R79, R112). -/
theorem latches_characters (x : Text) : Latches (x.flatMap wrcEvents) (x.flatMap (byteTransfers .high)) := by
  induction x with
  | nil => exact fun _ => rfl
  | cons c x ih => exact (latches_sendEvents ⟨.high, c⟩).append ih

theorem latches_showlineEvents (line : Line) (text : Text) :
    Latches (showlineEvents line text) (byteTransfers .low (lineBase line) ++ (fit16 text).flatMap (byteTransfers .high)) :=
  (latches_sendEvents ⟨.low, lineBase line⟩).append (latches_characters (fit16 text))

/-- A line's sequence, event by event (R121). -/
theorem showlineEvents_eq_showlineTrace (line : Line) (text : Text) : showlineEvents line text = showlineTrace (lineBase line) text := rfl

/-! ### From acceptance to the end -/

/-- `SHOWLINE` at its acceptance (R16, R112). -/
theorem atEvent_showline {s : State} (hidle : Idle s) (hp : s.phase = .ready) (line : Line) (text : Text) :
    AtEvent (.showline line text) 0 s := atEvent_accepted hidle hp (.inr (.inr (.inl ⟨line, text, rfl⟩)))

section
variable {s : State} (hp : s.phase = .ready) (hd : s.dir = PinFile.all .output) (hidle : Idle s) (hio : IoReliable s)
include hp hd hidle hio

/-- `SHOWLINE` begins with the line's base as an instruction: `RS` LOW (R112). -/
theorem exec_showline_first (line : Line) (text : Text) :
    exec (.showline line text) s = .next
      { s with
        out := { s.out with rs := some .low }
        seq := .busy (.showline line text) 1
        trace := ⟨.wr .rs .low, none⟩ :: s.trace } :=
  exec_firstByte (op := .showline line text) (c := ⟨.low, lineBase line⟩) nofun (showlineEvents_eq_sendEvents line text)
    (atEvent_showline hidle hp line text) hd hio

/-- 220 steps after its acceptance `SHOWLINE` has sent the base and the 16 characters (R115, R121). -/
theorem execThenRun_showline (hg : IrqAtBoundary s) (line : Line) (text : Text) :
    execThenRun (.showline line text) 220 s = .next
      (ended s (showlineTrace (lineBase line) text) 220 s.dir (pinsAfterByte ⟨.high, (fit16 text).getD 15 0#8⟩) .ready) := by
  obtain ⟨hallowed, hdir⟩ := allAllowed_and_dirAfterAll_of_clean
    (clean_hostOperation s.params s.phase (.showline line text) rfl nofun nofun)
  rw [← hd] at hallowed hdir
  have hrun := execThenRun_of_first (op := .showline line text) (es := showlineEvents line text) nofun rfl
    (exec_atEvent (i := .showline line text) nofun (atEvent_showline hidle hp line text)) (by simp [length_showlineEvents]) hio hg hallowed
  rw [eventsOf] at hdir
  rwa [finished, hdir, outAfterAll_showlineEvents, length_showlineEvents, showlineEvents_eq_showlineTrace,
    show endsIn (.showline line text) s.phase = .ready from hp] at hrun

end

/-- Settles O34: both lines, with R111's bases. -/
theorem showlineCompletes : Obligations.ShowlineCompletes := by
  intro line text s hp hd hidle hio hg
  refine ⟨exec_showline_first hp hd hidle hio line text, ?_⟩
  cases line with
  | line1 => exact execThenRun_showline hp hd hidle hio hg .line1 text
  | line2 => exact execThenRun_showline hp hd hidle hio hg .line2 text

/-- Settles O35: `CLEAR` is the byte `I_CLEAR`, and a delay that leaves the pins as the byte left them. -/
theorem clearCompletes : Obligations.ClearCompletes := by
  intro s hp hd hidle hio hg
  have hat : AtEvent .clear 0 s := atEvent_accepted hidle hp (.inr (.inr (.inr rfl)))
  have hevents : eventsOf s.params s.phase .clear = sendEvents ⟨.low, s.params.iClear⟩ ++ [.dly .settle] := rfl
  have hrun := execThenRun_firstByte (op := .clear) nofun hevents hat hd hio hg rfl
  rw [show endsIn .clear = samePhase from rfl, finished_sendEvents_settle, hp] at hrun
  exact ⟨exec_firstByte (op := .clear) nofun hevents hat hd hio, hrun⟩

/-! ### What the controller latches, and what the rendering depends on (R113, R114) -/

/-- Settles O45: the run of O34 with the walk over its events; the 16 characters are the fitted text. -/
theorem showlineLatchesSixteen : Obligations.ShowlineLatchesSixteen := by
  intro line text s hready hidle _ hio hg
  obtain ⟨hp, hd, -⟩ := hready
  refine ⟨_, fit16 text, execThenRun_showline hp hd hidle hio hg line text, rfl, fit16_length text, fit16_padded,
    fun hlong => fit16_long hlong.le, ?_⟩
  rw [latched_ended, ← showlineEvents_eq_showlineTrace, latches_showlineEvents, List.append_assoc]

/-- Settles O46: the events and the latches that O34's run ends with are told by the line and the text alone. -/
theorem showlineHasNoHiddenState : Obligations.ShowlineHasNoHiddenState := by
  rintro line text s1 s2 ⟨hp1, hd1, hidle1, hio1, hg1⟩ ⟨hp2, hd2, hidle2, hio2, hg2⟩
  exact ⟨_, _, _, execThenRun_showline hp1 hd1 hidle1 hio1 hg1 line text, execThenRun_showline hp2 hd2 hidle2 hio2 hg2 line text,
    rfl, rfl, rfl⟩

end Sys2Proof.Safety
end

section
/-! PROOFS. Family 44_system.md, the rules its proofs share: the events the cleanup performs and those it leaves out (R126), and what one step of it
is, from acceptance or from where it stands (R126, R127, R170). -/

namespace Sys2Proof.Safety

open Sys2Proof.Machine

/-! ### The releases that are left out (R126) -/

/-- The walk over unclaimed releases is as long as the run of them. -/
theorem unclaimedReleases_eq {dir : PinFile Dir} {es : List Event} {n : Nat}
    (hskip : ∀ j < n, ∃ q, es[j]? = some (.rel q) ∧ dir.get q = .unconfigured)
    (hstop : ∀ q, es[n]? = some (.rel q) → dir.get q = .output) : unclaimedReleases dir es = n := by
  rcases Nat.lt_trichotomy (unclaimedReleases dir es) n with hlt | heq | hgt
  · obtain ⟨q, hq, hfree⟩ := hskip _ hlt
    have hclaimed := unclaimedReleases_stop dir es _ hq q rfl
    simp [hfree] at hclaimed
  · exact heq
  · obtain ⟨q, hq, hfree⟩ := unclaimedReleases_skipped dir es n hgt
    simp [hstop q hq] at hfree

/-- Before an event the cleanup performs, nothing is left out. -/
theorem unclaimedReleases_of_event {dir : PinFile Dir} {es : List Event} {k : Nat} {e : Event} (he : es[k]? = some e)
    (hclaimed : ∀ p, e = .rel p → dir.get p = .output) : unclaimedReleases dir (es.drop k) = 0 :=
  unclaimedReleases_eq (by simp) fun q hq => hclaimed q (by simpa [he] using hq)

@[simp] theorem cleanupTo_ioAnswers (s : State) (es : List Event) (k : Nat) : (s.cleanupTo es k).ioAnswers = s.ioAnswers := by
  rcases State.cleanupTo_cases s es k with ⟨-, heq⟩ | ⟨-, heq⟩ <;> rw [heq] <;> rfl

/-- Sent to a position, the cleanup stands before the next event it performs, or there is none and it has ended in DOWN; what lies between are
releases of pins that are not claimed. -/
theorem cleanupTo_stands (s : State) (es : List Event) (k : Nat) :
    ∃ j, k ≤ j ∧ (∀ i, k ≤ i → i < j → ∃ q, es[i]? = some (.rel q) ∧ s.dir.get q = .unconfigured) ∧
      ((∃ e, es[j]? = some e ∧ (∀ p, e = .rel p → s.dir.get p = .output) ∧ s.cleanupTo es k = s.setSeq (.busy .shutdown j)) ∨
        (es.length ≤ j ∧ s.cleanupTo es k = (s.setSeq .idle).setPhase .down)) := by
  refine ⟨k + unclaimedReleases s.dir (es.drop k), Nat.le_add_right _ _, fun i hki hi => ?_, ?_⟩
  · obtain ⟨q, hq, hfree⟩ := unclaimedReleases_skipped s.dir (es.drop k) (i - k) (by omega)
    exact ⟨q, by rwa [List.getElem?_drop, Nat.add_sub_cancel' hki] at hq, hfree⟩
  · rcases State.cleanupTo_cases s es k with ⟨hlt, heq⟩ | ⟨hend, heq⟩
    · refine .inl ⟨_, List.getElem?_eq_getElem hlt, fun p hp => ?_, heq⟩
      exact unclaimedReleases_stop s.dir (es.drop k) _ (by rw [List.getElem?_drop, List.getElem?_eq_getElem hlt]) p hp
    · exact .inr ⟨hend, heq⟩

theorem cleanupTo_of_event {s : State} {es : List Event} {k : Nat} {e : Event} (he : es[k]? = some e)
    (hclaimed : ∀ p, e = .rel p → s.dir.get p = .output) : s.cleanupTo es k = s.setSeq (.busy .shutdown k) := by
  simp [State.cleanupTo, unclaimedReleases_of_event he hclaimed, (List.getElem?_eq_some_iff.1 he).1]

/-! ### One step of the cleanup -/

/-- Where the cleanup at position `k` performs its next event: behind the releases it leaves out (R126). -/
def cleanupStop (k : Nat) (s : State) : Nat := k + unclaimedReleases s.dir ((shutdownEvents s.params s.phase).drop k)

theorem cleanupTo_of_stop {k : Nat} {s : State} {e : Event} (he : (shutdownEvents s.params s.phase)[cleanupStop k s]? = some e) :
    s.cleanupTo (shutdownEvents s.params s.phase) k = s.setSeq (.busy .shutdown (cleanupStop k s)) := by
  have hlt := (List.getElem?_eq_some_iff.1 he).1
  rw [cleanupStop] at *
  simp [State.cleanupTo, hlt]

theorem cleanupTo_of_end {k : Nat} {s : State} (hend : (shutdownEvents s.params s.phase).length ≤ cleanupStop k s) :
    s.cleanupTo (shutdownEvents s.params s.phase) k = (s.setSeq .idle).setPhase .down := by
  rw [cleanupStop] at hend
  simp [State.cleanupTo, Nat.not_lt.2 hend]

section
variable {k j : Nat} {s u : State} {e : Event} {p : Pin} (hj : cleanupStop k s = j)
include hj

theorem cleanupAt_done (he : (shutdownEvents s.params s.phase)[j]? = some e) (hu : performEvent e s = .done u) :
    cleanupAt k s = .next ((u.record e none).cleanupTo (shutdownEvents s.params s.phase) (j + 1)) := by
  subst hj
  rw [cleanupStop] at *
  simp [cleanupAt, he, hu]

theorem cleanupAt_failed (he : (shutdownEvents s.params s.phase)[j]? = some e) (hu : performEvent e s = .failed p u) :
    cleanupAt k s = .next ((u.record e (some p)).cleanupTo (shutdownEvents s.params s.phase)
      (cleanupResume (cleanupClearEvents s.params s.phase).length j)) := by
  subst hj
  rw [cleanupStop] at *
  simp [cleanupAt, he, hu]

theorem cleanupAt_end (hend : (shutdownEvents s.params s.phase).length ≤ j) :
    cleanupAt k s = .next ((s.setSeq .idle).setPhase .down) := by
  subst hj
  rw [cleanupStop] at hend
  simp [cleanupAt, List.getElem?_eq_none hend, cleanupTo_end s hend]

end

section
variable {k : Nat} {s u : State} {e : Event} {p : Pin} (h : CleanupAtEvent k s)
  (he : (shutdownEvents s.params s.phase)[k]? = some e) (hclaimed : ∀ p, e = .rel p → s.dir.get p = .output)
include h he hclaimed

/-- Standing before an event it performs, the cleanup is at a position from which it leaves out just the releases in between. -/
theorem CleanupAtEvent.exec_shutdown : ∃ k0, cleanupStop k0 s = k ∧ exec .shutdown s = cleanupAt k0 s := by
  obtain ⟨k0, hat, hle, hskip⟩ := h
  refine ⟨k0, ?_, ?_⟩
  · have hwalk : unclaimedReleases s.dir ((shutdownEvents s.params s.phase).drop k0) = k - k0 := by
      refine unclaimedReleases_eq (fun j hj => ?_) fun q hq => ?_
      · rw [List.getElem?_drop]
        exact hskip (k0 + j) (by omega) (by omega)
      · rw [List.getElem?_drop, Nat.add_sub_cancel' hle, he] at hq
        exact hclaimed q (by simpa using hq)
    rw [cleanupStop, hwalk, Nat.add_sub_cancel' hle]
  · rcases hat with hs | ⟨hs, rfl, hp⟩
    · exact exec_shutdown_inProgress hs
    · exact exec_shutdown_accepted hs hp

/-- The event succeeds: the cleanup goes on behind it. -/
theorem CleanupAtEvent.exec_shutdown_done (hu : performEvent e s = .done u) :
    exec .shutdown s = .next ((u.record e none).cleanupTo (shutdownEvents s.params s.phase) (k + 1)) := by
  obtain ⟨k0, hk0, hexec⟩ := h.exec_shutdown he hclaimed
  rw [hexec, cleanupAt_done hk0 he hu]

/-- The event fails: the failure is swallowed, and the cleanup goes on behind the clear or behind the release (R126, R170). -/
theorem CleanupAtEvent.exec_shutdown_failed (hu : performEvent e s = .failed p u) :
    exec .shutdown s = .next ((u.record e (some p)).cleanupTo (shutdownEvents s.params s.phase)
      (cleanupResume (cleanupClearEvents s.params s.phase).length k)) := by
  obtain ⟨k0, hk0, hexec⟩ := h.exec_shutdown he hclaimed
  rw [hexec, cleanupAt_failed hk0 he hu]

end

/-- In progress the cleanup goes on whatever the interrupt does: it is not itself interrupted (R170, D18). -/
theorem step_cleanup {k : Nat} {s : State} (hs : s.seq = .busy .shutdown k) : step s = cleanupAt k s.sampleIrq := by
  have hseq : s.sampleIrq.seq = .busy .shutdown k := by simpa using hs
  have htakes : takesIrq s.sampleIrq = false := by
    by_contra hc
    exact (takesIrq_busy hseq (by simpa using hc)).2 rfl
  exact (step_inProgress hs htakes).trans (exec_shutdown_inProgress hseq)

/-! ### A call that fails (R71, R73, R74) -/

/-- The first failing answer to the calls of an event fails it at that call's pin; the answers up to it are used up. -/
theorem performEvent_fails {e : Event} (j : Nat) {p : Pin} {s : State} {rest : List IoOutcome} (hp : e.pins[j]? = some p)
    (hallowed : e.allowed s.dir = true) (hio : s.params.ioCanFail = true) (ha : s.ioAnswers = List.replicate j .ok ++ .fail :: rest) :
    performEvent e s = .failed p { s with out := e.outFailed p s.out, ioAnswers := rest } := by
  cases e with
  | cfg q =>
    obtain ⟨rfl, rfl⟩ : j = 0 ∧ q = p := by simpa [Event.pins, List.getElem?_singleton] using hp
    have hd : s.dir.get q = .unconfigured := by simpa [Event.allowed] using hallowed
    simp [performEvent, configurePin, State.drawIo, hd, hio, ha, Event.outFailed]
  | wr q v =>
    obtain ⟨rfl, rfl⟩ : j = 0 ∧ q = p := by simpa [Event.pins, List.getElem?_singleton] using hp
    have hd : s.dir.get q = .output := by simpa [Event.allowed] using hallowed
    simp [performEvent, writePin, State.drawIo, hd, hio, ha, Event.outFailed, State.setOut]
  | rel q =>
    obtain ⟨rfl, rfl⟩ : j = 0 ∧ q = p := by simpa [Event.pins, List.getElem?_singleton] using hp
    have hd : s.dir.get q = .output := by simpa [Event.allowed] using hallowed
    simp [performEvent, releasePin, State.drawIo, hd, hio, ha, Event.outFailed]
  | data n =>
    obtain ⟨⟨⟨h0, h1⟩, h2⟩, h3⟩ := by simpa [Event.allowed] using hallowed
    match j with
    | 0 | 1 | 2 | 3 =>
      cases hp
      simp [performEvent, present, Performed.andThen, writePin, State.drawIo, State.setOut, h0, h1, h2, h3, hio, ha, List.replicate,
        Event.outFailed, presentFailedOut]
    | j + 4 => simp [Event.pins] at hp
  | dly d => simp [Event.pins] at hp

end Sys2Proof.Safety
end

section
/-! PROOFS. Family 44_system.md, O21, O30, O49 and O53: what one step of the cleanup leaves, whatever fails in it, and that it ends in DOWN
(R126, R170). -/

namespace Sys2Proof.Safety

open Sys2Proof.Machine

/-! ### The end -/

/-- DOWN is no phase of a fault (R16). -/
theorem BlockInvariant.noFault_of_down {s : State} (h : BlockInvariant s) (hp : s.phase = .down) : s.fault = .none := by
  by_contra hf
  have hfaulted := h.faulted.2 hf
  simp [hp] at hfaulted

/-- The cleanup in progress ends in DOWN within the steps it has left, whatever its calls answer: it is never refused, and each step brings its
end nearer. -/
theorem BlockInvariant.cleanup_ends_down (n : Nat) :
    ∀ {s : State} {k : Nat}, BlockInvariant s → s.seq = .busy .shutdown k → stepsLeft s ≤ n →
      ∃ m t, m ≤ n ∧ run m s = .next t ∧ t.phase = .down ∧ t.seq = .idle ∧ t.fault = .none := by
  induction n with
  | zero =>
    intro s k h hs hn
    have hpos := h.stepsLeft_pos (by simp [hs])
    omega
  | succ n ih =>
    intro s k h hs hn
    have hbusy : s.seq ≠ .idle := by simp [hs]
    obtain ⟨u, hu⟩ := operationInProgressNeverStops s h hbusy
    have hinv := stepKeepsInvariant s u h hu
    have hless := h.stepsLeft_step hbusy hu
    rcases cleanupAt_leaves ((step_cleanup hs).symm.trans hu) with ⟨-, j, -, hseq⟩ | ⟨hidle, hdown⟩
    · obtain ⟨m, t, hm, hrun, hend⟩ := ih hinv hseq (by omega)
      exact ⟨m + 1, t, by omega, (run_succ_of_step hu).trans hrun, hend⟩
    · exact ⟨1, u, by omega, run_succ_of_step hu, hdown, hidle, hinv.noFault_of_down hdown⟩

/-- Settles O21: accepted in READY the cleanup performs the first of its 20 events, and it ends in DOWN from there. -/
theorem shutdownAlwaysEndsDown : Obligations.ShutdownAlwaysEndsDown := by
  rintro s h ⟨hp, -, -⟩ hidle
  have hready : CleanupReady 0 s := h.cleanupReady ⟨rfl, rfl, rfl, rfl, rfl⟩ (.inr hp) (by simp [show s.seq = .idle from hidle])
  obtain ⟨u, hu⟩ := hready.cleanupAt_answers
  have hinv := hready.cleanupAt_keeps hu
  have hrun (n : Nat) : execThenRun .shutdown n s = run n u :=
    execThenRun_of_exec ((exec_shutdown_accepted hidle (.inr hp)).trans hu)
  rcases cleanupAt_leaves hu with ⟨-, j, hj, hseq⟩ | ⟨hend, hdown⟩
  · have hlength := length_shutdownEvents_le u.params u.phase
    obtain ⟨m, t, hm, ht, hends⟩ := hinv.cleanup_ends_down 19 hseq (by rw [stepsLeft_cleanup hseq]; omega)
    exact ⟨m, t, hm, (hrun m).trans ht, hends⟩
  · exact ⟨0, u, Nat.zero_le _, hrun 0, hdown, hend, hinv.noFault_of_down hdown⟩

/-! ### The frame of one step -/

/-- An event, performed or failed, leaves the direction of a pin it does not name. -/
theorem Performs.dir_other {e : Event} {s t : State} {p : Pin} (h : Performs e s t) (hp : p ∉ e.pins) : t.dir.get p = s.dir.get p := by
  cases h with
  | done _ _ dir _ => rw [dir, dirAfter_other hp]
  | failed _ _ _ dir _ => rw [dir]

/-- An event, performed or failed, is added to the trace. -/
theorem Performs.trace_cons {e : Event} {s t : State} (h : Performs e s t) : ∃ f, t.trace = ⟨e, f⟩ :: s.trace := by
  cases h with
  | done _ trace _ _ => exact ⟨none, trace⟩
  | failed p _ trace _ _ => exact ⟨some p, trace⟩

/-- A step of the cleanup performs the event at its position, one of a claimed pin if it is a release, or there is none left and it ends. -/
theorem cleanupAt_performs_event {k : Nat} {s t : State} (h : cleanupAt k s = .next t) :
    ((shutdownEvents s.params s.phase)[cleanupStop k s]? = none ∧ t = (s.setSeq .idle).setPhase .down) ∨
    ∃ e, (shutdownEvents s.params s.phase)[cleanupStop k s]? = some e ∧ (∀ p, e = .rel p → s.dir.get p = .output) ∧ Performs e s t := by
  rcases cleanupAt_next h with ⟨hnone, rfl⟩ | ⟨e, he, hend⟩
  · exact .inl ⟨hnone, cleanupTo_end s (List.getElem?_eq_none_iff.1 hnone)⟩
  · refine .inr ⟨e, he, unclaimedReleases_stop s.dir _ e (by rwa [List.getElem?_drop]), ?_⟩
    rcases hend with ⟨u, hu, rfl⟩ | ⟨p, u, hu, rfl⟩
    · exact performs_of_done hu (by simp) (by simp) (by simp)
    · exact performs_of_failed hu (by simp) (by simp) (by simp)

/-- Settles O30: what the cleanup leaves, and the event it performs where it stands. -/
theorem shutdownFrame : Obligations.ShutdownFrame := by
  intro s t h
  obtain ⟨hparams, hhost, hline, hpending⟩ := exec_keeps h
  obtain ⟨hdown, hfault, hbusy⟩ := exec_shutdown_next h
  have hends : (t.phase = .down ∧ t.seq = .idle) ∨ (t.phase = s.phase ∧ ∃ k, t.seq = .busy .shutdown k) := by
    cases hs : t.seq with
    | idle => exact .inl ⟨hdown hs, rfl⟩
    | busy op k =>
      obtain ⟨rfl, hp⟩ := hbusy op k hs
      exact .inr ⟨hp, k, rfl⟩
  obtain ⟨k, hk, h⟩ := runCleanup_next h
  refine ⟨hfault, hparams, hhost, hline, hpending, hends, cleanupStop k s, cleanupAtEvent_of_position hk, ?_⟩
  rcases cleanupAt_performs_event h with ⟨hnone, rfl⟩ | ⟨e, he, hclaimed, hperforms⟩
  · exact .inl ⟨hnone, rfl, rfl, rfl, rfl⟩
  · obtain ⟨f, htrace⟩ := hperforms.trace_cons
    exact .inr ⟨e, f, he, hclaimed, htrace, fun p hp => ⟨hperforms.out_other hp, hperforms.dir_other hp⟩⟩

/-! ### A failure is swallowed (R126) -/

theorem length_cleanupClearEvents_ready (P : Params) : (cleanupClearEvents P .ready).length = 14 := rfl

/-- Settles O49: the event fails and leaves its pins as R71 and R74 say; with all pins outputs the first release is next. -/
theorem cleanupSwallowsFailure : Obligations.CleanupSwallowsFailure := by
  intro k s rest hp hat hk hd hio
  have hstands : CleanupAtEvent k s :=
    ⟨k, hat.imp_right fun ⟨hs, h0⟩ => ⟨hs, h0, .inr hp⟩, Nat.le_refl k, fun j hkj hjk => by omega⟩
  have swallowed {e : Event} {j : Nat} {p : Pin} (he : (shutdownEvents s.params .ready)[k]? = some e) (hpin : e.pins[j]? = some p)
      (ha : s.ioAnswers = List.replicate j .ok ++ .fail :: rest) :
      exec .shutdown s = .next
        { s with out := e.outFailed p s.out, seq := .busy .shutdown 14, trace := ⟨e, some p⟩ :: s.trace, ioAnswers := rest } := by
    rw [← hp] at he
    have hallowed : e.allowed s.dir = true := by
      rcases shutdownEvents_get he with ⟨-, hmem⟩ | ⟨hge, -⟩
      · rw [hd]
        exact (cleanupClear_events _ _ e hmem).2.1
      · rw [hp, length_cleanupClearEvents_ready] at hge
        omega
    rw [hstands.exec_shutdown_failed he (fun q _ => by simp [hd]) (performEvent_fails j hpin hallowed hio ha), hp,
      length_cleanupClearEvents_ready, cleanupResume, if_pos hk, cleanupTo_of_event (e := .rel .d0) rfl (fun q _ => by simp [hd])]
    simp [State.record, State.setSeq]
  refine ⟨fun p v he ha => swallowed (j := 0) he rfl ha, fun n p out' he hline => ?_⟩
  rcases hline with ⟨rfl, ha, rfl⟩ | ⟨rfl, ha, rfl⟩ | ⟨rfl, ha, rfl⟩ | ⟨rfl, ha, rfl⟩
  · exact swallowed (j := 0) he rfl ha
  · exact swallowed (j := 1) he rfl ha
  · exact swallowed (j := 2) he rfl ha
  · exact swallowed (j := 3) he rfl ha

/-- Settles O53: a failing release changes no pin, and the cleanup goes on behind it. -/
theorem cleanupSkipsFailingRelease : Obligations.CleanupSkipsFailingRelease := by
  intro k p s rest hat he hd hio ha
  have hclear : ¬ k < (cleanupClearEvents s.params s.phase).length := by
    intro hlt
    rcases shutdownEvents_get he with ⟨-, hmem⟩ | ⟨hge, -⟩
    · exact (cleanupClear_events _ _ _ hmem).1 p rfl
    · omega
  have hclaimed : ∀ q, Event.rel p = .rel q → s.dir.get q = .output := fun q hq => Event.rel.inj hq ▸ hd
  obtain ⟨u, hu, hanswers⟩ : ∃ u, performEvent (.rel p) s = .failed p u ∧ u.ioAnswers = rest :=
    ⟨_, performEvent_fails 0 rfl (by simpa [Event.allowed] using hd) hio ha, rfl⟩
  obtain ⟨-, hkeep, hdir, hout⟩ := performEvent_failed hu
  refine ⟨_, hat.exec_shutdown_failed he hclaimed hu, by simp [hkeep.trace], by simp [hout, Event.outFailed], by simp [hdir],
    by simp [hkeep.fault], by simp [hanswers], ?_⟩
  rw [cleanupResume, if_neg hclear]
  obtain ⟨j, hkj, hskip, hend⟩ := cleanupTo_stands (u.record (.rel p) (some p)) (shutdownEvents s.params s.phase) (k + 1)
  simp only [State.record_dir, hdir] at hskip hend
  rcases hend with ⟨e, hej, hstop, heq⟩ | ⟨hend, heq⟩ <;> rw [heq]
  · obtain ⟨hlt, -⟩ | ⟨-, q, rfl⟩ := shutdownEvents_get hej
    · omega
    · exact .inr ⟨j, q, hkj, hej, hstop q rfl, rfl, hkeep.phase, hskip⟩
  · refine .inl ⟨rfl, rfl, fun i q hki hi => ?_⟩
    obtain ⟨hlt, -⟩ := List.getElem?_eq_some_iff.1 hi
    obtain ⟨q', hq', hfree⟩ := hskip i hki (by omega)
    obtain rfl : q = q' := by simpa [hi] using hq'
    exact hfree

end Sys2Proof.Safety
end

section
/-! PROOFS. Family 44_system.md, O36, O37 and O54: where calls cannot fail, the cleanup performs every event it does not leave out and ends in
DOWN with no pin driven (R126, R127, R131). -/

namespace Sys2Proof.Safety

open Sys2Proof.Machine

/-! ### The events the cleanup performs -/

/-- The events of the cleanup that are performed: all but the releases of pins that are not claimed when their turn comes (R126). -/
def performedIn (d : PinFile Dir) : List Event → List Event
  | [] => []
  | e :: es => if unclaimedReleases d (e :: es) = 0 then e :: performedIn (e.dirAfter d) es else performedIn d es

/-- None is left, or the next one stands behind the unclaimed releases, and the others behind it. -/
theorem performedIn_cases (d : PinFile Dir) (es : List Event) :
    (performedIn d es = [] ∧ es.length ≤ unclaimedReleases d es) ∨
    ∃ e, es[unclaimedReleases d es]? = some e ∧
      performedIn d es = e :: performedIn (e.dirAfter d) (es.drop (unclaimedReleases d es + 1)) := by
  induction es with
  | nil => exact .inl ⟨rfl, Nat.zero_le _⟩
  | cons e es ih =>
    by_cases hzero : unclaimedReleases d (e :: es) = 0
    · exact .inr ⟨e, by simp [hzero], by simp [performedIn, hzero]⟩
    · have hsucc : unclaimedReleases d (e :: es) = unclaimedReleases d es + 1 := by
        cases e with
        | rel q =>
          have hq : d.get q ≠ .output := fun hq => hzero (by simp [unclaimedReleases, hq])
          simp [unclaimedReleases, hq]
        | cfg | wr | data | dly => simp [unclaimedReleases] at hzero
      simpa [performedIn, hzero, hsucc] using ih

/-! ### The run -/

/-- With no event to perform the cleanup is over (R127). -/
theorem finished_nothing (s : State) : finished s [] 0 (endsIn .shutdown) = (s.setSeq .idle).setPhase .down := by
  apply State.ext_fields <;> simp [finished, ended, dirAfterAll, outAfterAll, endsIn]

/-- The state after an event that succeeded (R70). -/
def afterEvent (e : Event) (s : State) : State :=
  ({ s with dir := e.dirAfter s.dir, out := e.outAfter s.out } : State).record e none

@[simp] theorem afterEvent_dir (e : Event) (s : State) : (afterEvent e s).dir = e.dirAfter s.dir := rfl
@[simp] theorem afterEvent_phase (e : Event) (s : State) : (afterEvent e s).phase = s.phase := rfl
@[simp] theorem afterEvent_params (e : Event) (s : State) : (afterEvent e s).params = s.params := rfl

/-- What is left to be performed after it leads to the same end. -/
theorem finished_afterEvent (s : State) (e : Event) (es : List Event) (m : Nat) (f : Phase → Phase) :
    finished (afterEvent e s) es m f = finished s (e :: es) m f :=
  finished_cons _ _ _ _ _ _ _ rfl rfl rfl rfl rfl rfl rfl rfl rfl rfl rfl

/-- The same, when the step sampled the interrupt; where the sequencer stood does not matter at the end. -/
theorem finished_afterEvent_sampled (s : State) (q : Seq) (e : Event) (es : List Event) (m : Nat) (f : Phase → Phase) :
    finished (afterEvent e (s.setSeq q).sampleIrq) es m f = finished s (e :: es) (m + 1) f := by
  refine finished_cons _ _ _ _ _ _ _ ?_ ?_ ?_ ?_ ?_ ?_ ?_ ?_ ?_ ?_ ?_ <;> simp [afterEvent]
  cases s.irqLine <;> simp [Bool.or_assoc]

/-- Where calls cannot fail, the step performs the first of the events to be performed and leaves the others. -/
theorem cleanupAt_first {k : Nat} {s : State} {e : Event} {todo : List Event}
    (htodo : performedIn s.dir ((shutdownEvents s.params s.phase).drop k) = e :: todo) (hallowed : e.allowed s.dir = true)
    (hio : IoReliable s) :
    (shutdownEvents s.params s.phase)[cleanupStop k s]? = some e ∧
    performedIn (e.dirAfter s.dir) ((shutdownEvents s.params s.phase).drop (cleanupStop k s + 1)) = todo ∧
    cleanupAt k s = .next ((afterEvent e s).cleanupTo (shutdownEvents s.params s.phase) (cleanupStop k s + 1)) := by
  rcases performedIn_cases s.dir ((shutdownEvents s.params s.phase).drop k) with ⟨hnil, -⟩ | ⟨e', he, hcons⟩
  · simp [hnil] at htodo
  · rw [List.drop_drop, ← Nat.add_assoc, ← cleanupStop] at hcons
    rw [List.getElem?_drop, ← cleanupStop] at he
    obtain ⟨rfl, rfl⟩ := List.cons.inj (hcons.symm.trans htodo)
    exact ⟨he, rfl, cleanupAt_done rfl he (performEvent_reliable _ s hio hallowed)⟩

/-- With none to be performed, the cleanup stands at its end. -/
theorem cleanupStop_at_end {k : Nat} {s : State} (htodo : performedIn s.dir ((shutdownEvents s.params s.phase).drop k) = []) :
    (shutdownEvents s.params s.phase).length ≤ cleanupStop k s := by
  rcases performedIn_cases s.dir ((shutdownEvents s.params s.phase).drop k) with ⟨-, hend⟩ | ⟨e, -, hcons⟩
  · rw [List.length_drop] at hend
    rw [cleanupStop]
    omega
  · simp [hcons] at htodo

theorem claimed_of_allowed {e : Event} {d : PinFile Dir} (h : e.allowed d = true) : ∀ p, e = .rel p → d.get p = .output := by
  rintro p rfl
  simpa [Event.allowed] using h

/-- In progress before an event that is allowed, the cleanup performs it, at either granularity of the interrupt. -/
theorem step_cleanup_event {j : Nat} {s : State} {e : Event} (hs : s.seq = .busy .shutdown j)
    (he : (shutdownEvents s.params s.phase)[j]? = some e) (hallowed : e.allowed s.dir = true) (hio : IoReliable s) :
    step s = .next ((afterEvent e s.sampleIrq).cleanupTo (shutdownEvents s.params s.phase) (j + 1)) := by
  have hj : cleanupStop j s.sampleIrq = j := by simp [cleanupStop, unclaimedReleases_of_event he (claimed_of_allowed hallowed)]
  rw [step_cleanup hs, cleanupAt_done hj (by simpa using he)
    (performEvent_reliable e s.sampleIrq (by simpa using hio) (by simpa using hallowed))]
  simp [afterEvent]

theorem allAllowed_cons {d : PinFile Dir} {e : Event} {es : List Event} (h : allAllowed d (e :: es) = true) :
    e.allowed d = true ∧ allAllowed (e.dirAfter d) es = true := by
  simpa [allAllowed] using h

/-- THE CLEANUP RUNS THROUGH ITS EVENTS (R17, R126): where calls cannot fail, sent to a position it performs the events that are left, one a step,
and ends in DOWN, at either granularity of the interrupt. -/
theorem run_cleanupTo (todo : List Event) :
    ∀ {s : State} {k : Nat}, performedIn s.dir ((shutdownEvents s.params s.phase).drop k) = todo → allAllowed s.dir todo = true →
      IoReliable s →
        run todo.length (s.cleanupTo (shutdownEvents s.params s.phase) k) = .next (finished s todo todo.length (endsIn .shutdown)) := by
  induction todo with
  | nil =>
    intro s k htodo _ _
    rw [cleanupTo_of_end (cleanupStop_at_end htodo), ← finished_nothing]
    rfl
  | cons e todo ih =>
    intro s k htodo hallowed hio
    obtain ⟨hfirst, hrest⟩ := allAllowed_cons hallowed
    obtain ⟨he, htodo', -⟩ := cleanupAt_first htodo hfirst hio
    rw [cleanupTo_of_stop he]
    generalize cleanupStop k s = j at *
    have hstep := step_cleanup_event (s := s.setSeq (.busy .shutdown j)) rfl he hfirst hio
    have hrun := ih (s := afterEvent e (s.setSeq (.busy .shutdown j)).sampleIrq) (k := j + 1) (by simpa using htodo')
      (by simpa using hrest) (by simpa [IoReliable] using hio)
    rw [finished_afterEvent_sampled] at hrun
    rw [List.length_cons, run_succ_of_step hstep, ← hrun]
    simp

/-- From acceptance, or from where it stands: the first event is `exec`'s own (log entry 11). -/
theorem execThenRun_cleanup {todo : List Event} {s : State} {k : Nat} (hexec : exec .shutdown s = cleanupAt k s)
    (htodo : performedIn s.dir ((shutdownEvents s.params s.phase).drop k) = todo) (hallowed : allAllowed s.dir todo = true)
    (hio : IoReliable s) :
    execThenRun .shutdown (todo.length - 1) s = .next (finished s todo (todo.length - 1) (endsIn .shutdown)) := by
  cases todo with
  | nil =>
    rw [execThenRun_of_exec (hexec.trans (cleanupAt_end rfl (cleanupStop_at_end htodo))), ← finished_nothing]
    rfl
  | cons e todo =>
    obtain ⟨hfirst, hrest⟩ := allAllowed_cons hallowed
    obtain ⟨-, htodo', hat⟩ := cleanupAt_first htodo hfirst hio
    rw [execThenRun_of_exec (hexec.trans hat)]
    exact (run_cleanupTo (s := afterEvent e s) todo htodo' hrest hio).trans (congrArg _ (finished_afterEvent s e todo _ _))

/-! ### In READY (R126, R131) -/

/-- With all pins outputs the cleanup leaves out nothing. -/
theorem performedIn_ready (P : Params) : performedIn (.all .output) (shutdownEvents P .ready) = clearTrace P ++ releaseTrace := rfl

section
variable {s : State} (hp : s.phase = .ready) (hd : s.dir = PinFile.all .output) (hidle : Idle s) (hio : IoReliable s)
include hp hd hidle hio

/-- The cleanup begins with the byte `I_CLEAR`: `RS` LOW (R117). -/
theorem exec_shutdown_first :
    exec .shutdown s = .next
      { s with
        out := { s.out with rs := some .low }
        seq := .busy .shutdown 1
        trace := ⟨.wr .rs .low, none⟩ :: s.trace } := by
  have hat : CleanupAtEvent 0 s := ⟨0, .inr ⟨hidle, rfl, .inr hp⟩, Nat.le_refl 0, fun j _ hj => absurd hj (Nat.not_lt_zero j)⟩
  have hallowed : (Event.wr .rs .low).allowed s.dir = true := by rw [hd]; rfl
  rw [hat.exec_shutdown_done (e := .wr .rs .low) (by rw [hp]; rfl) nofun (performEvent_reliable _ s hio hallowed),
    cleanupTo_of_event (e := .data (hiNibble s.params.iClear)) (by rw [hp]; rfl) nofun]
  rfl

/-- 19 steps after its acceptance the cleanup has performed the clear and the six releases, and no pin is driven (R126, R131). -/
theorem execThenRun_shutdown_ready :
    execThenRun .shutdown 19 s = .next
      (ended s (clearTrace s.params ++ releaseTrace) 19 (PinFile.all .unconfigured) (PinFile.all none) .down) := by
  have hrun := execThenRun_cleanup (k := 0) (todo := clearTrace s.params ++ releaseTrace) (exec_shutdown_accepted hidle (.inr hp))
    (by rw [hd, hp]; exact performedIn_ready _) (by rw [hd]; rfl) hio
  rw [finished, hd] at hrun
  exact hrun

end

/-- Settles O36: the run through all twenty events. -/
theorem shutdownCompletes : Obligations.ShutdownCompletes := fun _ hp hd hidle hio =>
  ⟨exec_shutdown_first hp hd hidle hio, execThenRun_shutdown_ready hp hd hidle hio⟩

/-- Settles O37: in UNINIT there is nothing to perform, in READY it is the run of O36, and in the final phases it is not admitted. -/
theorem shutdownByPhase : Obligations.ShutdownByPhase := by
  intro s hidle
  refine ⟨fun hp hd => ?_, fun hp hd hio => ⟨_, execThenRun_shutdown_ready hp hd hidle hio, rfl, rfl, rfl, rfl, rfl, rfl⟩,
    fun hp => exec_idle_refused .shutdown s _ hidle (by rw [hp]; rfl), fun hp => exec_idle_refused .shutdown s _ hidle (by rw [hp]; rfl)⟩
  have hnothing : performedIn s.dir ((shutdownEvents s.params s.phase).drop 0) = [] := by rw [hp, hd]; rfl
  rw [exec_shutdown_accepted hidle (.inl hp), cleanupAt_end rfl (cleanupStop_at_end hnothing), ← hidle]
  rfl

/-! ### The releases of the claimed pins (R126) -/

/-- Of releases of pins that differ, those of the claimed ones are performed. -/
theorem performedIn_releases {ps : List Pin} (hps : ps.Nodup) :
    ∀ d, performedIn d (ps.map .rel) = (ps.filter fun p => decide (d.get p = .output)).map .rel := by
  induction ps with
  | nil => exact fun _ => rfl
  | cons p ps ih =>
    intro d
    obtain ⟨hp, hps⟩ := List.nodup_cons.1 hps
    by_cases hd : d.get p = .output
    · have hother : ∀ q ∈ ps, decide ((d.set p .unconfigured).get q = .output) = decide (d.get q = .output) := by
        intro q hq
        rw [PinFile.get_set_other d _ (ne_of_mem_of_not_mem hq hp)]
      simp [performedIn, unclaimedReleases, hd, Event.dirAfter, ih hps, List.filter_congr hother]
    · simp [performedIn, unclaimedReleases, hd, ih hps]

theorem allAllowed_releases {ps : List Pin} (hps : ps.Nodup) :
    ∀ d, (∀ p ∈ ps, d.get p = .output) → allAllowed d (ps.map .rel) = true := by
  induction ps with
  | nil => exact fun _ _ => rfl
  | cons p ps ih =>
    intro d hd
    obtain ⟨hp, hps⟩ := List.nodup_cons.1 hps
    have hrest : allAllowed (d.set p .unconfigured) (ps.map .rel) = true := by
      refine ih hps _ fun q hq => ?_
      rw [PinFile.get_set_other d _ (ne_of_mem_of_not_mem hq hp)]
      exact hd q (List.mem_cons_of_mem p hq)
    simpa [allAllowed, Event.allowed, Event.dirAfter, hrest] using hd p List.mem_cons_self

theorem dirAfterAll_releases (ps : List Pin) (q : Pin) :
    ∀ d, (dirAfterAll (ps.map .rel) d).get q = if q ∈ ps then .unconfigured else d.get q := by
  induction ps with
  | nil => simp [dirAfterAll]
  | cons p ps ih =>
    intro d
    have hcons : dirAfterAll ((p :: ps).map .rel) d = dirAfterAll (ps.map .rel) (d.set p .unconfigured) := rfl
    rw [hcons, ih, PinFile.get_set]
    by_cases hq : q ∈ ps <;> simp [hq]

theorem outAfterAll_releases (ps : List Pin) (q : Pin) :
    ∀ o, (outAfterAll (ps.map .rel) o).get q = if q ∈ ps then none else o.get q := by
  induction ps with
  | nil => simp [outAfterAll]
  | cons p ps ih =>
    intro o
    have hcons : outAfterAll ((p :: ps).map .rel) o = outAfterAll (ps.map .rel) (o.set p none) := rfl
    rw [hcons, ih, PinFile.get_set]
    by_cases hq : q ∈ ps <;> simp [hq]

/-- The claimed pins, in the order of their release (R126). -/
def claimedPins (d : PinFile Dir) : List Pin := pinOrder.filter fun p => decide (d.get p = .output)

theorem mem_claimedPins {d : PinFile Dir} {p : Pin} : p ∈ claimedPins d ↔ d.get p = .output := by
  cases p <;> simp [claimedPins, pinOrder]

/-- In UNINIT the cleanup releases the claimed pins and nothing else; where an undriven pin has no value, none has one at the end
(R126, R127, log entry 15). -/
theorem execThenRun_shutdown_uninit {s : State} (hp : s.phase = .uninit)
    (hundriven : ∀ p, s.dir.get p = .unconfigured → s.out.get p = none) (hidle : Idle s) (hio : IoReliable s) :
    execThenRun .shutdown ((claimedPins s.dir).length - 1) s = .next
      (ended s ((claimedPins s.dir).map .rel) ((claimedPins s.dir).length - 1) (PinFile.all .unconfigured) (PinFile.all none) .down) := by
  have hnodup : pinOrder.Nodup := by decide
  have hdir : dirAfterAll ((claimedPins s.dir).map .rel) s.dir = PinFile.all .unconfigured := by
    refine (PinFile.eq_all_iff _ _).2 fun p => ?_
    rw [dirAfterAll_releases]
    cases hd : s.dir.get p <;> simp [mem_claimedPins, hd]
  have hout : outAfterAll ((claimedPins s.dir).map .rel) s.out = PinFile.all none := by
    refine (PinFile.eq_all_iff _ _).2 fun p => ?_
    rw [outAfterAll_releases]
    cases hd : s.dir.get p with
    | output => simp [mem_claimedPins, hd]
    | unconfigured => simp [hundriven p hd]
  have hrun := execThenRun_cleanup (k := 0) (todo := (claimedPins s.dir).map .rel) (exec_shutdown_accepted hidle (.inl hp))
    (by rw [hp]; exact performedIn_releases hnodup s.dir)
    (allAllowed_releases (hnodup.filter _) _ fun p hmem => mem_claimedPins.1 hmem) hio
  rwa [finished, hdir, hout, List.length_map] at hrun

/-! ### The interrupt starts it (R167, D17) -/

/-- An interrupt that is to be taken runs the cleanup from acceptance, whatever was in progress. -/
theorem run_interrupt {s : State} (ht : takesIrq s.sampleIrq = true) (n : Nat) :
    run (n + 1) s = execThenRun .shutdown n (s.sampleIrq.setSeq .idle) := by
  have hstep := step_interrupt ht
  cases hx : exec .shutdown (s.sampleIrq.setSeq .idle) with
  | next t => rw [run_succ_of_step (hstep.trans hx), execThenRun_of_exec hx]
  | fault r | refused r => simp only [run_succ, execThenRun, hstep, hx]

/-- With the granularity `event` a pending interrupt is taken inside every operation but the cleanup (D17, D18). -/
theorem takesIrq_inProgress {s : State} {op : Instr} {k : Nat} (hs : s.seq = .busy op k) (hop : op ≠ .shutdown)
    (hg : s.params.irqGranularity = .event) (hirq : s.irqPending = true) (hp : s.phase = .uninit ∨ s.phase = .ready) :
    takesIrq s.sampleIrq = true := by
  rcases hp with hp | hp <;> simp [takesIrq, servesIrq, admitShutdown, hs, hop, hg, hirq, hp]

/-- Settles O54: the interrupt's step is the acceptance of the cleanup, which leaves the abandoned operation's pins as they are. -/
theorem interruptAbandonsOperation : Obligations.InterruptAbandonsOperation := by
  intro op k s hs hop hg hirq hio
  refine ⟨fun hp hd => ?_, fun hp hundriven => ?_⟩
  · have hrun := execThenRun_shutdown_ready (s := s.sampleIrq.setSeq .idle) (by simpa using hp) (by simpa using hd) rfl
      (by simpa [IoReliable] using hio)
    refine ⟨_, (run_interrupt (takesIrq_inProgress hs hop hg hirq (.inr hp)) 19).trans hrun, rfl, rfl, rfl, rfl, ?_⟩
    simp [ended, hirq]
  · have hrun := execThenRun_shutdown_uninit (s := s.sampleIrq.setSeq .idle) (by simpa using hp) (by simpa using hundriven) rfl
      (by simpa [IoReliable] using hio)
    have hlength : (claimedPins s.dir).length ≤ 6 := List.length_filter_le _ pinOrder
    refine ⟨_, _, ?_, (run_interrupt (takesIrq_inProgress hs hop hg hirq (.inl hp)) _).trans hrun, rfl, rfl, rfl, rfl, ?_⟩
    · simp only [State.setSeq_dir, State.sampleIrq_dir]
      omega
    · simp [ended, hirq, claimedPins, Function.comp_def]

end Sys2Proof.Safety
end

section
/-! PROOFS. Family 49_host_context.md, O51 and O52: what the host shows after a tick is what the sample asks for, and a tick whose sample is
already shown issues nothing (R146, R150). -/

namespace Sys2Proof.Safety

open Sys2Proof.Machine

/-- The screen a sample asks for: the button goes before the address (R149, R150). -/
def screenOf (x : Sample) : DisplayState :=
  if x.pressed then .showingMac else if x.ip.isSome then .showingIp else .waiting

/-- The sample's screen is shown, and on the IP screen the sample's address; of the MAC screen the host remembers no address (R150, R151). -/
structure ShowsSample (h : HostState) (x : Sample) : Prop where
  screen : h.shown = screenOf x
  address : h.shown = .showingIp → x.ip = some h.lastIp

/-- A tick whose sample is shown already leaves the host as it is and issues nothing; any other leaves its sample shown (R146). -/
theorem hostTick_cases (h : HostState) (x : Sample) :
    (ShowsSample h x ∧ hostTick h x = (h, [])) ∨ (¬ ShowsSample h x ∧ ShowsSample (hostTick h x).1 x) := by
  obtain ⟨pressed, ip, mac⟩ := x
  cases pressed with
  | true =>
    by_cases hmac : h.shown = .showingMac
    · exact .inl ⟨⟨hmac, by simp [hmac]⟩, by simp [hostTick, hmac]⟩
    · exact .inr ⟨fun hs => hmac hs.screen, by simp [hostTick, hmac, screenOf], by simp [hostTick, hmac]⟩
  | false =>
    cases ip with
    | some ip =>
      by_cases hip : h.shown = .showingIp ∧ ip = h.lastIp
      · exact .inl ⟨⟨hip.1, fun _ => congrArg some hip.2⟩, by simp [hostTick, hip]⟩
      · exact .inr ⟨fun hs => hip ⟨hs.screen, Option.some.inj (hs.address hs.screen)⟩,
          by simp [hostTick, hip, screenOf], by simp [hostTick, hip]⟩
    | none =>
      by_cases hwait : h.shown = .waiting
      · exact .inl ⟨⟨hwait, by simp [hwait]⟩, by simp [hostTick, hwait]⟩
      · exact .inr ⟨fun hs => hwait hs.screen, by simp [hostTick, hwait, screenOf], by simp [hostTick, hwait]⟩

theorem showsSample_hostTick (h : HostState) (x : Sample) : ShowsSample (hostTick h x).1 x := by
  obtain ⟨hshows, htick⟩ | ⟨-, hafter⟩ := hostTick_cases h x
  · rwa [htick]
  · exact hafter

theorem hostTick_of_showsSample {h : HostState} {x : Sample} (hshows : ShowsSample h x) : hostTick h x = (h, []) := by
  obtain ⟨-, htick⟩ | ⟨hnot, -⟩ := hostTick_cases h x
  · exact htick
  · exact absurd hshows hnot

theorem hostAfter_concat (h : HostState) (xs : List Sample) (x : Sample) :
    hostAfter h (xs ++ [x]) = (hostTick (hostAfter h xs) x).1 := by
  simp [hostAfter, List.foldl_append]

/-- Settles O51: the last sample's tick shows it, whatever the ones before it left. -/
theorem hostShowsTheLastSample : Obligations.HostShowsTheLastSample := by
  intro h xs x
  rw [hostAfter_concat]
  exact (showsSample_hostTick (hostAfter h xs) x).screen

/-- Settles O52: the first tick shows the sample, so the second has nothing to render. -/
theorem hostRendersOnlyChanges : Obligations.HostRendersOnlyChanges := by
  intro h x
  rw [hostTick_of_showsSample (showsSample_hostTick h x)]

end Sys2Proof.Safety
end

section
/-! PROOFS. Family 60_exceptions.md, O14, O38 and O47: when the pending interrupt is taken and what follows at an idle sequencer (R167, R168, R170),
and what a failing call leaves outside the cleanup (R160, R163). -/

namespace Sys2Proof.Safety

open Sys2Proof.Machine

/-! ### The interrupt -/

/-- `SHUTDOWN` is admitted before its own end and before a fault (R16, R168). -/
theorem servesIrq_iff (ph : Phase) : servesIrq ph = true ↔ ph = .uninit ∨ ph = .ready := by
  cases ph <;> simp [servesIrq, admitShutdown]

/-- Settles O14: an idle sequencer adds no condition, an operation in progress adds the two of D17 and R170. -/
theorem whenTheInterruptIsTaken : Obligations.WhenTheInterruptIsTaken := by
  intro s
  cases hs : s.seq with
  | idle => simp [takesIrq, hs, servesIrq_iff]
  | busy op k => simp [takesIrq, hs, servesIrq_iff, and_assoc, and_comm (a := s.params.irqGranularity = .event)]

/-- At an idle sequencer a pending interrupt is taken in UNINIT and READY, whatever the granularity (R167). -/
theorem takesIrq_idle {s : State} (hirq : s.irqPending = true) (hidle : Idle s) (hp : s.phase = .uninit ∨ s.phase = .ready) :
    takesIrq s.sampleIrq = true :=
  (whenTheInterruptIsTaken _).2 ⟨by simp [hirq], by simpa using hp, .inl (by simpa using hidle)⟩

/-- Settles O38: the interrupt's step is the acceptance of the cleanup, in READY the run of O36, in UNINIT the one step of O37. -/
theorem interruptShutsDown : Obligations.InterruptShutsDown := by
  intro s hirq hidle
  refine ⟨fun hp hd hio => ?_, fun hp hd => ?_⟩
  · have hrun := execThenRun_shutdown_ready (s := s.sampleIrq.setSeq .idle) (by simpa using hp) (by simpa using hd) rfl
      (by simpa [IoReliable] using hio)
    refine ⟨_, (run_interrupt (takesIrq_idle hirq hidle (.inr hp)) 19).trans hrun, rfl, rfl, rfl, rfl, ?_⟩
    simp [ended, hirq]
  · obtain ⟨hends, -, -, -⟩ := shutdownByPhase (s.sampleIrq.setSeq .idle) rfl
    have hexec := hends (by simpa using hp) (by simpa using hd)
    refine ⟨_, (run_interrupt (takesIrq_idle hirq hidle (.inl hp)) 0).trans (execThenRun_of_exec hexec), rfl, rfl, ?_⟩
    simp [hirq]

/-! ### The exception -/

/-- An event that fails at its position takes the fault; the rest of the operation is dropped (R17, R81, R160). -/
theorem performAt_failed {op : Instr} {es : List Event} {f : Phase → Phase} {k : Nat} {s u : State} {e : Event} {p : Pin}
    (he : es[k]? = some e) (hu : performEvent e s = .failed p u) :
    performAt op es f k s = .next (raiseIoFault p (u.record e (some p))) := by
  simp [performAt, he, hu]

/-- OUTSIDE THE CLEANUP A FAILING CALL TAKES THE FAULT (R160, R163): the call at pin `p`, the event's `j`-th, is the first to fail, at the first
event of an accepted command too (log entry 11). -/
theorem exec_takesIoFault {i : Instr} {k : Nat} {s : State} {e : Event} (j : Nat) {p : Pin} {rest : List IoOutcome} (hi : i ≠ .shutdown)
    (hat : AtEvent i k s) (he : (eventsOf s.params s.phase i)[k]? = some e) (hp : e.pins[j]? = some p)
    (hallowed : e.allowed s.dir = true) (hio : s.params.ioCanFail = true) (ha : s.ioAnswers = List.replicate j .ok ++ .fail :: rest) :
    exec i s = .next
      { s with
        out := e.outFailed p s.out
        phase := .faulted
        seq := .idle
        fault := .ioFault p
        trace := ⟨e, some p⟩ :: s.trace
        ioAnswers := rest } := by
  rw [exec_atEvent hi hat, performAt_failed he (performEvent_fails j hp hallowed hio ha)]
  rfl

/-- Settles O47: a `Wr` and a `Cfg` make one call each; the one leaves its pin without a value, the other changes no pin. -/
theorem failingCallTakesIoFault : Obligations.FailingCallTakesIoFault := by
  rintro i k e p s rest hi hat he hallowed (⟨v, rfl⟩ | rfl) hio ha
  · exact exec_takesIoFault 0 hi hat he rfl hallowed hio ha
  · exact exec_takesIoFault 0 hi hat he rfl hallowed hio ha

end Sys2Proof.Safety
end

section
/-! PROOFS. Family 70_reset_and_hazards.md, O11, O12 and O15: the least durations of the operations (R204), and the reset state with the
invariants it starts (R185, R189). -/

namespace Sys2Proof.Safety

open Sys2Proof.Machine

/-! ### The least durations (R204) -/

theorem leastMicros_append (a b : List Entry) : leastMicros (a ++ b) = leastMicros a + leastMicros b := by
  induction a with
  | nil => exact (Nat.zero_add _).symm
  | cons t a ih => rw [List.cons_append, leastMicros, leastMicros, ih, Nat.add_assoc]

/-- The delays among the events, all succeeding, add up to so many microseconds. -/
def LeastTime (micros : Nat) (es : List Event) : Prop := leastMicros (es.map fun e => ⟨e, none⟩) = micros

theorem LeastTime.append {m n : Nat} {a b : List Event} (ha : LeastTime m a) (hb : LeastTime n b) :
    LeastTime (m + n) (a ++ b) := by
  rw [LeastTime, List.map_append, leastMicros_append, ha, hb]

/-- Three delays (R75). -/
theorem leastTime_strobeEvents : LeastTime 1500 strobeEvents := rfl

/-- One strobe; the presentation takes no stated time (R76). -/
theorem leastTime_nibEvents (n : Nibble) : LeastTime 1500 (nibEvents n) :=
  .append (m := 0) (a := [.data n]) rfl leastTime_strobeEvents

/-- Two nibbles; the register select takes no stated time, and no delay depends on the byte sent (R85). -/
theorem leastTime_sendEvents (c : LcdCommand) : LeastTime 3000 (sendEvents c) :=
  .append (m := 0) (a := [.wr .rs c.mode]) rfl ((leastTime_nibEvents _).append (leastTime_nibEvents _))

theorem leastTime_clearEvents (P : Params) : LeastTime 3500 (clearEvents P) :=
  (leastTime_sendEvents _).append (n := 500) rfl

theorem leastTime_characters (x : Text) : LeastTime (3000 * x.length) (x.flatMap wrcEvents) := by
  induction x with
  | nil => rfl
  | cons c x ih =>
    rw [List.length_cons, Nat.mul_add_one, Nat.add_comm]
    exact (leastTime_sendEvents _).append ih

/-- The line's base, then 16 characters (R112). -/
theorem leastTime_showlineEvents (line : Line) (text : Text) : LeastTime 51000 (showlineEvents line text) := by
  have hcharacters := leastTime_characters (fit16 text)
  rw [fit16_length] at hcharacters
  exact (leastTime_sendEvents _).append hcharacters

/-- The power-on delay, the four nibbles of the handshake, and the configuration's five bytes with the settle delay (R97 to R100). -/
theorem leastTime_initEvents (P : Params) : LeastTime 121500 (initEvents P) := by
  have hconfigure : LeastTime 0 configureEvents := rfl
  have hhandshake : LeastTime (100000 + 4 * 1500) (.dly .pwr :: handshakeEvents) := rfl
  have hconfiguration : LeastTime (3000 + (3000 + (3500 + (3000 + 3000)))) (configurationEvents P) :=
    (leastTime_sendEvents _).append ((leastTime_sendEvents _).append ((leastTime_clearEvents P).append
      ((leastTime_sendEvents _).append (leastTime_sendEvents _))))
  exact hconfigure.append (hhandshake.append hconfiguration)

/-- The clear; the releases take no stated time (R126). -/
theorem leastTime_shutdownEvents_ready (P : Params) : LeastTime 3500 (shutdownEvents P .ready) :=
  (leastTime_clearEvents P).append (n := 0) rfl

/-- Settles O11: durations add up along a sequence, and each operation is built from strobes, nibbles and byte writes. -/
theorem leastDurations : Obligations.LeastDurations :=
  ⟨leastTime_strobeEvents, leastTime_nibEvents, fun _ => ⟨leastTime_sendEvents _, leastTime_sendEvents _⟩, leastTime_clearEvents,
    leastTime_showlineEvents,
    fun l1 l2 t1 t2 => (leastTime_showlineEvents l1 t1).append (leastTime_showlineEvents l2 t2),
    leastTime_initEvents, leastTime_shutdownEvents_ready⟩

/-! ### The reset state (R185) -/

@[simp] theorem reset_dir : State.reset.dir = PinFile.all .unconfigured := rfl

@[simp] theorem reset_out : State.reset.out = PinFile.all none := rfl

/-- The parameters of the reset state meet the launch premises (R189, log entries 2 and 3). -/
theorem paramsOk_reset : ParamsOk State.reset := by decide

/-- Settles O12: the pins are alike, and each other field is read off the reset state. -/
theorem resetState : Obligations.ResetState :=
  ⟨fun p => by simp, rfl, rfl, rfl, rfl, ⟨rfl, reset_dir, rfl⟩, rfl, rfl, paramsOk_reset⟩

/-- No pin is driven, no fault is recorded and nothing is in progress; the phase is UNINIT (R185). -/
theorem blockInvariant_reset : BlockInvariant State.reset where
  undriven := by simp
  faulted := ⟨nofun, fun h => absurd rfl h⟩
  reliable := fun _ => rfl
  final := fun _ => rfl
  fresh := fun _ _ => reset_dir
  ready := nofun
  working := nofun
  cleaning := nofun

/-- No pin is driven. -/
theorem seesLatches_reset : SeesLatches State.reset := by simp [SeesLatches]

/-- Nothing was done and nothing is still to do. -/
theorem balanced_reset : Balanced State.reset :=
  (balanced_iff _).2 fun _ _ => ⟨rfl, rfl, rfl⟩

/-- Settles O15: with no pin driven, nothing done and nothing in progress, each of the three holds. -/
theorem resetIsSound : Obligations.ResetIsSound := ⟨blockInvariant_reset, seesLatches_reset, balanced_reset⟩

end Sys2Proof.Safety
end
